-- ==== Sys2Proof/Word.lean ====
section
/-! DEFINITION. The widths of spec/00_scope.md R10 and R12: every integer of this hardware is unsigned. -/

namespace Sys2Proof

/-- A host register, a digest, a seed, `m`, `k`, `n`: `u32` (R10: `W_M`, `W_K`, `W_H`, `W_N`). -/
abbrev Word := BitVec 32

/-- One byte of a key or of a serialized stream (R15). -/
abbrev Byte := BitVec 8

/-- The accumulator byte count `length` (`W_LEN`) and the binary64 pattern `P` (`P_FMT`) of R10. -/
abbrev DWord := BitVec 64

end Sys2Proof
end

