-- ==== Sys2Proof/Config.lean ====
section
/-! DEFINITION. What an implementation fixes (spec/00_scope.md R10) and the free values the spec leaves open. -/

namespace Sys2Proof

/-- The open capacity parameters of R10. `NSLOTS` is the number of slots a state holds
(`Machine.State.nslots`), so it stands in no field of its own. -/
structure Config where
  /-- `M_MAX`: the largest `m` a slot can hold. -/
  mMax : Nat
  /-- `K_MAX`: the largest `k` a slot can hold. -/
  kMax : Nat
  /-- `KEY_MAX`: the largest number of bytes in one KEY buffer. -/
  keyMax : Nat
deriving DecidableEq, Repr

/-- The defaults of R10. -/
def Config.default : Config := { mMax := 2 ^ 32 - 1, kMax := 2 ^ 32 - 1, keyMax := 2 ^ 32 - 1 }

/-- The default of `NSLOTS` in R10. -/
def Config.defaultSlots : Nat := 2

/-- The ranges R10 states for the three parameters. -/
abbrev Config.wf (c : Config) : Prop :=
  (1 ≤ c.mMax ∧ c.mMax ≤ 2 ^ 32 - 1) ∧ (1 ≤ c.kMax ∧ c.kMax ≤ 2 ^ 32 - 1) ∧ c.keyMax ≤ 2 ^ 32 - 1

/-- FREE VALUE (log 3). What `RES0 .. RES2` read as while `BUSY = 1`, one for each draw
(spec/93_implementation_defined.md U5). -/
opaque Config.freeWord : Nat → Word

/-- FREE VALUE (log 4). The lengths spec/70_reset_and_hazards.md R291 leaves unknown when a reset
abandons a command, one for each draw (U9). -/
opaque Config.freeLength : Nat → Nat

end Sys2Proof
end

