-- ==== Sys2Proof/Machine/State.lean ====
section
/-! DEFINITION. The state of BLOOM-CORE as plain data (spec/10_state.md R20 to R38), with the far side of
its ports and of its host interface as the inputs a step reads (spec/20_memory.md R64 to R66,
spec/70_reset_and_hazards.md R293). -/

namespace Sys2Proof.Machine

/-- `(h, length, tail)` of an accumulator with a computation in progress (R26). -/
structure AccRun where
  /-- "running mixed state" -/
  h : Word
  /-- "cumulative count of input bytes processed so far", modulo `2^64` (R28) -/
  length : DWord
  /-- "bytes not yet forming a complete 4-byte block" -/
  tail : List Byte
deriving DecidableEq, Repr

/-- A hash accumulator (R26). Its `open` bit (R27) is whether `run` holds a value: while it is 0 the
spec gives `(h, length, tail)` no value and no command reads them, so the model holds none. -/
structure Acc where
  /-- "immutable, fixed at construction"; equals the accumulator's index -/
  seed : Word
  run : Option AccRun
deriving DecidableEq, Repr

/-- The `open` bit of R27. -/
def Acc.isOpen (a : Acc) : Bool := a.run.isSome

/-- A Filter (R21). -/
structure Filter where
  /-- "number of bits in the bit array" -/
  m : Word
  /-- "number of independent hash functions applied per key" -/
  k : Word
  /-- "the membership bit array": `m` cells, cell `i` at position `i` -/
  bits : List Bool
  /-- `k` accumulators, accumulator `j` at position `j` -/
  acc : List Acc
deriving DecidableEq, Repr

/-- The nine host registers of R30. -/
inductive HostReg where
  | cmd | status | arg0 | arg1 | arg2 | arg3 | res0 | res1 | res2
deriving DecidableEq, Repr

/-- The contents of the host registers (R30). -/
structure HostRegs where
  cmd : Word
  status : Word
  arg0 : Word
  arg1 : Word
  arg2 : Word
  arg3 : Word
  res0 : Word
  res1 : Word
  res2 : Word
deriving DecidableEq, Repr

/-- The far side of the three data ports (spec/20_memory.md R64 to R66). -/
structure Ports where
  /-- The KEY buffers that have been presented and not yet taken, oldest first: one at the port (R64), and behind it
  those presented while it is pending (R302, U18; log 8). -/
  keys : List (List Byte)
  /-- The source bytes not yet consumed (R65). -/
  src : List Byte
  /-- Whether the source has ended or failed behind `src`; if not, more bytes may come (R65, R307). -/
  srcEnded : Bool
  /-- The bytes the sink has accepted so far (R66). -/
  snk : List Byte
  /-- `accept` of R66: how many further bytes the sink takes before it rejects; `none` is "no limit". -/
  accept : Option Nat
  /-- Whether the sink takes or rejects at once; if not, SERIALIZE waits for it (R66, R307). -/
  snkReady : Bool
deriving DecidableEq, Repr

/-- The moves of the host side: the steps of the host transaction of R293, the port agents' progress
(R64 to R66) and the reset input (R290). -/
inductive HostMove where
  /-- The host writes `w` to register `r` (R30, R33). -/
  | write (r : HostReg) (w : Word)
  /-- The host reads register `r` (R30, R74). -/
  | read (r : HostReg)
  /-- The host writes to `r` the word its last read returned (the copying of R119's `SIZE`). -/
  | writeBack (r : HostReg)
  /-- The host waits for `STATUS.BUSY = 0` (R293 steps 1 and 5). -/
  | await
  /-- The host presents a KEY buffer (R64). -/
  | presentKey (key : List Byte)
  /-- The source delivers `bytes` and has then ended, or not (R65). -/
  | supply (bytes : List Byte) (ended : Bool)
  /-- The sink's `accept` and readiness are now these (R66). -/
  | sink (accept : Option Nat) (ready : Bool)
  /-- The platform asserts the hardware reset (R290). -/
  | reset
deriving DecidableEq, Repr

/-- The machine. `slots`, `regs` are the core's state (R20, R30); `cfg` is fixed for one machine (R10,
log 1); `ports` and `host` are what the host side holds (log 2); `lastRead` and `draws` are the
model's own (log 2, logs 3 and 4). -/
structure State where
  cfg : Config
  /-- Slot `a` is at position `a`; `none` is an empty (invalid) slot, `some f` one that holds `f`: the
  `valid` bit of R21 is which of the two (R24). -/
  slots : List (Option Filter)
  regs : HostRegs
  ports : Ports
  /-- What the host does next, in order. -/
  host : List HostMove
  /-- The word the host's last register read returned. -/
  lastRead : Word
  /-- How many free values have been drawn. -/
  draws : Nat
deriving DecidableEq, Repr

/-- No step of this hardware ends in a fault: it has no traps, and an error is one way for a command to
END, reported in `STATUS` (spec/60_exceptions.md R250, R253). The type has no constructor. -/
inductive Fault where
deriving DecidableEq, Repr

/-- What the model gives no meaning. None of these is the answer of a command. -/
inductive Refusal where
  /-- An instruction whose meaning is not written yet; raised by a refused arm of `exec`, and there is
  none left. Safe. -/
  | notModelled (mnemonic : String)
  /-- Raised by `hostMove`: the host writes `CMD` or an `ARG`, or changes the KEY buffer, while `BUSY = 1`,
  whose effect "is not defined" (R300; U1 says `refuse`). Safe. -/
  | interfaceWhileBusy
  /-- Raised by `hostMove`: the host presents a KEY buffer of more than `KEY_MAX` bytes, which R64 does
  not allow it. Safe. -/
  | keyTooLong
deriving DecidableEq, Repr

/-- The answer of a step or of a command. -/
abbrev Result := Host.Outcome State Fault Refusal

/-- R38: every host register is zero after reset. -/
def HostRegs.zero : HostRegs :=
  { cmd := 0, status := 0, arg0 := 0, arg1 := 0, arg2 := 0, arg3 := 0, res0 := 0, res1 := 0, res2 := 0 }

/-- The ports with nothing on them: no KEY buffer, an empty source that has ended, a sink that takes
everything (R38: "nothing in flight on any port"; the rest is log 7). -/
def Ports.quiet : Ports :=
  { keys := [], src := [], srcEnded := true, snk := [], accept := none, snkReady := true }

/-- The state after reset (R38, R290) of a core with `n` slots and capacities `c`. -/
def State.resetOf (c : Config) (n : Nat) : State :=
  { cfg := c, slots := List.replicate n none, regs := HostRegs.zero, ports := Ports.quiet, host := [],
    lastRead := 0, draws := 0 }

/-- The machine right after reset, with the default parameters of R10. -/
def State.reset : State := State.resetOf Config.default Config.defaultSlots

end Sys2Proof.Machine
end

