-- ==== Sys2Proof/Machine/Flags.lean ====
section
/-! DEFINITION. The `STATUS` word (spec/10_state.md R32) and the error codes (spec/60_exceptions.md R251,
R252). The block has no condition codes (R35). -/

namespace Sys2Proof.Machine

/-- The nine errors of R251. -/
inductive ErrKind where
  | illegal | slot | index | protocol | construct | ioHeader | ioBody | deser | shape
deriving DecidableEq, Repr

/-- R251: `ECODE`. -/
def ErrKind.code : ErrKind → Nat
  | .illegal => 1
  | .slot => 2
  | .index => 3
  | .protocol => 4
  | .construct => 5
  | .ioHeader => 6
  | .ioBody => 7
  | .deser => 8
  | .shape => 9

/-- R252: how many values of `EINFO` the error has, from 0 up. -/
def ErrKind.infos : ErrKind → Nat
  | .slot => 3
  | .construct => 3
  | .deser => 3
  | .illegal => 1
  | .index => 1
  | .protocol => 1
  | .ioHeader => 1
  | .ioBody => 1
  | .shape => 1

/-- R32: the word with these fields and every reserved bit 0. -/
def statusWord (busy err : Bool) (ecode einfo : Nat) : Word :=
  BitVec.ofNat 32 (busy.toNat + 2 * err.toNat + 16 * (ecode % 16) + 256 * (einfo % 4))

/-- R250: the status of a command that succeeded. -/
def statusOk : Word := statusWord false false 0 0

/-- R253: the status of a command that ended with error `e`, sub-cause `info`. -/
def statusError (e : ErrKind) (info : Nat) : Word := statusWord false true e.code info

/-- R32: bit 0, `BUSY`. -/
def statusBusy (w : Word) : Bool := w.getLsbD 0

/-- R32: bit 1, `ERR`. -/
def statusErr (w : Word) : Bool := w.getLsbD 1

/-- R32: bits 7:4, `ECODE`. -/
def statusECode (w : Word) : Nat := (w.extractLsb' 4 4).toNat

/-- R32: bits 9:8, `EINFO`. -/
def statusEInfo (w : Word) : Nat := (w.extractLsb' 8 2).toNat

/-- R33, R300: `w` with `BUSY` set; the error fields of the previous command stay. -/
def statusSetBusy (w : Word) : Word := w ||| 1#32

end Sys2Proof.Machine
end

