-- ==== Sys2Proof/Machine/Ops.lean ====
section
/-! DEFINITION. The operations every command is built from: slots, bits, the three ports, how a command ends
(spec/20_memory.md R61 to R66, spec/60_exceptions.md R250 to R254). -/

namespace Sys2Proof.Machine

/-! Bytes and words (spec/00_scope.md R14, R15, R17). -/

/-- R14: `rotl32(a, r)`. -/
def rotl32 (a : Word) (r : Nat) : Word := (a <<< r) ||| (a >>> (32 - r))

/-- R15: `LE32` of four bytes, the first the least significant. -/
def le32 (b0 b1 b2 b3 : Byte) : Word :=
  BitVec.ofNat 32 (b0.toNat + 256 * b1.toNat + 65536 * b2.toNat + 16777216 * b3.toNat)

/-- R15: `LE32` of a byte sequence, in index order. -/
def le32Seq (s : List Byte) : Word := le32 (s.getD 0 0) (s.getD 1 0) (s.getD 2 0) (s.getD 3 0)

/-- R15: `LEpart`, absent bytes taken as 0. -/
def lePart (s : List Byte) : Word :=
  BitVec.ofNat 32 ((s.getD 0 0).toNat + 256 * (s.getD 1 0).toNat + 65536 * (s.getD 2 0).toNat)

/-- R15: `LE32bytes`. -/
def le32Bytes (v : Word) : List Byte :=
  [v.extractLsb' 0 8, v.extractLsb' 8 8, v.extractLsb' 16 8, v.extractLsb' 24 8]

/-- R16, R17: `cdiv8(m)`, the body length, without leaving `u32`. -/
def cdiv8 (m : Word) : Nat := (m >>> 3).toNat + if m.extractLsb' 0 3 = 0#3 then 0 else 1

/-! The bit array (R61, R62). -/

/-- R61: `BitRead`. Defined for `i` in range; no command calls it out of range (R63). -/
def bitRead (bits : List Bool) (i : Nat) : Bool := bits.getD i false

/-- R62: `BitSet`. -/
def bitSet (bits : List Bool) (i : Nat) : List Bool := bits.set i true

/-! Slots (spec/10_state.md R20, R24; spec/20_memory.md R83). -/

/-- `NSLOTS` of R10. -/
def State.nslots (s : State) : Nat := s.slots.length

/-- What slot `a` holds: nothing, or a filter. -/
def State.slot (s : State) (a : Nat) : Option Filter := (s.slots[a]?).join

/-- Slot `a` now holds `o`; no other slot changes (R83). -/
def State.setSlot (s : State) (a : Nat) (o : Option Filter) : State :=
  { s with slots := s.slots.set a o }

/-! The ports. Each primitive answers what it took and the ports afterwards. -/

/-- R64: `KeyTake()` removes the buffer at the port; one presented behind it is then the pending one (R302). -/
def State.takeKey (s : State) : State := { s with ports := { s.ports with keys := s.ports.keys.tail } }

/-- R65: the bytes `SrcRead(n)` returns. -/
def State.srcBytes (s : State) (n : Nat) : List Byte := s.ports.src.take n

/-- R65: `SrcRead(n)` removes from the source the bytes it returns. -/
def State.srcDrop (s : State) (n : Nat) : State :=
  { s with ports := { s.ports with src := s.ports.src.drop n } }

/-- R65: whether `SrcRead(n)` must wait: fewer than `n` bytes are there and the source has not ended. -/
def State.srcWaits (s : State) (n : Nat) : Bool := decide (s.ports.src.length < n) && !s.ports.srcEnded

/-- R66: how many of `n` bytes the sink takes. -/
def Ports.takes (p : Ports) (n : Nat) : Nat :=
  match p.accept with
  | none => n
  | some a => min a n

/-- R66: `SnkWrite(bytes)`: the sink takes a prefix, and `accept` falls by its length. -/
def Ports.snkWrite (p : Ports) (bytes : List Byte) : Ports :=
  { p with
    snk := p.snk ++ bytes.take (p.takes bytes.length)
    accept := p.accept.map (fun a => a - p.takes bytes.length) }

/-- R66: `SnkWrite(bytes)`. -/
def State.snkWrite (s : State) (bytes : List Byte) : State :=
  { s with ports := s.ports.snkWrite bytes }

/-! How a command ends, or waits (R250, R253, R254, R31). There is no return operation: control goes
nowhere and the next command overwrites the indication (R267). -/

/-- The end of a command: `STATUS` and all three result registers are written, `BUSY` is clear (R31, R33). -/
def State.complete (s : State) (status res0 res1 res2 : Word) : State :=
  { s with regs := { s.regs with status := status, res0 := res0, res1 := res1, res2 := res2 } }

/-- R250: the command succeeds with these results. -/
def succeed (res0 res1 res2 : Word) (s : State) : Result := .next (s.complete statusOk res0 res1 res2)

/-- R253, R254: `raise E(info)`. The command ends with error `e`; `count` is what `RES0` receives, a byte
count for `E_IO_HEADER`, `E_IO_BODY` and `E_DESER` and 0 for every other error. -/
def raise (e : ErrKind) (info count : Nat) (s : State) : Result :=
  .next (s.complete (statusError e info) (BitVec.ofNat 32 count) 0 0)

/-- R64 to R66, R307: the command waits for a port with `BUSY = 1` and has changed nothing else; the next
turn of the core tries it again. -/
def State.waiting (s : State) : State :=
  { s with regs := { s.regs with status := statusSetBusy s.regs.status } }

/-- A command that cannot go on before a port does. -/
def waitPort (s : State) : Result := .next s.waiting

end Sys2Proof.Machine
end

