-- ==== Sys2Proof/Machine/Hash.lean ====
section
/-! DEFINITION. The 32-bit streaming digest and the operations of an accumulator (spec/41_hash.md sections 1
to 3). -/

namespace Sys2Proof.Machine

/-- R152, R153: the transform both use on a block and on a tail: `*c1`, rotate by `r1`, `*c2` (R151). -/
def scramble (kb : Word) : Word := rotl32 (kb * 0xcc9e2d51#32) 15 * 0x1b873593#32

/-- R152: the core mixing step. -/
def mix (h kb : Word) : Word := rotl32 (h ^^^ scramble kb) 13 * 5#32 + 0xe6546b64#32

/-- R153: the tail transform. -/
def tailMix (h : Word) (t : List Byte) : Word := if t = [] then h else h ^^^ scramble (lePart t)

/-- R153: the avalanche. -/
def fmix (h : Word) : Word :=
  let h := h ^^^ (h >>> 16)
  let h := h * 0x85ebca6b#32
  let h := h ^^^ (h >>> 13)
  let h := h * 0xc2b2ae35#32
  h ^^^ (h >>> 16)

/-- Folds `f` over the consecutive complete blocks of a sequence, and gives the 0 to 3 bytes after them. -/
def foldBlocks (f : Word → Word → Word) (h : Word) : List Byte → Word × List Byte
  | b0 :: b1 :: b2 :: b3 :: rest => foldBlocks f (f h (le32 b0 b1 b2 b3)) rest
  | rest => (h, rest)

/-- The complete blocks of `B` mixed into `h` in order (R152: `MixAll`), and the 0 to 3 bytes after them. -/
def mixBlocks (h : Word) (B : List Byte) : Word × List Byte := foldBlocks mix h B

/-- R152: `MixAll(h0, B)`. -/
def mixAll (h : Word) (B : List Byte) : Word := (mixBlocks h B).1

/-- R157: the digest of a byte sequence, as a function. -/
def digest32 (seed : Word) (T : List Byte) : Word :=
  fmix (tailMix (mixAll seed (T.take (4 * (T.length / 4)))) (T.drop (4 * (T.length / 4)))
    ^^^ BitVec.ofNat 32 T.length)

/-- R156: the reset state of an accumulator with this seed. -/
def AccRun.start (seed : Word) : AccRun := { h := seed, length := 0, tail := [] }

/-- R154: `Feed`, whose second part runs on `bytes` when no tail is buffered. -/
def AccRun.feedBlocks (r : AccRun) (bytes : List Byte) : AccRun :=
  { r with h := (mixBlocks r.h bytes).1, tail := (mixBlocks r.h bytes).2 }

/-- R154: `Feed`. The tail is topped up first; if it stays short, every new byte went into it. -/
def AccRun.feed (r : AccRun) (bytes : List Byte) : AccRun :=
  let r := { r with length := r.length + BitVec.ofNat 64 bytes.length }
  if r.tail = [] then r.feedBlocks bytes
  else
    let take := min (4 - r.tail.length) bytes.length
    let tail := r.tail ++ bytes.take take
    if tail.length = 4 then
      { r with h := mix r.h (le32Seq tail), tail := [] }.feedBlocks (bytes.drop take)
    else { r with tail := tail }

/-- R155, R159: `Finalize`, with the low 32 bits of `length`. -/
def AccRun.finalize (r : AccRun) : Word := fmix (tailMix r.h r.tail ^^^ r.length.setWidth 32)

/-- R156: `Reset(a)`. -/
def Acc.reset (a : Acc) : Acc := { a with run := some (AccRun.start a.seed) }

/-- R27: the accumulator is closed; its `(h, length, tail)` have no value any more. -/
def Acc.close (a : Acc) : Acc := { a with run := none }

/-- R180: the accumulator of index `j` as construction makes it. -/
def Acc.fresh (j : Nat) : Acc := Acc.reset { seed := BitVec.ofNat 32 j, run := none }

/-- R163: reset, feed the whole key, finalize. -/
def Acc.digest (a : Acc) (key : List Byte) : Word := ((AccRun.start a.seed).feed key).finalize

end Sys2Proof.Machine
end

