-- ==== Sys2Proof/Syntax.lean ====
section
/-! DEFINITION. The twelve commands of spec/30_encoding.md R92, one constructor per row of the opcode table. -/

namespace Sys2Proof

/-- A command with its live slot fields (R90, R91): `sa` is the slot the command acts on, `sb` the
second slot of UNION. Every other operand travels in the `ARG` registers or on a port (R96). -/
inductive Instr where
  | bitcount
  | hashcount
  | hreset (sa : Nat)
  | hfeed (sa : Nat)
  | hfinal (sa : Nat)
  | new (sa : Nat)
  | drop (sa : Nat)
  | add (sa : Nat)
  | contains (sa : Nat)
  | serialize (sa : Nat)
  | deserialize (sa : Nat)
  | union (sa sb : Nat)
deriving DecidableEq, Repr

end Sys2Proof
end

