-- ==== Sys2Proof/Machine/Operands.lean ====
section
/-! DEFINITION. Where a command takes its operands (spec/30_encoding.md R96 to R99) and the checks on them
(spec/60_exceptions.md R256 to R258, in the order of R263). -/

namespace Sys2Proof.Machine

/-- R97: `n`, an unsigned integer. -/
def State.opN (s : State) : Nat := s.regs.arg0.toNat

/-- R98: the pattern `P = ARG3 × 2^32 + ARG2`. -/
def State.opP (s : State) : DWord := BitVec.ofNat 64 (s.regs.arg3.toNat * 2 ^ 32 + s.regs.arg2.toNat)

/-- R98: `e = P[62:52]`. -/
def expField (P : DWord) : Nat := (P.extractLsb' 52 11).toNat

/-- R98: `f = P[51:0]`. -/
def fracField (P : DWord) : Nat := (P.extractLsb' 0 52).toNat

/-- R98: `pval(P)`, the exact rational value of a binary64 pattern; none for an infinity or a NaN. -/
def pval (P : DWord) : Option ℚ :=
  let sign : ℚ := if P.getLsbD 63 then -1 else 1
  let e := expField P
  let f : ℚ := fracField P
  if e = 2047 then none
  else if e = 0 then some (sign * (2 : ℚ) ^ (-1022 : ℤ) * (f / 2 ^ 52))
  else some (sign * (2 : ℚ) ^ ((e : ℤ) - 1023) * (1 + f / 2 ^ 52))

/-- R98: `p` is valid exactly for these patterns. -/
def validP (P : DWord) : Bool := decide (1 ≤ P.toNat) && decide (P.toNat ≤ 0x3FEFFFFFFFFFFFFF)

/-- R99: the accumulator index `j`. -/
def State.opJ (s : State) : Nat := s.regs.arg0.toNat

/-- R256: a command that needs a filter in slot `sa`. -/
def withFilter (sa : Nat) (s : State) (go : Filter → Result) : Result :=
  if s.nslots ≤ sa then raise .slot 0 0 s
  else match s.slot sa with
    | none => raise .slot 1 0 s
    | some f => go f

/-- R256: a command that needs slot `sa` empty. -/
def withEmpty (sa : Nat) (s : State) (go : Result) : Result :=
  if s.nslots ≤ sa then raise .slot 0 0 s
  else match s.slot sa with
    | none => go
    | some _ => raise .slot 2 0 s

/-- R257: a command on accumulator `ARG0` of slot `sa`. -/
def withAcc (sa : Nat) (s : State) (go : Filter → Acc → Result) : Result :=
  withFilter sa s fun f =>
    if f.k.toNat ≤ s.opJ then raise .index 0 0 s
    else match f.acc[s.opJ]? with
      | none => raise .index 0 0 s
      | some a => go f a

/-- R258: a command on an accumulator with a computation in progress. -/
def withOpenAcc (sa : Nat) (s : State) (go : Filter → Acc → AccRun → Result) : Result :=
  withAcc sa s fun f a =>
    match a.run with
    | none => raise .protocol 0 0 s
    | some r => go f a r

/-- R64, R302: a command that takes the KEY buffer: it waits for one, and takes the oldest in every case (R264). -/
def withKey (s : State) (go : List Byte → State → Result) : Result :=
  match s.ports.keys with
  | [] => waitPort s
  | key :: _ => go key s.takeKey

/-- R96: the commands that take the KEY buffer. -/
def takesKey : Instr → Bool
  | .bitcount => false
  | .hashcount => false
  | .hreset _ => false
  | .hfeed _ => true
  | .hfinal _ => false
  | .new _ => false
  | .drop _ => false
  | .add _ => true
  | .contains _ => true
  | .serialize _ => false
  | .deserialize _ => false
  | .union _ _ => false

end Sys2Proof.Machine
end

