-- ==== Sys2Proof/Machine/Sizing.lean ====
section
/-! DEFINITION. The sizing functions and the commands BITCOUNT and HASHCOUNT (spec/40_sizing.md).

R136 makes the exact real-number ceilings normative. `hashCount` is computed on natural numbers and is the exact
ceiling for every `m < 2^32`. `bitCount` is the exact ceiling for every operand: it is computed between two bounds of
the real quotient, 2^-100 or so apart, and where their ceilings do not agree it is the ceiling itself, stated over the
reals (log 5). -/

namespace Sys2Proof.Machine

/-- `ceil(a / b)` for `b > 0`. -/
def ceilDiv (a b : Nat) : Nat := (a + (b - 1)) / b

/-- Bounds of a real number `x` are the integers `lo ≤ x × 2^192 ≤ hi`. -/
def fixedOne : Nat := 2 ^ 192

/-- How many terms of the series for `2 artanh z` are summed. -/
def seriesTerms : Nat := 64

/-- From below: the terms `i, i+1, ..` of `2 artanh(a/b) = sum of 2 z^(2i+1) / (2i+1)`, where `t` is a lower
bound of `z^(2i+1)`. -/
def artanhLo (a b : Nat) : Nat → Nat → Nat → Nat
  | 0, _, _ => 0
  | fuel + 1, i, t => 2 * t / (2 * i + 1) + artanhLo a b fuel (i + 1) (t * (a * a) / (b * b))

/-- From above, with `t` an upper bound of `z^(2i+1)`; for `z ≤ 1/3` the terms left out at the end are together at
most `9/4 × z^(2i+1)`. -/
def artanhHi (a b : Nat) : Nat → Nat → Nat → Nat
  | 0, _, t => 9 * t / 4 + 1
  | fuel + 1, i, t => 2 * t / (2 * i + 1) + 1 + artanhHi a b fuel (i + 1) (t * (a * a) / (b * b) + 1)

/-- A lower bound of `ln(u / v)` for `v ≤ u ≤ 2v`: `ln(u/v) = 2 artanh((u-v)/(u+v))`. -/
def lnRatioLo (u v : Nat) : Nat := artanhLo (u - v) (u + v) seriesTerms 0 (fixedOne * (u - v) / (u + v))

/-- An upper bound of `ln(u / v)` for `v ≤ u ≤ 2v`. -/
def lnRatioHi (u v : Nat) : Nat := artanhHi (u - v) (u + v) seriesTerms 0 (fixedOne * (u - v) / (u + v) + 1)

/-- A lower bound of `ln 2`. -/
def ln2Lo : Nat := lnRatioLo 2 1

/-- An upper bound of `ln 2`. -/
def ln2Hi : Nat := lnRatioHi 2 1

/-- R98: a valid `p` is `pMant / 2^pShift`: the significand as an integer. -/
def pMant (P : DWord) : Nat := if expField P = 0 then fracField P else 2 ^ 52 + fracField P

/-- R98: and the power of two below it. -/
def pShift (P : DWord) : Nat := 1075 - max 1 (expField P)

/-- `p = x / 2^pHalvings` with `1 ≤ x < 2`. -/
def pHalvings (P : DWord) : Nat := pShift P - Nat.log2 (pMant P)

/-- A lower bound of `−ln p = pHalvings × ln 2 − ln x`. -/
def negLnLo (P : DWord) : Nat :=
  pHalvings P * ln2Lo - lnRatioHi (pMant P) (2 ^ Nat.log2 (pMant P))

/-- An upper bound of `−ln p`. -/
def negLnHi (P : DWord) : Nat :=
  pHalvings P * ln2Hi - lnRatioLo (pMant P) (2 ^ Nat.log2 (pMant P))

/-- The ceiling of a lower bound of `BitCountReal(n, p)` (R131); the exact one is at least 1. -/
def bitCountLo (n : Nat) (P : DWord) : Nat :=
  max 1 (ceilDiv (n * negLnLo P * fixedOne) (ln2Hi * ln2Hi))

/-- The ceiling of an upper bound of `BitCountReal(n, p)`. -/
def bitCountHi (n : Nat) (P : DWord) : Nat :=
  max 1 (ceilDiv (n * negLnHi P * fixedOne) (ln2Lo * ln2Lo))

/-- R131: the numbers that equal `ceil(−n × ln(p) / (ln 2)^2)` at `p = pval(P)`: exactly one. (For the patterns of an
infinity or a NaN, which are no valid `p`, 1 stands in for the value they lack.) -/
abbrev ExactBitCount (n : Nat) (P : DWord) : Type :=
  { m : Nat // m = ⌈-(n : ℝ) * Real.log (((pval P).getD 1 : ℚ) : ℝ) / Real.log 2 ^ 2⌉₊ }

/-- R131, R136: that number, given by what it equals and not by an evaluation: the equation below says nothing of it,
its type says which number it is. It is read only where the bounds do not decide (log 5). -/
def exactBitCount (n : Nat) (P : DWord) : ExactBitCount n P := exactBitCount n P
partial_fixpoint

/-- R131: `BitCount(n, p)` at `p = pval(P)`, for `n ≥ 1` and a valid `P`. -/
def bitCount (n : Nat) (P : DWord) : Nat :=
  if bitCountHi n P ≤ bitCountLo n P then bitCountLo n P else (exactBitCount n P).val

/-- R133: `HashCount(m, n) = ceil(ln 2 × m / n)`. `497083768/717140287` lies above `ln 2` and
`2870526793/4141294769` below it, and no fraction with a denominator below `4858435056` lies strictly between
them, so for `m < 2^32` no `j × n / m` does, and the ceiling may be taken with the upper one. -/
def hashCount (m n : Nat) : Nat := ceilDiv (497083768 * m) (717140287 * n)

/-- R132: BITCOUNT. -/
def execBitcount (s : State) : Result :=
  if s.opN = 0 then raise .construct 0 0 s
  else if validP s.opP = false then raise .construct 0 0 s
  else if 2 ^ 32 - 1 < bitCount s.opN s.opP then raise .construct 1 0 s
  else succeed 0 (BitVec.ofNat 32 (bitCount s.opN s.opP)) 0 s

/-- R135: HASHCOUNT of `m = ARG1` and `n = ARG0`. -/
def execHashcount (s : State) : Result :=
  if s.opN = 0 then raise .construct 0 0 s
  else if hashCount s.regs.arg1.toNat s.opN = 0 then raise .construct 2 0 s
  else succeed 0 0 (BitVec.ofNat 32 (hashCount s.regs.arg1.toNat s.opN)) s

end Sys2Proof.Machine
end

