-- ==== Sys2Proof/Machine/Membership.lean ====
section
/-! DEFINITION. NEW, DROP, ADD and CONTAINS (spec/42_filter.md). -/

namespace Sys2Proof.Machine

/-- R180: the filter `Construct(s, mm, kk)` puts in a slot, its bit array given. -/
def Filter.construct (mm kk : Nat) (bits : List Bool) : Filter :=
  { m := BitVec.ofNat 32 mm
    k := BitVec.ofNat 32 kk
    bits := bits
    acc := (List.range kk).map Acc.fresh }

/-- R181: NEW. -/
def execNew (sa : Nat) (s : State) : Result :=
  withEmpty sa s <|
    if s.opN = 0 then raise .construct 0 0 s
    else if validP s.opP = false then raise .construct 0 0 s
    else
      let mm := bitCount s.opN s.opP
      if 2 ^ 32 - 1 < mm ∨ s.cfg.mMax < mm then raise .construct 1 0 s
      else
        let kk := hashCount mm s.opN
        if s.cfg.kMax < kk then raise .construct 2 0 s
        else
          succeed 0 (BitVec.ofNat 32 mm) (BitVec.ofNat 32 kk)
            (s.setSlot sa (some (Filter.construct mm kk (List.replicate mm false))))

/-- R183: DROP. -/
def execDrop (sa : Nat) (s : State) : Result :=
  if s.nslots ≤ sa then raise .slot 0 0 s else succeed 0 0 0 (s.setSlot sa none)

/-- R184: `digest mod m` of the digest accumulator `a` gives for `key`. -/
def Filter.index (f : Filter) (a : Acc) (key : List Byte) : Nat := (a.digest key).toNat % f.m.toNat

/-- R185: every index of `key` set, and every accumulator closed. -/
def Filter.addKey (f : Filter) (key : List Byte) : Filter :=
  { f with
    bits := f.acc.foldl (fun bits a => bitSet bits (f.index a key)) f.bits
    acc := f.acc.map Acc.close }

/-- R187: whether the bit of every index of `key` is set. -/
def Filter.hasKey (f : Filter) (key : List Byte) : Bool :=
  f.acc.all fun a => bitRead f.bits (f.index a key)

/-- R187: every accumulator closed, whether or not the loop reached it. -/
def Filter.closeAll (f : Filter) : Filter := { f with acc := f.acc.map Acc.close }

/-- R185: ADD. -/
def execAdd (sa : Nat) (s : State) : Result :=
  withKey s fun key s => withFilter sa s fun f => succeed 0 0 0 (s.setSlot sa (some (f.addKey key)))

/-- R187: CONTAINS. -/
def execContains (sa : Nat) (s : State) : Result :=
  withKey s fun key s =>
    withFilter sa s fun f =>
      succeed (if f.hasKey key then 1 else 0) 0 0 (s.setSlot sa (some f.closeAll))

end Sys2Proof.Machine
end

