-- ==== Sys2Proof/Machine/Codec.lean ====
section
/-! DEFINITION. Wire format WF1 (spec/30_encoding.md R110 to R116), SERIALIZE and DESERIALIZE
(spec/43_codec.md). -/

namespace Sys2Proof.Machine

/-- R111: the eight header bytes. -/
def headerBytes (m k : Word) : List Byte := le32Bytes m ++ le32Bytes k

/-- R112, R113: body byte `b`: bit `8b + j` has weight `2^(7-j)`, and an index not below `m` contributes 0. -/
def bodyByte (m : Nat) (bits : List Bool) (b : Nat) : Byte :=
  BitVec.ofNat 8 (((List.range 8).map fun j =>
    if 8 * b + j < m then (bitRead bits (8 * b + j)).toNat * 2 ^ (7 - j) else 0).sum)

/-- R112: the `cdiv8(m)` body bytes. -/
def bodyBytes (m : Word) (bits : List Bool) : List Byte :=
  (List.range (cdiv8 m)).map (bodyByte m.toNat bits)

/-- R115: `Pack(m, k, bits)`. -/
def pack (m k : Word) (bits : List Bool) : List Byte := headerBytes m k ++ bodyBytes m bits

/-- R115: bit `i` of a body. The padding bits of the last byte are not read (R222). -/
def bodyBit (body : List Byte) (i : Nat) : Bool := (body.getD (i / 8) 0).getLsbD (7 - i % 8)

/-- R115: `Unpack` on the bits, the same formula for every index (R223). -/
def unpackBits (m : Nat) (body : List Byte) : List Bool := (List.range m).map (bodyBit body)

/-- R215: SERIALIZE. The header is written, then the body. -/
def execSerialize (sa : Nat) (s : State) : Result :=
  withFilter sa s fun f =>
    if s.ports.snkReady = false then waitPort s
    else
      let hdr := headerBytes f.m f.k
      let body := bodyBytes f.m f.bits
      let n := s.ports.takes hdr.length
      let s := s.snkWrite hdr
      if n < hdr.length then raise .ioHeader 0 n s
      else
        let nb := s.ports.takes body.length
        let s := s.snkWrite body
        if nb < body.length then raise .ioBody 0 (n + nb) s
        else succeed (BitVec.ofNat 32 (n + nb)) f.m f.k s

/-- R220, R221: whether a complete header names a filter that can exist here. -/
def headerOk (c : Config) (mm kk : Nat) : Bool :=
  decide (mm ≠ 0) && decide (kk ≠ 0) && decide (mm ≤ c.mMax) && decide (kk ≤ c.kMax)

/-- R220: `m` of the header at the front of the source. -/
def headerM (hdr : List Byte) : Word := le32Seq hdr

/-- R220: `k` of the header at the front of the source. -/
def headerK (hdr : List Byte) : Word := le32Seq (hdr.drop 4)

/-- R220: DESERIALIZE. -/
def execDeserialize (sa : Nat) (s : State) : Result :=
  withEmpty sa s <|
    if s.srcWaits 8 then waitPort s
    else
      let hdr := s.srcBytes 8
      let s1 := s.srcDrop 8
      if hdr.length < 8 then raise .deser 0 hdr.length s1
      else
        let mm := headerM hdr
        let kk := headerK hdr
        if headerOk s.cfg mm.toNat kk.toNat = false then raise .deser 2 8 s1
        else if s1.srcWaits (cdiv8 mm) then waitPort s
        else
          let body := s1.srcBytes (cdiv8 mm)
          let s2 := s1.srcDrop (cdiv8 mm)
          if body.length < cdiv8 mm then raise .deser 1 (8 + body.length) s2
          else
            succeed (BitVec.ofNat 32 (8 + cdiv8 mm)) mm kk
              (s2.setSlot sa (some (Filter.construct mm.toNat kk.toNat (unpackBits mm.toNat body))))

end Sys2Proof.Machine
end

