-- ==== Sys2Proof/Machine/Hasher.lean ====
section
/-! DEFINITION. HRESET, HFEED and HFINAL (spec/41_hash.md section 4). -/

namespace Sys2Proof.Machine

/-- Accumulator `j` of the filter `f` in slot `sa` becomes `a`; nothing else of the slot changes (R163). -/
def State.setAcc (s : State) (sa : Nat) (f : Filter) (j : Nat) (a : Acc) : State :=
  s.setSlot sa (some { f with acc := f.acc.set j a })

/-- R160: HRESET. -/
def execHreset (sa : Nat) (s : State) : Result :=
  withAcc sa s fun f a => succeed 0 0 0 (s.setAcc sa f s.opJ a.reset)

/-- R161: HFEED. -/
def execHfeed (sa : Nat) (s : State) : Result :=
  withKey s fun bytes s =>
    withOpenAcc sa s fun f a r => succeed 0 0 0 (s.setAcc sa f s.opJ { a with run := some (r.feed bytes) })

/-- R162: HFINAL. -/
def execHfinal (sa : Nat) (s : State) : Result :=
  withOpenAcc sa s fun f a r => succeed r.finalize 0 0 (s.setAcc sa f s.opJ a.close)

end Sys2Proof.Machine
end

