-- ==== Sys2Proof/Machine/Union.lean ====
section
/-! DEFINITION. UNION (spec/44_union.md). -/

namespace Sys2Proof.Machine

/-- R241: lane `i` of the merged array is the OR of lane `i` of the two. -/
def orBits (a b : List Bool) : List Bool := List.zipWith (fun x y => x || y) a b

/-- R241: UNION. The range of both slots is checked before the validity of either (R256). -/
def execUnion (sa sb : Nat) (s : State) : Result :=
  if s.nslots ≤ sa ∨ s.nslots ≤ sb then raise .slot 0 0 s
  else match s.slot sa, s.slot sb with
    | some f, some g =>
      if f.m ≠ g.m ∨ f.k ≠ g.k then raise .shape 0 0 s
      else succeed 0 0 0 (s.setSlot sa (some { f with bits := orBits f.bits g.bits }))
    | _, _ => raise .slot 1 0 s

end Sys2Proof.Machine
end

