-- ==== Sys2Proof/Machine/Dispatch.lean ====
section
/-! DEFINITION. One arm per command (spec/30_encoding.md R92). -/

namespace Sys2Proof.Machine

def exec (i : Instr) (s : State) : Host.Outcome State Fault Refusal :=
  match i with
  | .bitcount => Sys2Proof.Machine.execBitcount s
  | .hashcount => Sys2Proof.Machine.execHashcount s
  | .hreset sa => Sys2Proof.Machine.execHreset sa s
  | .hfeed sa => Sys2Proof.Machine.execHfeed sa s
  | .hfinal sa => Sys2Proof.Machine.execHfinal sa s
  | .new sa => Sys2Proof.Machine.execNew sa s
  | .drop sa => Sys2Proof.Machine.execDrop sa s
  | .add sa => Sys2Proof.Machine.execAdd sa s
  | .contains sa => Sys2Proof.Machine.execContains sa s
  | .serialize sa => Sys2Proof.Machine.execSerialize sa s
  | .deserialize sa => Sys2Proof.Machine.execDeserialize sa s
  | .union sa sb => Sys2Proof.Machine.execUnion sa sb s

end Sys2Proof.Machine
end

