-- ==== Sys2Proof/WellFormed.lean ====
section
/-! DEFINITION. Which instruction terms the encoding can carry (spec/30_encoding.md R90, R94). -/

namespace Sys2Proof

/-- A slot number fits the four bits of `SA` or `SB`. One not below `NSLOTS` is well formed all the
same: that is the operand error `E_SLOT` (R94). -/
def slotFieldOk (a : Nat) : Bool := a < 16

/-- An instruction the command word format CW32 can carry. -/
def Instr.wf : Instr → Bool
  | .bitcount => true
  | .hashcount => true
  | .hreset sa => slotFieldOk sa
  | .hfeed sa => slotFieldOk sa
  | .hfinal sa => slotFieldOk sa
  | .new sa => slotFieldOk sa
  | .drop sa => slotFieldOk sa
  | .add sa => slotFieldOk sa
  | .contains sa => slotFieldOk sa
  | .serialize sa => slotFieldOk sa
  | .deserialize sa => slotFieldOk sa
  | .union sa sb => slotFieldOk sa && slotFieldOk sb

end Sys2Proof
end

