-- ==== Sys2Proof/Decode.lean ====
section
/-! DEFINITION. The command word format CW32 (spec/30_encoding.md R90 to R95): decoder, then encoder. -/

namespace Sys2Proof

/-- The three formats of R91. -/
inductive Format where
  | f0 | f1 | f2
deriving DecidableEq, Repr

/-- R91: the mask of the bits a format fixes. -/
def Format.mask : Format → Word
  | .f0 => 0xFFFFFFFF#32
  | .f1 => 0xFFFFF0FF#32
  | .f2 => 0xFFFF00FF#32

/-- The names of the two ways a word is illegal (R93). -/
inductive Illegal where
  /-- `OPC` is not one of `0x01 .. 0x0C`. -/
  | opcode
  /-- A bit that the command's format requires to be zero is 1. -/
  | mustBeZero
deriving DecidableEq, Repr

/-- R90: `OPC`, bits 7:0. -/
def fieldOPC (w : Word) : Nat := (w.extractLsb' 0 8).toNat

/-- R90: `SA`, bits 11:8. -/
def fieldSA (w : Word) : Nat := (w.extractLsb' 8 4).toNat

/-- R90: `SB`, bits 15:12. -/
def fieldSB (w : Word) : Nat := (w.extractLsb' 12 4).toNat

/-- R91: `w` is the command `i` of opcode `opc` when its fixed bits are those of the row. -/
def matchRow (fmt : Format) (opc : Word) (w : Word) (i : Instr) : Except Illegal Instr :=
  if w &&& fmt.mask = opc then .ok i else .error .mustBeZero

/-- R93: decoding is total; `OPC` selects the row of R92, then the must-be-zero bits are checked. -/
def decode (w : Word) : Except Illegal Instr :=
  match fieldOPC w with
  | 0x01 => matchRow .f0 0x01#32 w .bitcount
  | 0x02 => matchRow .f0 0x02#32 w .hashcount
  | 0x03 => matchRow .f1 0x03#32 w (.hreset (fieldSA w))
  | 0x04 => matchRow .f1 0x04#32 w (.hfeed (fieldSA w))
  | 0x05 => matchRow .f1 0x05#32 w (.hfinal (fieldSA w))
  | 0x06 => matchRow .f1 0x06#32 w (.new (fieldSA w))
  | 0x07 => matchRow .f1 0x07#32 w (.drop (fieldSA w))
  | 0x08 => matchRow .f1 0x08#32 w (.add (fieldSA w))
  | 0x09 => matchRow .f1 0x09#32 w (.contains (fieldSA w))
  | 0x0A => matchRow .f1 0x0A#32 w (.serialize (fieldSA w))
  | 0x0B => matchRow .f1 0x0B#32 w (.deserialize (fieldSA w))
  | 0x0C => matchRow .f2 0x0C#32 w (.union (fieldSA w) (fieldSB w))
  | _ => .error .opcode

/-- The command whose bits are `w`, numbered as spec/opcode_table.json numbers them. A command is one
32-bit register value (R90, R69), so there is no byte order to apply. -/
def decodeTableWord (nbits w : Nat) : Option Instr :=
  (decode (BitVec.ofNat 32 (w % 2 ^ nbits))).toOption

/-- R90: the word with opcode `opc`, slot fields `sa` and `sb`, and bits 31:16 zero. -/
def commandWord (opc sa sb : Nat) : Word := BitVec.ofNat 32 (opc + 256 * sa + 4096 * sb)

/-- R92: the opcode of a command. -/
def Instr.opcode : Instr → Nat
  | .bitcount => 0x01
  | .hashcount => 0x02
  | .hreset _ => 0x03
  | .hfeed _ => 0x04
  | .hfinal _ => 0x05
  | .new _ => 0x06
  | .drop _ => 0x07
  | .add _ => 0x08
  | .contains _ => 0x09
  | .serialize _ => 0x0A
  | .deserialize _ => 0x0B
  | .union _ _ => 0x0C

/-- R92: the format of a command. -/
def Instr.format : Instr → Format
  | .bitcount => .f0
  | .hashcount => .f0
  | .hreset _ => .f1
  | .hfeed _ => .f1
  | .hfinal _ => .f1
  | .new _ => .f1
  | .drop _ => .f1
  | .add _ => .f1
  | .contains _ => .f1
  | .serialize _ => .f1
  | .deserialize _ => .f1
  | .union _ _ => .f2

/-- R90 to R92: the command word of an instruction; a field its format does not use is zero. -/
def encode (i : Instr) : Word :=
  match i with
  | .bitcount => commandWord i.opcode 0 0
  | .hashcount => commandWord i.opcode 0 0
  | .hreset sa => commandWord i.opcode sa 0
  | .hfeed sa => commandWord i.opcode sa 0
  | .hfinal sa => commandWord i.opcode sa 0
  | .new sa => commandWord i.opcode sa 0
  | .drop sa => commandWord i.opcode sa 0
  | .add sa => commandWord i.opcode sa 0
  | .contains sa => commandWord i.opcode sa 0
  | .serialize sa => commandWord i.opcode sa 0
  | .deserialize sa => commandWord i.opcode sa 0
  | .union sa sb => commandWord i.opcode sa sb

end Sys2Proof
end

