-- ==== Sys2Proof/Machine/HostPort.lean ====
section
/-! DEFINITION. The host's side: its accesses to the registers and ports, and the reset input
(spec/10_state.md R30 to R33, spec/20_memory.md R64 to R66, R74, spec/70_reset_and_hazards.md R290 to R302). -/

namespace Sys2Proof.Machine

/-- R30: the number of a register. -/
def HostReg.number : HostReg → Nat
  | .cmd => 0
  | .status => 1
  | .arg0 => 2
  | .arg1 => 3
  | .arg2 => 4
  | .arg3 => 5
  | .res0 => 6
  | .res1 => 7
  | .res2 => 8

/-- R30: the registers the host can write; a write to another is ignored. -/
def HostReg.writable : HostReg → Bool
  | .cmd => true
  | .status => false
  | .arg0 => true
  | .arg1 => true
  | .arg2 => true
  | .arg3 => true
  | .res0 => false
  | .res1 => false
  | .res2 => false

/-- R300: the registers whose reads return unspecified values while `BUSY = 1`. -/
def HostReg.isResult : HostReg → Bool
  | .cmd => false
  | .status => false
  | .arg0 => false
  | .arg1 => false
  | .arg2 => false
  | .arg3 => false
  | .res0 => true
  | .res1 => true
  | .res2 => true

/-- R30: what a register holds. -/
def HostRegs.get (g : HostRegs) : HostReg → Word
  | .cmd => g.cmd
  | .status => g.status
  | .arg0 => g.arg0
  | .arg1 => g.arg1
  | .arg2 => g.arg2
  | .arg3 => g.arg3
  | .res0 => g.res0
  | .res1 => g.res1
  | .res2 => g.res2

/-- R30, R31, R33: what a host write does to the registers. A write to `CMD` issues a command: the word is
latched and `BUSY` set. A write to a read-only register is ignored. -/
def HostRegs.hostSet (g : HostRegs) (r : HostReg) (w : Word) : HostRegs :=
  match r with
  | .cmd => { g with cmd := w, status := statusSetBusy g.status }
  | .arg0 => { g with arg0 := w }
  | .arg1 => { g with arg1 := w }
  | .arg2 => { g with arg2 := w }
  | .arg3 => { g with arg3 := w }
  | .status => g
  | .res0 => g
  | .res1 => g
  | .res2 => g

/-- R32: whether a command is in flight. -/
def State.busy (s : State) : Bool := statusBusy s.regs.status

/-- A host write; R300 forbids one to `CMD` or an `ARG` while `BUSY = 1`. -/
def hostWrite (r : HostReg) (w : Word) (s : State) : Result :=
  if s.busy && r.writable then .refused .interfaceWhileBusy
  else .next { s with regs := s.regs.hostSet r w }

/-- A host read: no side effect (R74), but `RES` read while `BUSY = 1` is a free value (R300, U5). -/
def hostRead (r : HostReg) (s : State) : Result :=
  if s.busy && r.isResult then .next { s with lastRead := Config.freeWord s.draws, draws := s.draws + 1 }
  else .next { s with lastRead := s.regs.get r }

/-- R64, R302: the command in flight needs a KEY buffer and none has been presented. -/
def State.wantsKey (s : State) : Bool :=
  match decode s.regs.cmd with
  | .ok i => takesKey i && s.ports.keys.isEmpty
  | .error _ => false

/-- R64, R300, R302, U18: the host presents a KEY buffer. One that is still pending stays so and is taken first. While
`BUSY = 1` only the command in flight can want one. -/
def hostPresent (key : List Byte) (s : State) : Result :=
  if s.busy && !s.wantsKey then .refused .interfaceWhileBusy
  else if s.cfg.keyMax < key.length then .refused .keyTooLong
  else .next { s with ports := { s.ports with keys := s.ports.keys ++ [key] } }

/-- R65: the source delivers more bytes, and has then ended or not. -/
def hostSupply (bytes : List Byte) (ended : Bool) (s : State) : Result :=
  .next { s with ports := { s.ports with src := s.ports.src ++ bytes, srcEnded := ended } }

/-- R66: the sink's `accept` and readiness. -/
def hostSink (accept : Option Nat) (ready : Bool) (s : State) : Result :=
  .next { s with ports := { s.ports with accept := accept, snkReady := ready } }

/-- R38, R290: every slot empty, every host register zero; what the host side holds is not the core's. -/
def State.hardReset (s : State) : State :=
  { s with slots := List.replicate s.nslots none, regs := HostRegs.zero }

/-- R291: how many bytes a DESERIALIZE of this source would consume. -/
def Ports.deserLength (c : Config) (p : Ports) : Nat :=
  if p.src.length < 8 then p.src.length
  else if headerOk c (headerM (p.src.take 8)).toNat (headerK (p.src.take 8)).toNat = false then 8
  else min p.src.length (8 + cdiv8 (headerM (p.src.take 8)))

/-- R291: what the ports hold when the command `i` is abandoned after a free amount `n` of its traffic: the
sink has a prefix of the stream being written, the source has lost a prefix of the stream being read, a KEY
buffer in transfer is lost. -/
def State.abandonPorts (i : Instr) (n : Nat) (s : State) : Ports :=
  match i with
  | .serialize sa =>
    match s.slot sa with
    | some f => s.ports.snkWrite ((pack f.m f.k f.bits).take n)
    | none => s.ports
  | .deserialize sa =>
    if s.nslots ≤ sa ∨ (s.slot sa).isSome then s.ports
    else { s.ports with src := s.ports.src.drop (min n (s.ports.deserLength s.cfg)) }
  | .hfeed _ => { s.ports with keys := s.ports.keys.tail }
  | .add _ => { s.ports with keys := s.ports.keys.tail }
  | .contains _ => { s.ports with keys := s.ports.keys.tail }
  | .bitcount => s.ports
  | .hashcount => s.ports
  | .hreset _ => s.ports
  | .hfinal _ => s.ports
  | .new _ => s.ports
  | .drop _ => s.ports
  | .union _ _ => s.ports

/-- R291: the command in flight is abandoned. -/
def State.abandon (s : State) : State :=
  match decode s.regs.cmd with
  | .ok i => { s with ports := s.abandonPorts i (Config.freeLength s.draws), draws := s.draws + 1 }
  | .error _ => s

/-- R290, R291: the reset input. -/
def hostReset (s : State) : Result :=
  .next (if s.busy then s.abandon.hardReset else s.hardReset)

/-- The host makes the move `mv`. -/
def hostMove (mv : HostMove) (s : State) : Result :=
  match mv with
  | .write r w => hostWrite r w s
  | .read r => hostRead r s
  | .writeBack r => hostWrite r s.lastRead s
  | .await => .next s
  | .presentKey key => hostPresent key s
  | .supply bytes ended => hostSupply bytes ended s
  | .sink accept ready => hostSink accept ready s
  | .reset => hostReset s

/-- Whether the core makes the next step: a command is in flight and the host waits or has nothing to do. -/
def State.coreTurn (s : State) : Bool :=
  s.busy && match s.host with
    | [] => true
    | .await :: _ => true
    | .write _ _ :: _ => false
    | .read _ :: _ => false
    | .writeBack _ :: _ => false
    | .presentKey _ :: _ => false
    | .supply _ _ :: _ => false
    | .sink _ _ :: _ => false
    | .reset :: _ => false

/-- The host's next move is made; with none left the core idles (R38). -/
def hostTurn (s : State) : Result :=
  match s.host with
  | [] => .next s
  | mv :: rest => hostMove mv { s with host := rest }

end Sys2Proof.Machine
end

