-- ==== Sys2Proof/Machine/Issue.lean ====
section
/-! DEFINITION. What the core does with the word in `CMD` (spec/10_state.md R33, spec/60_exceptions.md R255). -/

namespace Sys2Proof.Machine

/-- R33, R93: the core decodes the word in `CMD` and runs the command to its end; an illegal word raises
`E_ILLEGAL` (R255). -/
def issue (s : State) : Result :=
  match decode s.regs.cmd with
  | .ok i => exec i s
  | .error _ => raise .illegal 0 0 s

end Sys2Proof.Machine
end

