-- ==== Sys2Proof/Machine/Step.lean ====
section
/-! DEFINITION. One step: a move of the host, or one whole command of the core (spec/10_state.md R33,
spec/20_memory.md R73). -/

namespace Sys2Proof.Machine

/-- One step of the machine. -/
def step (s : State) : Host.Outcome State Fault Refusal :=
  if s.coreTurn then issue s else hostTurn s

/-- The state in which the host has just written the word to `CMD` (R33) and waits for `BUSY = 0` (R293 step
5): the core fetches nothing (R34), so this is where its next command comes from, and the next step runs it. -/
def State.withFetchWord (s : State) (nbits w : Nat) : State :=
  { s with
    regs := s.regs.hostSet .cmd (BitVec.ofNat 32 (w % 2 ^ nbits))
    host := .await :: s.host }

end Sys2Proof.Machine
end

