-- ==== Sys2Proof/Safety.lean ====
section
/-! DEFINITION. What counts as a legal state and a safe run, and the words claims are stated in. -/

namespace Sys2Proof.Machine

/-! Legal states. -/

/-- R28: the tail of an open accumulator is what does not fill a block. -/
abbrev Acc.wf (a : Acc) : Prop := ∀ r ∈ a.run, r.tail.length = r.length.toNat % 4

/-- R22: the invariants of a valid slot. -/
structure Filter.wf (c : Config) (f : Filter) : Prop where
  mPos : 0 < f.m.toNat
  mMax : f.m.toNat ≤ c.mMax
  kPos : 0 < f.k.toNat
  kMax : f.k.toNat ≤ c.kMax
  bitsLength : f.bits.length = f.m.toNat
  accLength : f.acc.length = f.k.toNat
  /-- "hasher `i` always uses seed `i`" -/
  seeds : f.acc.map Acc.seed = (List.range f.acc.length).map (BitVec.ofNat 32)
  tails : ∀ a ∈ f.acc, a.wf

/-- R32, R251, R252: a `STATUS` value the hardware can show: reserved bits 0, no code without an error, and a
code and a sub-cause of the tables with one. -/
def statusLegal (w : Word) : Prop :=
  ∃ busy : Bool, w = statusWord busy false 0 0 ∨
    ∃ e : ErrKind, ∃ info, info < e.infos ∧ w = statusWord busy true e.code info

/-- The invariant of the machine: R10's ranges, R22 of every slot, R32 of `STATUS`, R64 of the KEY buffer. -/
structure State.Inv (s : State) : Prop where
  cfgRange : s.cfg.wf
  slotCount : 2 ≤ s.nslots ∧ s.nslots ≤ 16
  filters : ∀ o ∈ s.slots, ∀ f ∈ o, f.wf s.cfg
  status : statusLegal s.regs.status
  keyFits : ∀ key ∈ s.ports.keys, key.length ≤ s.cfg.keyMax

/-- R28: the run `r` is what an accumulator of this seed holds after the byte sequence `T` has been fed to it
since its reset. -/
structure AccRun.Holds (seed : Word) (T : List Byte) (r : AccRun) : Prop where
  length : r.length = BitVec.ofNat 64 T.length
  tail : r.tail = T.drop (4 * (T.length / 4))
  h : r.h = mixAll seed (T.take (4 * (T.length / 4)))

/-- R28 for every open accumulator of the machine. -/
def State.StreamInv (s : State) : Prop :=
  ∀ a f, s.slot a = some f → ∀ x ∈ f.acc, ∀ r ∈ x.run, ∃ T, r.Holds x.seed T

/-! What a command leaves alone. -/

/-- R31: the command word and the operand registers are unchanged. -/
structure SameOperands (s t : State) : Prop where
  cmd : t.regs.cmd = s.regs.cmd
  arg0 : t.regs.arg0 = s.regs.arg0
  arg1 : t.regs.arg1 = s.regs.arg1
  arg2 : t.regs.arg2 = s.regs.arg2
  arg3 : t.regs.arg3 = s.regs.arg3

/-- Nothing outside the core and its ports is touched. -/
structure SameOutside (s t : State) : Prop where
  cfg : t.cfg = s.cfg
  host : t.host = s.host
  lastRead : t.lastRead = s.lastRead
  draws : t.draws = s.draws

/-- R83: only slot `a` may differ. -/
structure SameSlotsBut (a : Nat) (s t : State) : Prop where
  count : t.nslots = s.nslots
  other : ∀ b, b ≠ a → t.slot b = s.slot b

/-- The ports but for the oldest KEY buffer, which has been taken. -/
structure KeyTaken (s t : State) : Prop where
  keys : t.ports.keys = s.ports.keys.tail
  src : t.ports.src = s.ports.src
  srcEnded : t.ports.srcEnded = s.ports.srcEnded
  snk : t.ports.snk = s.ports.snk
  accept : t.ports.accept = s.ports.accept
  snkReady : t.ports.snkReady = s.ports.snkReady

/-- The ports but for the source. -/
structure SamePortsButSrc (s t : State) : Prop where
  keys : t.ports.keys = s.ports.keys
  srcEnded : t.ports.srcEnded = s.ports.srcEnded
  snk : t.ports.snk = s.ports.snk
  accept : t.ports.accept = s.ports.accept
  snkReady : t.ports.snkReady = s.ports.snkReady

/-- The ports but for what the sink has accepted and will accept. -/
structure SamePortsButSink (s t : State) : Prop where
  keys : t.ports.keys = s.ports.keys
  src : t.ports.src = s.ports.src
  srcEnded : t.ports.srcEnded = s.ports.srcEnded
  snkReady : t.ports.snkReady = s.ports.snkReady

/-- R250, R254: what the host reads at the end of a command. -/
structure Reports (t : State) (status res0 res1 res2 : Word) : Prop where
  status : t.regs.status = status
  res0 : t.regs.res0 = res0
  res1 : t.regs.res1 = res1
  res2 : t.regs.res2 = res2

/-- R253, R266: the command `i` ends in `s` with this error and has done nothing else, but for the ports. -/
def FailsWith (i : Instr) (s : State) (status res0 : Word) : Prop :=
  ∃ t, exec i s = .next t ∧ Reports t status res0 0 0 ∧ t.slots = s.slots ∧ SameOperands s t ∧ SameOutside s t

/-- `FailsWith`, and the ports are as they were. -/
def FailsCleanly (i : Instr) (s : State) (status : Word) : Prop :=
  ∃ t, exec i s = .next t ∧ Reports t status 0 0 0 ∧ t.slots = s.slots ∧ t.ports = s.ports ∧
    SameOperands s t ∧ SameOutside s t

/-- `FailsWith`, and the KEY buffer has been taken (R264). -/
def FailsTakingKey (i : Instr) (s : State) (status : Word) : Prop :=
  ∃ t, exec i s = .next t ∧ Reports t status 0 0 0 ∧ t.slots = s.slots ∧ KeyTaken s t ∧ SameOperands s t ∧
    SameOutside s t

/-- `FailsWith`, `n` bytes of the source are consumed and `left` is what remains of it (R220, R264). -/
def FailsReading (i : Instr) (s : State) (status : Word) (n : Nat) (left : List Byte) : Prop :=
  ∃ t, exec i s = .next t ∧ Reports t status (BitVec.ofNat 32 n) 0 0 ∧ t.slots = s.slots ∧ t.ports.src = left ∧
    SamePortsButSrc s t ∧ SameOperands s t ∧ SameOutside s t

/-- The step from `s` to `t` is the core's and runs the command `i` to success. -/
def Succeeded (i : Instr) (s t : State) : Prop :=
  s.coreTurn = true ∧ decode s.regs.cmd = .ok i ∧ t.regs.status = 0x000

/-- The port a command needs before it can end is not ready (R64 to R66, R307). -/
def PortBlocked (i : Instr) (s : State) : Prop :=
  match i with
  | .hfeed _ => s.ports.keys = []
  | .add _ => s.ports.keys = []
  | .contains _ => s.ports.keys = []
  | .serialize sa => (∃ f, s.slot sa = some f) ∧ s.ports.snkReady = false
  | .deserialize sa => sa < s.nslots ∧ s.slot sa = none ∧ s.ports.srcEnded = false ∧
      (s.ports.src.length < 8 ∨
        (headerOk s.cfg (headerM (s.ports.src.take 8)).toNat (headerK (s.ports.src.take 8)).toNat = true ∧
          s.ports.src.length < 8 + cdiv8 (headerM (s.ports.src.take 8))))
  | _ => False

/-! Filters and keys. -/

/-- R184: bit index `j` of a key in a filter of `m` bits. -/
def keyIndex (m : Word) (j : Nat) (key : List Byte) : Nat :=
  (digest32 (BitVec.ofNat 32 j) key).toNat % m.toNat

/-- Every bit of `IndexSet(m, k, key)` is set (R184, R187). -/
def Filter.Has (f : Filter) (key : List Byte) : Prop :=
  ∀ j, j < f.k.toNat → bitRead f.bits (keyIndex f.m j key) = true

/-- The two filters have the shape and the bits in common; the accumulators may differ. -/
structure SameBits (f g : Filter) : Prop where
  m : g.m = f.m
  k : g.k = f.k
  bits : g.bits = f.bits

/-- Steps from `s` to `t` through which slot `a` goes on holding a filter. -/
inductive StepsHolding (a : Nat) : State → State → Prop where
  | refl (s : State) : StepsHolding a s s
  | tail {s t u : State} : StepsHolding a s t → step t = .next u → (∃ f, u.slot a = some f) →
      StepsHolding a s u

/-- R312: a run has ended when the host has nothing left to do and `BUSY` is 0. -/
def State.ended (s : State) : Prop := s.host = [] ∧ s.busy = false

end Sys2Proof.Machine
end

