-- ==== Sys2Proof/Certificates/Slice0/Obligations.lean ====
section
/-! DEFINITION. The statements for the provers. STATUS values are written as the numbers of
spec/95_test_vectors.md: `0x022 / 0x122 / 0x222` are `E_SLOT` with `EINFO` 0, 1, 2, and so on. -/

open Sys2Proof Sys2Proof.Machine

/-! Encoding. -/

/-- R90 to R93: words of spec/95_test_vectors.md section 3.6, at least one of each command and of each way a
word is illegal. -/
def Obligations.SampleWordsDecode : Prop :=
  decode 0x00000000#32 = .error .opcode ∧ decode 0x0000000D#32 = .error .opcode ∧
  decode 0x000000FF#32 = .error .opcode ∧ decode 0xFFFFFFFF#32 = .error .opcode ∧
  decode 0x00000101#32 = .error .mustBeZero ∧ decode 0x00001002#32 = .error .mustBeZero ∧
  decode 0x00001006#32 = .error .mustBeZero ∧ decode 0x0001000C#32 = .error .mustBeZero ∧
  decode 0x8000000A#32 = .error .mustBeZero ∧
  decode 0x00000001#32 = .ok .bitcount ∧ decode 0x00000002#32 = .ok .hashcount ∧
  decode 0x00000103#32 = .ok (.hreset 1) ∧ decode 0x00000004#32 = .ok (.hfeed 0) ∧
  decode 0x00000105#32 = .ok (.hfinal 1) ∧ decode 0x00000006#32 = .ok (.new 0) ∧
  decode 0x00000107#32 = .ok (.drop 1) ∧ decode 0x00000F08#32 = .ok (.add 15) ∧
  decode 0x00000109#32 = .ok (.contains 1) ∧ decode 0x0000000A#32 = .ok (.serialize 0) ∧
  decode 0x0000010B#32 = .ok (.deserialize 1) ∧ decode 0x0000100C#32 = .ok (.union 0 1) ∧
  decode 0x0000010C#32 = .ok (.union 1 0)

/-- R90 to R93: decoding the encoding of any well-formed command gives it back, with every slot number. -/
def Obligations.DecodeOfEncode : Prop :=
  ∀ i : Instr, i.wf = true → decode (encode i) = .ok i

/-- R91, R93: a legal word is the encoding of the command it decodes to, so each word has one meaning and no
two words the same. -/
def Obligations.LegalWordsAreEncodings : Prop :=
  ∀ (w : Word) (i : Instr), decode w = .ok i → i.wf = true ∧ encode i = w

/-- R90 to R93: decoding is total. A word is illegal exactly when its opcode is outside `0x01 .. 0x0C` or a
must-be-zero bit of its format is 1 (F0: bits 31:8; F1: bits 31:12; F2: bits 31:16); any other word is the command of
its opcode with `SA` = bits 11:8 and `SB` = bits 15:12 where they are live. -/
def Obligations.DecodingFollowsTheOpcodeMap : Prop :=
  ∀ (w : Word) (opc sa sb : Nat), opc = w.toNat % 256 → sa = w.toNat / 256 % 16 → sb = w.toNat / 4096 % 16 →
    ((opc = 0 ∨ 12 < opc ∨ (opc ≤ 2 ∧ 256 ≤ w.toNat) ∨ (opc ≤ 11 ∧ 4096 ≤ w.toNat) ∨ 65536 ≤ w.toNat) →
      ∃ e, decode w = .error e) ∧
    (¬ (opc = 0 ∨ 12 < opc ∨ (opc ≤ 2 ∧ 256 ≤ w.toNat) ∨ (opc ≤ 11 ∧ 4096 ≤ w.toNat) ∨ 65536 ≤ w.toNat) →
      ∃ i, decode w = .ok i ∧ [(1, Instr.bitcount), (2, .hashcount), (3, .hreset sa), (4, .hfeed sa), (5, .hfinal sa),
        (6, .new sa), (7, .drop sa), (8, .add sa), (9, .contains sa), (10, .serialize sa), (11, .deserialize sa),
        (12, .union sa sb)].lookup opc = some i)

/-- R93: "there are 12 legal opcodes and, counting live slot values, 402 legal words". -/
def Obligations.FourHundredTwoLegalWords : Prop :=
  Set.ncard { o : Nat | ∃ (w : Word) (i : Instr), decode w = .ok i ∧ fieldOPC w = o } = 12 ∧
  Set.ncard { w : Word | ∃ i : Instr, decode w = .ok i } = 402

/-! The step and the host. -/

/-- R33, R93: on the core's turn a step runs the command that `CMD` encodes; and `withFetchWord` leads to such a
turn for every command. -/
def Obligations.StepRunsTheDecodedCommand : Prop :=
  (∀ (s : State) (i : Instr), s.coreTurn = true → decode s.regs.cmd = .ok i → step s = exec i s) ∧
  (∀ (s : State) (i : Instr), i.wf = true →
    step (s.withFetchWord 32 (encode i).toNat) = exec i (s.withFetchWord 32 (encode i).toNat))

/-- R255: a word in `CMD` whose opcode is outside `0x01 .. 0x0C`, or that has a 1 in a bit its format requires to be
zero, raises `E_ILLEGAL` (`0x012`); the word stays in `CMD`, no slot changes and no port is touched, a pending KEY
buffer among them. -/
def Obligations.IllegalWordRaisesAndTouchesNothing : Prop :=
  ∀ (s : State) (w opc : Nat), s.coreTurn = true → w = s.regs.cmd.toNat → opc = w % 256 →
    (opc = 0 ∨ 12 < opc ∨ (opc ≤ 2 ∧ 256 ≤ w) ∨ (opc ≤ 11 ∧ 4096 ≤ w) ∨ 65536 ≤ w) →
    ∃ t, step s = .next t ∧ Reports t 0x012 0 0 0 ∧ t.slots = s.slots ∧ t.ports = s.ports ∧
      SameOperands s t ∧ SameOutside s t

/-- R33, R300: a host write of any word to `CMD` while `BUSY = 0` latches the word and sets `BUSY`; the error fields of
the previous command stay readable; the step after it, if the host waits, runs the command, or raises `E_ILLEGAL` (R255)
if the word is illegal. -/
def Obligations.WriteToCmdIssuesACommand : Prop :=
  ∀ (s : State) (w : Word) (rest : List HostMove), s.busy = false → s.host = .write .cmd w :: .await :: rest →
    ∃ t, step s = .next t ∧ t.regs.cmd = w ∧ t.busy = true ∧
      statusErr t.regs.status = statusErr s.regs.status ∧
      statusECode t.regs.status = statusECode s.regs.status ∧
      statusEInfo t.regs.status = statusEInfo s.regs.status ∧
      t.regs.arg0 = s.regs.arg0 ∧ t.regs.arg1 = s.regs.arg1 ∧ t.regs.arg2 = s.regs.arg2 ∧
      t.regs.arg3 = s.regs.arg3 ∧ t.regs.res0 = s.regs.res0 ∧ t.regs.res1 = s.regs.res1 ∧
      t.regs.res2 = s.regs.res2 ∧ t.slots = s.slots ∧ t.ports = s.ports ∧ t.cfg = s.cfg ∧
      t.host = .await :: rest ∧
      (∀ i : Instr, i.wf = true → w = encode i → step t = exec i t) ∧
      (∀ e, decode w = .error e → ∃ u, step t = .next u ∧ Reports u 0x012 0 0 0 ∧ u.slots = t.slots ∧
        u.ports = t.ports ∧ SameOperands t u ∧ SameOutside t u)

/-- R30: a host write to `STATUS` or a `RES` register is ignored; one to an `ARG` register of an idle core writes
that register and no other. -/
def Obligations.HostWritesRespectAccess : Prop :=
  ∀ (s : State) (r : HostReg) (w : Word) (rest : List HostMove), s.host = .write r w :: rest →
    ((r = .status ∨ r = .res0 ∨ r = .res1 ∨ r = .res2) → step s = .next { s with host := rest }) ∧
    ((r = .arg0 ∨ r = .arg1 ∨ r = .arg2 ∨ r = .arg3) → s.busy = false →
      ∃ t, step s = .next t ∧ (∀ q, t.regs.get q = if q = r then w else s.regs.get q) ∧
        t = { s with host := rest, regs := t.regs })

/-- R74, R300: a host read returns what the register holds and changes nothing in the core or on a port; `STATUS`
is not cleared by it. (A `RES` register read while `BUSY = 1` returns a free value, log 3.) -/
def Obligations.HostReadsHaveNoSideEffect : Prop :=
  ∀ (s : State) (r : HostReg) (rest : List HostMove), s.host = .read r :: rest →
    ∃ t, step s = .next t ∧ t.regs = s.regs ∧ t.slots = s.slots ∧ t.ports = s.ports ∧ t.cfg = s.cfg ∧
      t.host = rest ∧
      ((s.busy = false ∨ r = .cmd ∨ r = .status ∨ r = .arg0 ∨ r = .arg1 ∨ r = .arg2 ∨ r = .arg3) →
        t.lastRead = s.regs.get r)

/-- The model's choice for R300 (spec/93_implementation_defined.md U1 says `refuse`; log 8): while `BUSY = 1` a host
write to `CMD` or an `ARG`, by a value of its own or one it has read, has no meaning, and neither has a KEY buffer the
command in flight is not waiting for. -/
def Obligations.BusyInterfaceViolationsAreRefused : Prop :=
  ∀ (s : State) (rest : List HostMove), s.busy = true →
    (∀ r w, (r = .cmd ∨ r = .arg0 ∨ r = .arg1 ∨ r = .arg2 ∨ r = .arg3) → s.host = .write r w :: rest →
      step s = .refused .interfaceWhileBusy) ∧
    (∀ r, (r = .cmd ∨ r = .arg0 ∨ r = .arg1 ∨ r = .arg2 ∨ r = .arg3) → s.host = .writeBack r :: rest →
      step s = .refused .interfaceWhileBusy) ∧
    (∀ key, s.host = .presentKey key :: rest →
      (s.ports.keys ≠ [] ∨ (∀ i, decode s.regs.cmd = .ok i → takesKey i = false)) →
      step s = .refused .interfaceWhileBusy)

/-- R64, R65, R66, R302, U18: what the far sides of the ports do. A KEY buffer of at most `KEY_MAX` bytes that is
presented while `BUSY = 0`, or for a command that waits for one, is pending behind those not yet taken; the source gains the
delivered bytes; the sink's limit and readiness are replaced; nothing of the core changes. (The refusal of a longer buffer,
and that a second buffer is pending behind the first, are the model's choice, log 8.) -/
def Obligations.PortMovesReachThePorts : Prop :=
  ∀ (s : State) (rest : List HostMove),
    (∀ key, s.host = .presentKey key :: rest →
      (s.busy = false ∨ (s.ports.keys = [] ∧ ∃ i, decode s.regs.cmd = .ok i ∧ takesKey i = true)) →
      (key.length ≤ s.cfg.keyMax → step s =
        .next { s with host := rest, ports := { s.ports with keys := s.ports.keys ++ [key] } }) ∧
      (s.cfg.keyMax < key.length → step s = .refused .keyTooLong)) ∧
    (∀ bytes ended, s.host = .supply bytes ended :: rest → step s =
      .next { s with host := rest, ports := { s.ports with src := s.ports.src ++ bytes, srcEnded := ended } }) ∧
    (∀ accept ready, s.host = .sink accept ready :: rest → step s =
      .next { s with host := rest, ports := { s.ports with accept := accept, snkReady := ready } })

/-- R290, R38: after the hardware reset every slot is empty, every host register is zero and `BUSY = 0`. (That
between commands the ports keep what the host side has on them is the model's choice, log 7.) -/
def Obligations.HardResetEmptiesTheCore : Prop :=
  ∀ (s : State) (rest : List HostMove), s.host = .reset :: rest →
    ∃ t, step s = .next t ∧ (∀ a, t.slot a = none) ∧ t.nslots = s.nslots ∧ t.cfg = s.cfg ∧ t.host = rest ∧
      (∀ r, t.regs.get r = 0) ∧ t.busy = false ∧ (s.busy = false → t.ports = s.ports)

/-- R291: a reset that abandons a command leaves in the sink a prefix of the stream being written and takes from
the source a prefix of the stream being read, of unknown length. (That it loses the pending KEY buffer of a command that
takes one in every case, and not only one in transfer, is the model's choice, log 4.) -/
def Obligations.ResetAbandonsACommand : Prop :=
  ∀ (s : State) (rest : List HostMove), s.busy = true → s.host = .reset :: rest →
    ∃ t, step s = .next t ∧ (∀ a, t.slot a = none) ∧ (∀ r, t.regs.get r = 0) ∧
      (∃ p, t.ports.snk = s.ports.snk ++ p ∧
        (p = [] ∨ ∃ sa f, decode s.regs.cmd = .ok (.serialize sa) ∧ s.slot sa = some f ∧
          p <+: pack f.m f.k f.bits)) ∧
      (∃ p, s.ports.src = p ++ t.ports.src ∧
        (p = [] ∨ ∃ sa, decode s.regs.cmd = .ok (.deserialize sa) ∧ sa < s.nslots ∧ s.slot sa = none ∧
          p.length ≤ 8 + cdiv8 (headerM (s.ports.src.take 8)))) ∧
      (∀ i, decode s.regs.cmd = .ok i → takesKey i = true → t.ports.keys = s.ports.keys.tail)

/-- R38: the state after reset; with nothing written to `CMD` the core idles. (The ports, the host's side and the
default parameters are the model's choices, logs 1, 2 and 7, and are not stated here.) -/
def Obligations.ResetValues : Prop :=
  (∀ a, State.reset.slot a = none) ∧ State.reset.regs.cmd = 0 ∧ State.reset.regs.status = 0 ∧
  State.reset.regs.arg0 = 0 ∧ State.reset.regs.arg1 = 0 ∧ State.reset.regs.arg2 = 0 ∧
  State.reset.regs.arg3 = 0 ∧ State.reset.regs.res0 = 0 ∧ State.reset.regs.res1 = 0 ∧
  State.reset.regs.res2 = 0 ∧ State.reset.busy = false ∧ step State.reset = .next State.reset

/-! Every command. -/

/-- R250, R64 to R66: a command ends in success (`STATUS = 0`) or in one error of R251 with a sub-cause of R252,
with `BUSY` clear; or a port it needs is not ready, and then it waits with `BUSY = 1`. (That a waiting command has
changed nothing else is the model's choice, log 10.) -/
def Obligations.EveryCommandEndsOnceOrWaits : Prop :=
  ∀ (i : Instr) (s : State), ∃ t, exec i s = .next t ∧
    ((PortBlocked i s ∧ t.busy = true ∧ t = { s with regs := { s.regs with status := t.regs.status } } ∧
        statusErr t.regs.status = statusErr s.regs.status ∧
        statusECode t.regs.status = statusECode s.regs.status ∧
        statusEInfo t.regs.status = statusEInfo s.regs.status) ∨
      (¬ PortBlocked i s ∧ t.busy = false ∧
        (t.regs.status = 0 ∨
          (statusErr t.regs.status = true ∧ ∃ e : ErrKind, statusECode t.regs.status = e.code ∧
            statusEInfo t.regs.status < e.infos))))

/-- R275: which command can end with which error and sub-cause. -/
def Obligations.WhichCommandRaisesWhat : Prop :=
  ∀ (i : Instr) (s t : State), ¬ PortBlocked i s → exec i s = .next t →
    match i with
    | .bitcount => t.regs.status ∈ [0x000#32, 0x052#32, 0x152#32]
    | .hashcount => t.regs.status ∈ [0x000#32, 0x052#32, 0x252#32]
    | .hreset _ => t.regs.status ∈ [0x000#32, 0x022#32, 0x122#32, 0x032#32]
    | .hfeed _ => t.regs.status ∈ [0x000#32, 0x022#32, 0x122#32, 0x032#32, 0x042#32]
    | .hfinal _ => t.regs.status ∈ [0x000#32, 0x022#32, 0x122#32, 0x032#32, 0x042#32]
    | .new _ => t.regs.status ∈ [0x000#32, 0x022#32, 0x222#32, 0x052#32, 0x152#32, 0x252#32]
    | .drop _ => t.regs.status ∈ [0x000#32, 0x022#32]
    | .add _ => t.regs.status ∈ [0x000#32, 0x022#32, 0x122#32]
    | .contains _ => t.regs.status ∈ [0x000#32, 0x022#32, 0x122#32]
    | .serialize _ => t.regs.status ∈ [0x000#32, 0x022#32, 0x122#32, 0x062#32, 0x072#32]
    | .deserialize _ => t.regs.status ∈ [0x000#32, 0x022#32, 0x222#32, 0x082#32, 0x182#32, 0x282#32]
    | .union _ _ => t.regs.status ∈ [0x000#32, 0x022#32, 0x122#32, 0x092#32]

/-- R264, R254: whatever error a command ends with, the slots are exactly as before and `RES1 = RES2 = 0`; `RES0` is
the number of bytes the sink accepted (`E_IO_HEADER`, `E_IO_BODY`) or the source delivered (`E_DESER`), and 0 for every
other error; a taken KEY buffer stays taken (an illegal word takes none), written sink bytes stay written, consumed
source bytes stay consumed. -/
def Obligations.ErrorsLeaveTheSlots : Prop :=
  (∀ (i : Instr) (s t : State), ¬ PortBlocked i s → exec i s = .next t → statusErr t.regs.status = true →
    t.slots = s.slots ∧ t.regs.res1 = 0 ∧ t.regs.res2 = 0 ∧
    (statusECode t.regs.status = 6 ∨ statusECode t.regs.status = 7 →
      t.ports.snk.length = s.ports.snk.length + t.regs.res0.toNat) ∧
    (statusECode t.regs.status = 8 → s.ports.src.length = t.regs.res0.toNat + t.ports.src.length) ∧
    (statusECode t.regs.status < 6 ∨ 8 < statusECode t.regs.status → t.regs.res0 = 0) ∧
    (takesKey i = true → t.ports.keys = s.ports.keys.tail) ∧ (takesKey i = false → t.ports.keys = s.ports.keys) ∧
    s.ports.snk <+: t.ports.snk ∧ t.ports.src <:+ s.ports.src) ∧
  (∀ (s t : State) (e : Illegal), s.coreTurn = true → decode s.regs.cmd = .error e → step s = .next t →
    t.slots = s.slots ∧ t.ports = s.ports ∧ t.regs.res0 = 0 ∧ t.regs.res1 = 0 ∧ t.regs.res2 = 0)

/-- R31: no command, however it ends, writes `CMD` or an operand register, and none reaches anything outside the
core but its ports; every command that ends writes `STATUS` and all of `RES0 .. RES2`, so what it leaves does not depend
on what they held; and a result register that its rule does not name receives 0. -/
def Obligations.CommandsKeepOperandsAndWriteResults : Prop :=
  ∀ (i : Instr) (s t : State), exec i s = .next t → SameOperands s t ∧ SameOutside s t ∧
    (¬ PortBlocked i s → ∀ status res0 res1 res2 : Word, exec i
      { s with regs := { s.regs with status := status, res0 := res0, res1 := res1, res2 := res2 } } = .next t) ∧
    (¬ PortBlocked i s → statusErr t.regs.status = false →
      match i with
      | .bitcount => t.regs.res0 = 0 ∧ t.regs.res2 = 0
      | .hashcount => t.regs.res0 = 0 ∧ t.regs.res1 = 0
      | .hreset _ => t.regs.res0 = 0 ∧ t.regs.res1 = 0 ∧ t.regs.res2 = 0
      | .hfeed _ => t.regs.res0 = 0 ∧ t.regs.res1 = 0 ∧ t.regs.res2 = 0
      | .hfinal _ => t.regs.res1 = 0 ∧ t.regs.res2 = 0
      | .new _ => t.regs.res0 = 0
      | .drop _ => t.regs.res0 = 0 ∧ t.regs.res1 = 0 ∧ t.regs.res2 = 0
      | .add _ => t.regs.res0 = 0 ∧ t.regs.res1 = 0 ∧ t.regs.res2 = 0
      | .contains _ => t.regs.res1 = 0 ∧ t.regs.res2 = 0
      | .serialize _ => True
      | .deserialize _ => True
      | .union _ _ => t.regs.res0 = 0 ∧ t.regs.res1 = 0 ∧ t.regs.res2 = 0)

/-- R83: a command changes no slot but the one its `SA` names (BITCOUNT, HASHCOUNT and SERIALIZE change none), and a
UNION that names one slot twice is defined. -/
def Obligations.OnlyTheNamedSlotChanges : Prop :=
  (∀ (i : Instr) (s t : State), exec i s = .next t → t.nslots = s.nslots ∧ ∀ b,
    (match i with
      | .bitcount => True
      | .hashcount => True
      | .hreset sa => b ≠ sa
      | .hfeed sa => b ≠ sa
      | .hfinal sa => b ≠ sa
      | .new sa => b ≠ sa
      | .drop sa => b ≠ sa
      | .add sa => b ≠ sa
      | .contains sa => b ≠ sa
      | .serialize _ => True
      | .deserialize sa => b ≠ sa
      | .union sa _ => b ≠ sa) → t.slot b = s.slot b) ∧
  ∀ (s : State) (sa : Nat) (f : Filter), s.slot sa = some f →
    ∃ t, exec (.union sa sa) s = .next t ∧ t.regs.status = 0x000

/-! Sizing. -/

/-- R98: the valid patterns are exactly those whose value lies strictly between 0 and 1. -/
def Obligations.ValidPatternsAreTheOpenUnitInterval : Prop :=
  ∀ P : DWord, (1 ≤ P.toNat ∧ P.toNat ≤ 0x3FEFFFFFFFFFFFFF) ↔ ∃ q : ℚ, pval P = some q ∧ 0 < q ∧ q < 1

/-- R132, R131, R136: for every `n ≥ 1` and every valid `p` BITCOUNT (`0x00000001`) answers the exact mathematical
ceiling `ceil(−n ln p / (ln 2)^2)`, which is at least 1, and `E_CONSTRUCT` with `EINFO = 1` when that does not fit
`u32`. -/
def Obligations.BitcountIsTheExactCeiling : Prop :=
  encode .bitcount = 0x00000001 ∧
  ∀ (s : State) (q : ℚ) (m : Nat), s.regs.arg0 ≠ 0 → pval (s.regs.arg3 ++ s.regs.arg2) = some q → 0 < q → q < 1 →
    m = ⌈-(s.regs.arg0.toNat : ℝ) * Real.log q / Real.log 2 ^ 2⌉₊ →
    1 ≤ m ∧
    (m ≤ 2 ^ 32 - 1 → ∃ t, exec .bitcount s = .next t ∧ Reports t 0x000 0 (BitVec.ofNat 32 m) 0 ∧
      t.slots = s.slots ∧ t.ports = s.ports ∧ SameOperands s t ∧ SameOutside s t) ∧
    (2 ^ 32 - 1 < m → FailsCleanly .bitcount s 0x152)

/-- R132: the two numbers the model computes for `n ≥ 1` and a valid `p` are at most 1 apart and enclose the exact
ceiling and what BITCOUNT completes with (`m`, or `E_CONSTRUCT`, `EINFO = 1`, when it does not fit). The two numbers are
the model's (log 5). -/
def Obligations.BitcountCompletesWithinItsBounds : Prop :=
  ∀ (s : State) (q : ℚ), s.regs.arg0 ≠ 0 → pval (s.regs.arg3 ++ s.regs.arg2) = some q → 0 < q → q < 1 →
    ∃ m lo hi : Nat, lo = bitCountLo s.regs.arg0.toNat (s.regs.arg3 ++ s.regs.arg2) ∧
      hi = bitCountHi s.regs.arg0.toNat (s.regs.arg3 ++ s.regs.arg2) ∧ 1 ≤ lo ∧ hi ≤ lo + 1 ∧ lo ≤ m ∧ m ≤ hi ∧
      lo ≤ ⌈-(s.regs.arg0.toNat : ℝ) * Real.log q / Real.log 2 ^ 2⌉₊ ∧
      ⌈-(s.regs.arg0.toNat : ℝ) * Real.log q / Real.log 2 ^ 2⌉₊ ≤ hi ∧
      (m ≤ 2 ^ 32 - 1 → ∃ t, exec .bitcount s = .next t ∧ Reports t 0x000 0 (BitVec.ofNat 32 m) 0 ∧
        t.slots = s.slots ∧ t.ports = s.ports ∧ SameOperands s t ∧ SameOutside s t) ∧
      (2 ^ 32 - 1 < m → FailsCleanly .bitcount s 0x152)

/-- R97, R98, R132: BITCOUNT with `n = 0` or with a `p` that is not in `(0,1)` ends with `E_CONSTRUCT`, `EINFO = 0`. -/
def Obligations.BitcountRejectsInvalidOperands : Prop :=
  ∀ s : State, (s.regs.arg0 = 0 ∨ (s.regs.arg3 ++ s.regs.arg2).toNat = 0 ∨
      0x3FEFFFFFFFFFFFFF < (s.regs.arg3 ++ s.regs.arg2).toNat) → FailsCleanly .bitcount s 0x052

/-- R135, R133: HASHCOUNT (`0x00000002`) answers the exact mathematical ceiling `ceil(ln 2 × m / n)` for every `m` and
every `n ≥ 1`, at most 2977044472; `m = 0` and `n = 0` end with `E_CONSTRUCT`. -/
def Obligations.HashcountIsTheExactCeiling : Prop :=
  encode .hashcount = 0x00000002 ∧ ∀ s : State,
    (s.regs.arg0 = 0 → FailsCleanly .hashcount s 0x052) ∧
    (s.regs.arg0 ≠ 0 → s.regs.arg1 = 0 → FailsCleanly .hashcount s 0x252) ∧
    (s.regs.arg0 ≠ 0 → s.regs.arg1 ≠ 0 → ∃ t, exec .hashcount s = .next t ∧
      Reports t 0x000 0 0
        (BitVec.ofNat 32 ⌈Real.log 2 * (s.regs.arg1.toNat : ℝ) / (s.regs.arg0.toNat : ℝ)⌉₊) ∧
      1 ≤ ⌈Real.log 2 * (s.regs.arg1.toNat : ℝ) / (s.regs.arg0.toNat : ℝ)⌉₊ ∧
      ⌈Real.log 2 * (s.regs.arg1.toNat : ℝ) / (s.regs.arg0.toNat : ℝ)⌉₊ ≤ 2977044472 ∧
      t.slots = s.slots ∧ t.ports = s.ports ∧ SameOperands s t ∧ SameOutside s t)

/-- R134 (a), (b), (d): the hash count is 0 exactly when `m = 0`, and always fits a `u32`. -/
def Obligations.HashCountRange : Prop :=
  ∀ m n : Nat, m ≤ 2 ^ 32 - 1 → 1 ≤ n →
    (⌈Real.log 2 * (m : ℝ) / (n : ℝ)⌉₊ = 0 ↔ m = 0) ∧ hashCount m n = ⌈Real.log 2 * (m : ℝ) / (n : ℝ)⌉₊ ∧
    hashCount m n ≤ 2977044472

/-! The hash family. -/

/-- R151 to R155, R157: vectors of spec/95_test_vectors.md section 2.1 (V-H1, V-H2, V-H5 to V-H10, V-H15, V-H17 to V-H21, in
that order), which fix the constants, the mixing steps, the byte order and the final mix. -/
def Obligations.DigestVectors : Prop :=
  digest32 0 [] = 0x00000000 ∧ digest32 1 [] = 0x514e28b7 ∧ digest32 0 [0x61] = 0x3c2569b2 ∧
  digest32 0 [0x61, 0x62] = 0x9bbfd75f ∧ digest32 0 [0x61, 0x62, 0x63] = 0xb3dd93fa ∧
  digest32 0 [0x61, 0x62, 0x63, 0x64] = 0x43ed676a ∧ digest32 0 [0x61, 0x62, 0x63, 0x64, 0x65] = 0xe89b9af6 ∧
  digest32 1 [0x61, 0x62, 0x63] = 0xaa75e9ff ∧
  digest32 0x9747b28c [0x54, 0x68, 0x65, 0x20, 0x71, 0x75, 0x69, 0x63, 0x6b, 0x20, 0x62, 0x72, 0x6f, 0x77, 0x6e, 0x20,
    0x66, 0x6f, 0x78, 0x20, 0x6a, 0x75, 0x6d, 0x70, 0x73, 0x20, 0x6f, 0x76, 0x65, 0x72, 0x20, 0x74, 0x68, 0x65, 0x20,
    0x6c, 0x61, 0x7a, 0x79, 0x20, 0x64, 0x6f, 0x67] = 0x2fa826cd ∧
  digest32 0 [0x00, 0x00, 0x00, 0x00] = 0x2362f9de ∧ digest32 0 [0xff, 0xff, 0xff, 0xff] = 0x76293b50 ∧
  digest32 0 [0x21, 0x43, 0x65, 0x87] = 0xf55b516b ∧ digest32 0 [0x21, 0x43, 0x65] = 0x7e4a8634 ∧
  digest32 0 [0x21, 0x43] = 0xa0f7b07a

/-- R158: feeding any chunks and finalizing gives the digest of their concatenation. -/
def Obligations.StreamingEquivalence : Prop :=
  ∀ (seed : Word) (chunks : List (List Byte)),
    (chunks.foldl AccRun.feed (AccRun.start seed)).finalize = digest32 seed chunks.flatten

/-- R160, R156, R257: HRESET (`0x00000003 + SA×256`) puts accumulator `j = ARG0` in its reset state, open, with its
seed, which is `j`; nothing else of the slot, no other slot and no port changes; its errors are `E_SLOT` and `E_INDEX`,
in that order. -/
def Obligations.HresetResetsOneAccumulator : Prop :=
  ∀ (s : State) (sa : Nat),
    (sa < 16 → encode (.hreset sa) = BitVec.ofNat 32 (0x00000003 + sa * 256)) ∧
    (s.nslots ≤ sa → FailsCleanly (.hreset sa) s 0x022) ∧
    (sa < s.nslots → s.slot sa = none → FailsCleanly (.hreset sa) s 0x122) ∧
    (∀ f, s.slot sa = some f → f.k.toNat ≤ s.regs.arg0.toNat → FailsCleanly (.hreset sa) s 0x032) ∧
    (∀ f a, s.slot sa = some f → s.regs.arg0.toNat < f.k.toNat → f.acc[s.regs.arg0.toNat]? = some a →
      ∃ t g, exec (.hreset sa) s = .next t ∧ Reports t 0x000 0 0 0 ∧ t.slot sa = some g ∧ SameBits f g ∧
        g.acc[s.regs.arg0.toNat]? =
          some { seed := a.seed, run := some { h := a.seed, length := 0, tail := [] } } ∧
        (f.wf s.cfg → a.seed = s.regs.arg0) ∧
        (∀ j, j ≠ s.regs.arg0.toNat → g.acc[j]? = f.acc[j]?) ∧
        SameSlotsBut sa s t ∧ t.ports = s.ports ∧ SameOperands s t ∧ SameOutside s t)

/-- R161, R154, R28: HFEED (`0x00000004 + SA×256`) takes the KEY buffer in every case; it appends it to the stream of
accumulator `j = ARG0`, which stays open; nothing else of the slot and no other slot changes; its errors are `E_SLOT`,
`E_INDEX` and `E_PROTOCOL`, in that order. -/
def Obligations.HfeedAppendsTheKey : Prop :=
  ∀ (s : State) (sa : Nat) (key : List Byte) (later : List (List Byte)), s.ports.keys = key :: later →
    (sa < 16 → encode (.hfeed sa) = BitVec.ofNat 32 (0x00000004 + sa * 256)) ∧
    (s.nslots ≤ sa → FailsTakingKey (.hfeed sa) s 0x022) ∧
    (sa < s.nslots → s.slot sa = none → FailsTakingKey (.hfeed sa) s 0x122) ∧
    (∀ f, s.slot sa = some f → f.k.toNat ≤ s.regs.arg0.toNat → FailsTakingKey (.hfeed sa) s 0x032) ∧
    (∀ f a, s.slot sa = some f → s.regs.arg0.toNat < f.k.toNat → f.acc[s.regs.arg0.toNat]? = some a →
      (a.run = none → FailsTakingKey (.hfeed sa) s 0x042) ∧
      (∀ r T, a.run = some r → r.Holds a.seed T →
        ∃ t g r', exec (.hfeed sa) s = .next t ∧ Reports t 0x000 0 0 0 ∧ t.slot sa = some g ∧ SameBits f g ∧
          g.acc[s.regs.arg0.toNat]? = some { seed := a.seed, run := some r' } ∧ r'.Holds a.seed (T ++ key) ∧
          (∀ j, j ≠ s.regs.arg0.toNat → g.acc[j]? = f.acc[j]?) ∧
          SameSlotsBut sa s t ∧ KeyTaken s t ∧ SameOperands s t ∧ SameOutside s t))

/-- R162, R155, R157: HFINAL (`0x00000005 + SA×256`) answers the digest of the stream of accumulator `j = ARG0` and
closes it; nothing else of the slot, no other slot and no port changes; its errors are `E_SLOT`, `E_INDEX` and
`E_PROTOCOL`, in that order. -/
def Obligations.HfinalAnswersTheDigest : Prop :=
  ∀ (s : State) (sa : Nat),
    (sa < 16 → encode (.hfinal sa) = BitVec.ofNat 32 (0x00000005 + sa * 256)) ∧
    (s.nslots ≤ sa → FailsCleanly (.hfinal sa) s 0x022) ∧
    (sa < s.nslots → s.slot sa = none → FailsCleanly (.hfinal sa) s 0x122) ∧
    (∀ f, s.slot sa = some f → f.k.toNat ≤ s.regs.arg0.toNat → FailsCleanly (.hfinal sa) s 0x032) ∧
    (∀ f a, s.slot sa = some f → s.regs.arg0.toNat < f.k.toNat → f.acc[s.regs.arg0.toNat]? = some a →
      (a.run = none → FailsCleanly (.hfinal sa) s 0x042) ∧
      (∀ r T, a.run = some r → r.Holds a.seed T →
        ∃ t g, exec (.hfinal sa) s = .next t ∧ Reports t 0x000 (digest32 a.seed T) 0 0 ∧ t.slot sa = some g ∧
          SameBits f g ∧ g.acc[s.regs.arg0.toNat]? = some { seed := a.seed, run := none } ∧
          (∀ j, j ≠ s.regs.arg0.toNat → g.acc[j]? = f.acc[j]?) ∧
          SameSlotsBut sa s t ∧ t.ports = s.ports ∧ SameOperands s t ∧ SameOutside s t))

/-- R162, R27, R304: after an HFINAL of accumulator `j`, or an ADD or CONTAINS on its slot, has succeeded, an HFINAL
of `j` ends with `E_PROTOCOL` and changes nothing. -/
def Obligations.ClosedAccumulatorRefusesHfinal : Prop :=
  ∀ (i : Instr) (s t : State) (sa : Nat) (f : Filter), (i = .hfinal sa ∨ i = .add sa ∨ i = .contains sa) →
    s.slot sa = some f → f.wf s.cfg → s.regs.arg0.toNat < f.k.toNat →
    exec i s = .next t → t.regs.status = 0x000 → FailsCleanly (.hfinal sa) t 0x042

/-! Construction and membership. -/

/-- R181, R180: NEW (`0x00000006 + SA×256`) on an empty slot puts there a filter of `m = BitCount(n, p)` zero bits and
`k = HashCount(m, n)` accumulators, accumulator `j` with seed `j`, open and in its reset state. `m` and `k` are the exact
ceilings of R131 and R133 over the real numbers. -/
def Obligations.NewConstructsAZeroFilter : Prop :=
  ∀ (s : State) (sa m k : Nat) (q : ℚ), sa < s.nslots → s.slot sa = none → s.regs.arg0 ≠ 0 →
    pval (s.regs.arg3 ++ s.regs.arg2) = some q → 0 < q → q < 1 →
    m = ⌈-(s.regs.arg0.toNat : ℝ) * Real.log q / Real.log 2 ^ 2⌉₊ →
    k = ⌈Real.log 2 * (m : ℝ) / (s.regs.arg0.toNat : ℝ)⌉₊ → m ≤ 2 ^ 32 - 1 → m ≤ s.cfg.mMax → k ≤ s.cfg.kMax →
    (sa < 16 → encode (.new sa) = BitVec.ofNat 32 (0x00000006 + sa * 256)) ∧
    ∃ t g, exec (.new sa) s = .next t ∧
      Reports t 0x000 0 (BitVec.ofNat 32 m) (BitVec.ofNat 32 k) ∧ t.slot sa = some g ∧ g.m.toNat = m ∧
      g.k.toNat = k ∧ g.bits.length = m ∧ (∀ i, bitRead g.bits i = false) ∧ g.acc.length = k ∧
      (∀ j, j < k → g.acc[j]? = some
        { seed := BitVec.ofNat 32 j, run := some { h := BitVec.ofNat 32 j, length := 0, tail := [] } }) ∧
      SameSlotsBut sa s t ∧ t.ports = s.ports ∧ SameOperands s t ∧ SameOutside s t

/-- R181, R256, R259, R263: the errors of NEW, each when no earlier one applies; the slot stays as it was. `m` and `k`
are the exact ceilings of R131 and R133. -/
def Obligations.NewErrors : Prop :=
  ∀ (s : State) (sa : Nat),
    (s.nslots ≤ sa → FailsCleanly (.new sa) s 0x022) ∧
    (∀ f, s.slot sa = some f → FailsCleanly (.new sa) s 0x222) ∧
    (sa < s.nslots → s.slot sa = none →
      (s.regs.arg0 = 0 ∨ (s.regs.arg3 ++ s.regs.arg2).toNat = 0 ∨
        0x3FEFFFFFFFFFFFFF < (s.regs.arg3 ++ s.regs.arg2).toNat → FailsCleanly (.new sa) s 0x052) ∧
      (∀ (q : ℚ) (m : Nat), s.regs.arg0 ≠ 0 → pval (s.regs.arg3 ++ s.regs.arg2) = some q → 0 < q → q < 1 →
        m = ⌈-(s.regs.arg0.toNat : ℝ) * Real.log q / Real.log 2 ^ 2⌉₊ →
        (2 ^ 32 - 1 < m ∨ s.cfg.mMax < m → FailsCleanly (.new sa) s 0x152) ∧
        (m ≤ 2 ^ 32 - 1 → m ≤ s.cfg.mMax →
          s.cfg.kMax < ⌈Real.log 2 * (m : ℝ) / (s.regs.arg0.toNat : ℝ)⌉₊ → FailsCleanly (.new sa) s 0x252)))

/-- R183: DROP (`0x00000007 + SA×256`) leaves the slot empty, whatever it held, and is no error on an empty slot; a slot
number out of range is `E_SLOT`. -/
def Obligations.DropEmptiesTheSlot : Prop :=
  ∀ (s : State) (sa : Nat),
    (sa < 16 → encode (.drop sa) = BitVec.ofNat 32 (0x00000007 + sa * 256)) ∧
    (s.nslots ≤ sa → FailsCleanly (.drop sa) s 0x022) ∧
    (sa < s.nslots → ∃ t, exec (.drop sa) s = .next t ∧ Reports t 0x000 0 0 0 ∧ t.slot sa = none ∧
      SameSlotsBut sa s t ∧ t.ports = s.ports ∧ SameOperands s t ∧ SameOutside s t)

/-- R185, R184: ADD (`0x00000008 + SA×256`) takes the key in every case; it sets exactly the bits
`Digest32(j, key) mod m`, `j < k`, closes every accumulator of the slot, and changes nothing else. On a valid slot it
cannot fail, for any key; its errors are those of `E_SLOT`. -/
def Obligations.AddSetsTheIndexSet : Prop :=
  ∀ (s : State) (sa : Nat) (key : List Byte) (later : List (List Byte)), s.ports.keys = key :: later →
    (sa < 16 → encode (.add sa) = BitVec.ofNat 32 (0x00000008 + sa * 256)) ∧
    (s.nslots ≤ sa → FailsTakingKey (.add sa) s 0x022) ∧
    (sa < s.nslots → s.slot sa = none → FailsTakingKey (.add sa) s 0x122) ∧
    (∀ f, s.slot sa = some f → f.wf s.cfg →
      ∃ t g, exec (.add sa) s = .next t ∧ Reports t 0x000 0 0 0 ∧ t.slot sa = some g ∧ g.m = f.m ∧ g.k = f.k ∧
        g.bits.length = f.bits.length ∧
        (∀ i, bitRead g.bits i = true ↔ bitRead f.bits i = true ∨ ∃ j, j < f.k.toNat ∧ keyIndex f.m j key = i) ∧
        g.acc.map Acc.seed = f.acc.map Acc.seed ∧ (∀ a ∈ g.acc, a.isOpen = false) ∧
        SameSlotsBut sa s t ∧ KeyTaken s t ∧ SameOperands s t ∧ SameOutside s t)

/-- R187, R184: CONTAINS (`0x00000009 + SA×256`) takes the key in every case; it answers 1 exactly when every bit of the
key's index set is set; no bit changes, and every accumulator of the slot is closed; its errors are those of
`E_SLOT`. -/
def Obligations.ContainsAnswersTheConjunction : Prop :=
  ∀ (s : State) (sa : Nat) (key : List Byte) (later : List (List Byte)), s.ports.keys = key :: later →
    (sa < 16 → encode (.contains sa) = BitVec.ofNat 32 (0x00000009 + sa * 256)) ∧
    (s.nslots ≤ sa → FailsTakingKey (.contains sa) s 0x022) ∧
    (sa < s.nslots → s.slot sa = none → FailsTakingKey (.contains sa) s 0x122) ∧
    (∀ f, s.slot sa = some f → f.wf s.cfg →
      ∃ t g, exec (.contains sa) s = .next t ∧ (f.Has key → Reports t 0x000 1 0 0) ∧
        (¬ f.Has key → Reports t 0x000 0 0 0) ∧ t.slot sa = some g ∧ SameBits f g ∧
        g.acc.map Acc.seed = f.acc.map Acc.seed ∧ (∀ a ∈ g.acc, a.isOpen = false) ∧
        SameSlotsBut sa s t ∧ KeyTaken s t ∧ SameOperands s t ∧ SameOutside s t)

/-- R188: no false negatives. After an ADD of a key, CONTAINS of that key answers 1 after any number of steps through
which the slot goes on holding a filter, whatever the host and the core did in them. -/
def Obligations.NoFalseNegatives : Prop :=
  ∀ (s t u : State) (sa : Nat) (f : Filter) (key : List Byte) (later later' : List (List Byte)), s.Inv →
    s.ports.keys = key :: later → s.slot sa = some f → exec (.add sa) s = .next t → StepsHolding sa t u →
    u.ports.keys = key :: later' →
    ∃ v, exec (.contains sa) u = .next v ∧ Reports v 0x000 1 0 0

/-- R22: in no step does a slot that holds a filter before and after change its `m` or `k`, or a bit of it go from 1 to
0. -/
def Obligations.BitsOnlyRise : Prop :=
  ∀ (s t : State) (a : Nat) (f g : Filter), s.Inv → step s = .next t → s.slot a = some f → t.slot a = some g →
    g.m = f.m ∧ g.k = f.k ∧ ∀ i, bitRead f.bits i = true → bitRead g.bits i = true

/-- R23: the only commands that write a bit array are ADD and UNION, which only change a 0 to a 1, NEW and DESERIALIZE,
which create a whole filter in an empty slot, and DROP, which removes a whole filter. -/
def Obligations.WhoWritesABitArray : Prop :=
  ∀ (i : Instr) (s t : State) (a : Nat), s.Inv → exec i s = .next t →
    (∀ f g, s.slot a = some f → t.slot a = some g →
      (∀ j, bitRead f.bits j = true → bitRead g.bits j = true) ∧
      (g.bits ≠ f.bits → i = .add a ∨ ∃ b, i = .union a b)) ∧
    (∀ g, s.slot a = none → t.slot a = some g → i = .new a ∨ i = .deserialize a) ∧
    (∀ f, s.slot a = some f → t.slot a = none → i = .drop a)

/-! The codec. -/

/-- R17, R114: `cdiv8(m)` is `ceil(m / 8)` for every `u32`, and at most `2^29`; the serialized form has exactly
`8 + cdiv8(m)` bytes, between 9 and 536870920 for `m ≥ 1`, whatever `k`. -/
def Obligations.BodyLengthIsTheCeiling : Prop :=
  ∀ m : Word, cdiv8 m = (m.toNat + 7) / 8 ∧ cdiv8 m ≤ 536870912 ∧
    ∀ k bits, (pack m k bits).length = 8 + cdiv8 m ∧ (pack m k bits).length ≤ 536870920 ∧
      (1 ≤ m.toNat → 9 ≤ (pack m k bits).length)

/-- R112, R113, R68: the body is `cdiv8(m)` bytes from stream offset 8; bit index `8b + j` is in body byte `b` at weight
`2^(7-j)`, and positions of the last byte that have no index hold 0. -/
def Obligations.BodyBitsAreMsbFirst : Prop :=
  ∀ (m k : Word) (bits : List Bool), (bodyBytes m bits).length = cdiv8 m ∧ (pack m k bits).drop 8 = bodyBytes m bits ∧
    ∀ b j, b < cdiv8 m → j < 8 →
      ((bodyBytes m bits).getD b 0).getLsbD (7 - j) = (decide (8 * b + j < m.toNat) && bitRead bits (8 * b + j))

/-- R115, R111: the stream is the eight header bytes, those of `m` and then those of `k`, each least significant byte
first, and the body; unpacking reads bit `i` from body byte `i / 8` by
one formula for every index; and it inverts packing, for every residue of `m` modulo 8. -/
def Obligations.UnpackInvertsPack : Prop :=
  (∀ (m k : Word) (bits : List Bool), pack m k bits =
    [BitVec.ofNat 8 m.toNat, BitVec.ofNat 8 (m.toNat / 256), BitVec.ofNat 8 (m.toNat / 65536),
      BitVec.ofNat 8 (m.toNat / 16777216), BitVec.ofNat 8 k.toNat, BitVec.ofNat 8 (k.toNat / 256),
      BitVec.ofNat 8 (k.toNat / 65536), BitVec.ofNat 8 (k.toNat / 16777216)] ++ bodyBytes m bits) ∧
  (∀ (m : Nat) (body : List Byte), (unpackBits m body).length = m ∧
    ∀ i, i < m → bitRead (unpackBits m body) i = (body.getD (i / 8) 0).getLsbD (7 - i % 8)) ∧
  (∀ (m k : Word) (bits : List Bool), bits.length = m.toNat →
    headerM ((pack m k bits).take 8) = m ∧ headerK ((pack m k bits).take 8) = k ∧
    unpackBits m.toNat ((pack m k bits).drop 8) = bits)

/-- R215, R226: SERIALIZE (`0x0000000A + SA×256`) with a sink that takes the whole stream writes exactly
`Pack(m, k, bits)` and reports its length, `m` and `k`; with one that rejects after `n` bytes of a longer stream it ends
with `E_IO_HEADER` (`n < 8`) or `E_IO_BODY`, reports `n`, and the sink holds the first `n` bytes and no more; no slot
changes; its first errors are those of `E_SLOT`. -/
def Obligations.SerializeWritesThePack : Prop :=
  ∀ (s : State) (sa : Nat),
    (sa < 16 → encode (.serialize sa) = BitVec.ofNat 32 (0x0000000A + sa * 256)) ∧
    (s.nslots ≤ sa → FailsCleanly (.serialize sa) s 0x022) ∧
    (sa < s.nslots → s.slot sa = none → FailsCleanly (.serialize sa) s 0x122) ∧
    (∀ f, s.slot sa = some f → s.ports.snkReady = true →
      ((s.ports.accept = none ∨ ∃ n, s.ports.accept = some n ∧ 8 + cdiv8 f.m ≤ n) →
        ∃ t, exec (.serialize sa) s = .next t ∧ Reports t 0x000 (BitVec.ofNat 32 (8 + cdiv8 f.m)) f.m f.k ∧
          t.ports.snk = s.ports.snk ++ pack f.m f.k f.bits ∧
          t.ports.accept = s.ports.accept.map (fun n => n - (8 + cdiv8 f.m)) ∧
          t.slots = s.slots ∧ SamePortsButSink s t ∧ SameOperands s t ∧ SameOutside s t) ∧
      (∀ n, s.ports.accept = some n → n < 8 + cdiv8 f.m →
        ∃ t, exec (.serialize sa) s = .next t ∧
          Reports t (if n < 8 then 0x062 else 0x072) (BitVec.ofNat 32 n) 0 0 ∧
          t.ports.snk = s.ports.snk ++ (pack f.m f.k f.bits).take n ∧ t.ports.accept = some 0 ∧
          t.slots = s.slots ∧ SamePortsButSink s t ∧ SameOperands s t ∧ SameOutside s t))

/-- R220, R221, R222: DESERIALIZE (`0x0000000B + SA×256`) into an empty slot of a source that holds a complete stream
consumes exactly that stream and creates the filter it describes, its accumulators fresh and open; bytes behind it stay,
and padding bits are ignored. Its errors, each when no earlier one applies, leave the slot empty and report the count of
the bytes consumed, which are gone from the source. -/
def Obligations.DeserializeCreatesTheFilter : Prop :=
  ∀ (s : State) (sa : Nat),
    (sa < 16 → encode (.deserialize sa) = BitVec.ofNat 32 (0x0000000B + sa * 256)) ∧
    (s.nslots ≤ sa → FailsCleanly (.deserialize sa) s 0x022) ∧
    (∀ f, s.slot sa = some f → FailsCleanly (.deserialize sa) s 0x222) ∧
    (sa < s.nslots → s.slot sa = none →
      (s.ports.srcEnded = true → s.ports.src.length < 8 →
        FailsReading (.deserialize sa) s 0x082 s.ports.src.length []) ∧
      (∀ m k rest, s.ports.src = headerBytes m k ++ rest →
        ((m = 0 ∨ k = 0 ∨ s.cfg.mMax < m.toNat ∨ s.cfg.kMax < k.toNat) →
          FailsReading (.deserialize sa) s 0x282 8 rest) ∧
        (m ≠ 0 → k ≠ 0 → m.toNat ≤ s.cfg.mMax → k.toNat ≤ s.cfg.kMax →
          (s.ports.srcEnded = true → rest.length < cdiv8 m →
            FailsReading (.deserialize sa) s 0x182 (8 + rest.length) []) ∧
          (cdiv8 m ≤ rest.length →
            ∃ t g, exec (.deserialize sa) s = .next t ∧ Reports t 0x000 (BitVec.ofNat 32 (8 + cdiv8 m)) m k ∧
              t.slot sa = some g ∧ g.m = m ∧ g.k = k ∧ g.bits.length = m.toNat ∧
              (∀ i, i < m.toNat → bitRead g.bits i = (rest.getD (i / 8) 0).getLsbD (7 - i % 8)) ∧
              g.acc.length = k.toNat ∧
              (∀ j, j < k.toNat → g.acc[j]? = some
                { seed := BitVec.ofNat 32 j, run := some { h := BitVec.ofNat 32 j, length := 0, tail := [] } }) ∧
              t.ports.src = rest.drop (cdiv8 m) ∧ SamePortsButSrc s t ∧ SameSlotsBut sa s t ∧ SameOperands s t ∧
              SameOutside s t))))

/-- R225: the round trip. What a successful SERIALIZE of slot `a` adds to the sink, read back by DESERIALIZE into an
empty slot `b` of any core of the same capacity, gives a filter with the same `m`, `k` and bits, its accumulators fresh
and open, of which CONTAINS answers the same for every key; and exactly those bytes are consumed. -/
def Obligations.SerializeDeserializeRoundTrip : Prop :=
  ∀ (s t u : State) (a b : Nat) (f : Filter) (w rest : List Byte), s.Inv → s.slot a = some f →
    exec (.serialize a) s = .next t → t.regs.status = 0x000 → t.ports.snk = s.ports.snk ++ w →
    u.cfg = s.cfg → b < u.nslots → u.slot b = none → u.ports.src = w ++ rest →
    ∃ v g, exec (.deserialize b) u = .next v ∧ Reports v 0x000 (BitVec.ofNat 32 w.length) f.m f.k ∧
      w.length = 8 + cdiv8 f.m ∧ v.slot b = some g ∧ SameBits f g ∧ v.ports.src = rest ∧
      (∀ key, g.Has key ↔ f.Has key) ∧
      (∀ j, j < f.k.toNat → g.acc[j]? = some
        { seed := BitVec.ofNat 32 j, run := some { h := BitVec.ofNat 32 j, length := 0, tail := [] } })

/-- R305: no proper prefix of a serialized filter is accepted: `E_DESER` with `EINFO = 0` below 8 bytes, `EINFO = 1`
otherwise, and the slot stays empty. -/
def Obligations.ProperPrefixesAreRejected : Prop :=
  ∀ (s : State) (sa n : Nat) (f : Filter), f.wf s.cfg → sa < s.nslots → s.slot sa = none →
    s.ports.srcEnded = true → s.ports.src = (pack f.m f.k f.bits).take n → n < 8 + cdiv8 f.m →
    FailsWith (.deserialize sa) s (if n < 8 then 0x082 else 0x182) (BitVec.ofNat 32 n)

/-! Union. -/

/-- R241, R262: UNION (`0x0000000C + SA×256 + SB×4096`) of two filters of one shape ORs every bit of the second into the
first and changes nothing else: not `m`, not `k`, no accumulator, no other slot, no port. Its errors, each when no
earlier one applies, are `E_SLOT` and `E_SHAPE`, and change neither operand. -/
def Obligations.UnionOrsTheBits : Prop :=
  ∀ (s : State) (sa sb : Nat), s.Inv →
    (sa < 16 → sb < 16 → encode (.union sa sb) = BitVec.ofNat 32 (0x0000000C + sa * 256 + sb * 4096)) ∧
    (s.nslots ≤ sa ∨ s.nslots ≤ sb → FailsCleanly (.union sa sb) s 0x022) ∧
    (sa < s.nslots → sb < s.nslots → s.slot sa = none ∨ s.slot sb = none →
      FailsCleanly (.union sa sb) s 0x122) ∧
    (∀ f g, s.slot sa = some f → s.slot sb = some g →
      (f.m ≠ g.m ∨ f.k ≠ g.k → FailsCleanly (.union sa sb) s 0x092) ∧
      (f.m = g.m → f.k = g.k →
        ∃ t h, exec (.union sa sb) s = .next t ∧ Reports t 0x000 0 0 0 ∧ t.slot sa = some h ∧ h.m = f.m ∧
          h.k = f.k ∧ h.acc = f.acc ∧ h.bits.length = f.bits.length ∧
          (∀ i, bitRead h.bits i = (bitRead f.bits i || bitRead g.bits i)) ∧
          SameSlotsBut sa s t ∧ t.ports = s.ports ∧ SameOperands s t ∧ SameOutside s t))

/-- R242, R245: UNION of a slot with itself changes no slot, and neither does repeating a UNION. -/
def Obligations.UnionIsIdempotent : Prop :=
  (∀ (s : State) (sa : Nat) (f : Filter), s.slot sa = some f →
    ∃ t, exec (.union sa sa) s = .next t ∧ Reports t 0x000 0 0 0 ∧ t.slots = s.slots ∧ t.ports = s.ports ∧
      SameOperands s t ∧ SameOutside s t) ∧
  (∀ (s t : State) (sa sb : Nat), s.Inv → exec (.union sa sb) s = .next t → t.regs.status = 0x000 →
    ∃ u, exec (.union sa sb) t = .next u ∧ Reports u 0x000 0 0 0 ∧ u.slots = t.slots)

/-- R245: unions with different operands commute on the receiver's bits. -/
def Obligations.UnionsCommute : Prop :=
  ∀ (s t1 u1 t2 u2 : State) (sa sb sc : Nat), s.Inv → sb ≠ sa → sc ≠ sa →
    exec (.union sa sb) s = .next t1 → t1.regs.status = 0x000 →
    exec (.union sa sc) t1 = .next u1 → u1.regs.status = 0x000 →
    exec (.union sa sc) s = .next t2 → exec (.union sa sb) t2 = .next u2 → u1.slots = u2.slots

/-- R243: after a successful `UNION sa, sb` every key for which CONTAINS on `sa` or on `sb` would have answered 1 before
it is one for which CONTAINS on `sa` answers 1. -/
def Obligations.UnionKeepsEveryKey : Prop :=
  ∀ (s t : State) (sa sb : Nat) (key : List Byte), s.Inv → exec (.union sa sb) s = .next t →
    t.regs.status = 0x000 →
    (∃ a v, (a = sa ∨ a = sb) ∧ exec (.contains a) { s with ports := { s.ports with keys := [key] } } = .next v ∧
      Reports v 0x000 1 0 0) →
    ∃ u, exec (.contains sa) { t with ports := { t.ports with keys := [key] } } = .next u ∧ Reports u 0x000 1 0 0

/-- R244, R185: the merged array is bit for bit the one that adding both key sets to one empty filter of that shape
gives. -/
def Obligations.UnionEqualsAddingBothKeySets : Prop :=
  ∀ (m k : Nat) (keys keys' : List (List Byte)), 1 ≤ m → m ≤ 2 ^ 32 - 1 → 1 ≤ k → k ≤ 2 ^ 32 - 1 →
    orBits (keys.foldl Filter.addKey (Filter.construct m k (List.replicate m false))).bits
        (keys'.foldl Filter.addKey (Filter.construct m k (List.replicate m false))).bits =
      ((keys ++ keys').foldl Filter.addKey (Filter.construct m k (List.replicate m false))).bits

/-! Invariants. -/

/-- R22, R28, R32, R38: the state after reset satisfies the invariants. -/
def Obligations.ResetIsLegal : Prop := State.reset.Inv ∧ State.reset.StreamInv

/-- R22, R32: every step keeps the invariant, from every state that satisfies it. -/
def Obligations.StepKeepsInv : Prop :=
  ∀ s t : State, s.Inv → step s = .next t → t.Inv

/-- R28, R160, R161, R22: the stream of an accumulator through a step, from every legal state. If it is open after the
step, then: where the step is a successful HRESET of it, it holds the empty sequence; where it is a successful HFEED of it, it
was open, and if it held `T` it now holds `T` followed by the KEY buffer that was pending; in every other step it is as it was,
so that it holds what it held. An open accumulator of a filter that the step has put into an empty slot holds the empty
sequence. -/
def Obligations.StepCarriesTheStream : Prop :=
  ∀ (s t : State) (a j : Nat) (g : Filter) (y : Acc) (r : AccRun), s.Inv → step s = .next t → t.slot a = some g →
    g.acc[j]? = some y → y.run = some r →
    (s.slot a = none → r.Holds y.seed []) ∧
    (∀ f x, s.slot a = some f → f.acc[j]? = some x → y.seed = x.seed ∧
      (Succeeded (.hreset a) s t → s.regs.arg0.toNat = j → r.Holds x.seed []) ∧
      (Succeeded (.hfeed a) s t → s.regs.arg0.toNat = j → ∃ key later r', s.ports.keys = key :: later ∧
        x.run = some r' ∧ ∀ T, r'.Holds x.seed T → r.Holds x.seed (T ++ key)) ∧
      (¬ ((Succeeded (.hreset a) s t ∨ Succeeded (.hfeed a) s t) ∧ s.regs.arg0.toNat = j) → x.run = some r))
end

