-- ==== Sys2Proof/Laws/State.lean ====
section
/-! SUPPORT. What each named update leaves and writes, field by field (spec/10_state.md R20, R30). -/

namespace Sys2Proof.Machine

variable (s : State)

@[simp] theorem State.setSlot_cfg (a : Nat) (o : Option Filter) : (s.setSlot a o).cfg = s.cfg := rfl
@[simp] theorem State.setSlot_slots (a : Nat) (o : Option Filter) : (s.setSlot a o).slots = s.slots.set a o := rfl
@[simp] theorem State.setSlot_regs (a : Nat) (o : Option Filter) : (s.setSlot a o).regs = s.regs := rfl
@[simp] theorem State.setSlot_ports (a : Nat) (o : Option Filter) : (s.setSlot a o).ports = s.ports := rfl
@[simp] theorem State.setSlot_host (a : Nat) (o : Option Filter) : (s.setSlot a o).host = s.host := rfl
@[simp] theorem State.setSlot_lastRead (a : Nat) (o : Option Filter) : (s.setSlot a o).lastRead = s.lastRead := rfl
@[simp] theorem State.setSlot_draws (a : Nat) (o : Option Filter) : (s.setSlot a o).draws = s.draws := rfl

@[simp] theorem State.takeKey_cfg : (s.takeKey).cfg = s.cfg := rfl
@[simp] theorem State.takeKey_slots : (s.takeKey).slots = s.slots := rfl
@[simp] theorem State.takeKey_regs : (s.takeKey).regs = s.regs := rfl
@[simp] theorem State.takeKey_host : (s.takeKey).host = s.host := rfl
@[simp] theorem State.takeKey_lastRead : (s.takeKey).lastRead = s.lastRead := rfl
@[simp] theorem State.takeKey_draws : (s.takeKey).draws = s.draws := rfl

@[simp] theorem State.srcDrop_cfg (n : Nat) : (s.srcDrop n).cfg = s.cfg := rfl
@[simp] theorem State.srcDrop_slots (n : Nat) : (s.srcDrop n).slots = s.slots := rfl
@[simp] theorem State.srcDrop_regs (n : Nat) : (s.srcDrop n).regs = s.regs := rfl
@[simp] theorem State.srcDrop_host (n : Nat) : (s.srcDrop n).host = s.host := rfl
@[simp] theorem State.srcDrop_lastRead (n : Nat) : (s.srcDrop n).lastRead = s.lastRead := rfl
@[simp] theorem State.srcDrop_draws (n : Nat) : (s.srcDrop n).draws = s.draws := rfl

@[simp] theorem State.snkWrite_cfg (bytes : List Byte) : (s.snkWrite bytes).cfg = s.cfg := rfl
@[simp] theorem State.snkWrite_slots (bytes : List Byte) : (s.snkWrite bytes).slots = s.slots := rfl
@[simp] theorem State.snkWrite_regs (bytes : List Byte) : (s.snkWrite bytes).regs = s.regs := rfl
@[simp] theorem State.snkWrite_ports (bytes : List Byte) : (s.snkWrite bytes).ports = s.ports.snkWrite bytes := rfl
@[simp] theorem State.snkWrite_host (bytes : List Byte) : (s.snkWrite bytes).host = s.host := rfl
@[simp] theorem State.snkWrite_lastRead (bytes : List Byte) : (s.snkWrite bytes).lastRead = s.lastRead := rfl
@[simp] theorem State.snkWrite_draws (bytes : List Byte) : (s.snkWrite bytes).draws = s.draws := rfl

@[simp] theorem State.complete_cfg (st r0 r1 r2 : Word) : (s.complete st r0 r1 r2).cfg = s.cfg := rfl
@[simp] theorem State.complete_slots (st r0 r1 r2 : Word) : (s.complete st r0 r1 r2).slots = s.slots := rfl
@[simp] theorem State.complete_ports (st r0 r1 r2 : Word) : (s.complete st r0 r1 r2).ports = s.ports := rfl
@[simp] theorem State.complete_host (st r0 r1 r2 : Word) : (s.complete st r0 r1 r2).host = s.host := rfl
@[simp] theorem State.complete_lastRead (st r0 r1 r2 : Word) : (s.complete st r0 r1 r2).lastRead = s.lastRead := rfl
@[simp] theorem State.complete_draws (st r0 r1 r2 : Word) : (s.complete st r0 r1 r2).draws = s.draws := rfl

@[simp] theorem State.waiting_cfg : (s.waiting).cfg = s.cfg := rfl
@[simp] theorem State.waiting_slots : (s.waiting).slots = s.slots := rfl
@[simp] theorem State.waiting_ports : (s.waiting).ports = s.ports := rfl
@[simp] theorem State.waiting_host : (s.waiting).host = s.host := rfl
@[simp] theorem State.waiting_lastRead : (s.waiting).lastRead = s.lastRead := rfl
@[simp] theorem State.waiting_draws : (s.waiting).draws = s.draws := rfl

@[simp] theorem State.hardReset_cfg : (s.hardReset).cfg = s.cfg := rfl
@[simp] theorem State.hardReset_slots : (s.hardReset).slots = List.replicate s.nslots none := rfl
@[simp] theorem State.hardReset_regs : (s.hardReset).regs = HostRegs.zero := rfl
@[simp] theorem State.hardReset_ports : (s.hardReset).ports = s.ports := rfl
@[simp] theorem State.hardReset_host : (s.hardReset).host = s.host := rfl
@[simp] theorem State.hardReset_lastRead : (s.hardReset).lastRead = s.lastRead := rfl
@[simp] theorem State.hardReset_draws : (s.hardReset).draws = s.draws := rfl

@[simp] theorem State.complete_regs_cmd (st r0 r1 r2 : Word) : (s.complete st r0 r1 r2).regs.cmd = s.regs.cmd := rfl
@[simp] theorem State.complete_regs_status (st r0 r1 r2 : Word) : (s.complete st r0 r1 r2).regs.status = st := rfl
@[simp] theorem State.complete_regs_arg0 (st r0 r1 r2 : Word) : (s.complete st r0 r1 r2).regs.arg0 = s.regs.arg0 := rfl
@[simp] theorem State.complete_regs_arg1 (st r0 r1 r2 : Word) : (s.complete st r0 r1 r2).regs.arg1 = s.regs.arg1 := rfl
@[simp] theorem State.complete_regs_arg2 (st r0 r1 r2 : Word) : (s.complete st r0 r1 r2).regs.arg2 = s.regs.arg2 := rfl
@[simp] theorem State.complete_regs_arg3 (st r0 r1 r2 : Word) : (s.complete st r0 r1 r2).regs.arg3 = s.regs.arg3 := rfl
@[simp] theorem State.complete_regs_res0 (st r0 r1 r2 : Word) : (s.complete st r0 r1 r2).regs.res0 = r0 := rfl
@[simp] theorem State.complete_regs_res1 (st r0 r1 r2 : Word) : (s.complete st r0 r1 r2).regs.res1 = r1 := rfl
@[simp] theorem State.complete_regs_res2 (st r0 r1 r2 : Word) : (s.complete st r0 r1 r2).regs.res2 = r2 := rfl

@[simp] theorem State.waiting_regs_cmd : (s.waiting).regs.cmd = s.regs.cmd := rfl
@[simp] theorem State.waiting_regs_status : (s.waiting).regs.status = statusSetBusy s.regs.status := rfl
@[simp] theorem State.waiting_regs_arg0 : (s.waiting).regs.arg0 = s.regs.arg0 := rfl
@[simp] theorem State.waiting_regs_arg1 : (s.waiting).regs.arg1 = s.regs.arg1 := rfl
@[simp] theorem State.waiting_regs_arg2 : (s.waiting).regs.arg2 = s.regs.arg2 := rfl
@[simp] theorem State.waiting_regs_arg3 : (s.waiting).regs.arg3 = s.regs.arg3 := rfl
@[simp] theorem State.waiting_regs_res0 : (s.waiting).regs.res0 = s.regs.res0 := rfl
@[simp] theorem State.waiting_regs_res1 : (s.waiting).regs.res1 = s.regs.res1 := rfl
@[simp] theorem State.waiting_regs_res2 : (s.waiting).regs.res2 = s.regs.res2 := rfl

@[simp] theorem State.takeKey_ports_keys : (s.takeKey).ports.keys = s.ports.keys.tail := rfl
@[simp] theorem State.takeKey_ports_src : (s.takeKey).ports.src = s.ports.src := rfl
@[simp] theorem State.takeKey_ports_srcEnded : (s.takeKey).ports.srcEnded = s.ports.srcEnded := rfl
@[simp] theorem State.takeKey_ports_snk : (s.takeKey).ports.snk = s.ports.snk := rfl
@[simp] theorem State.takeKey_ports_accept : (s.takeKey).ports.accept = s.ports.accept := rfl
@[simp] theorem State.takeKey_ports_snkReady : (s.takeKey).ports.snkReady = s.ports.snkReady := rfl

@[simp] theorem State.srcDrop_ports_keys (n : Nat) : (s.srcDrop n).ports.keys = s.ports.keys := rfl
@[simp] theorem State.srcDrop_ports_src (n : Nat) : (s.srcDrop n).ports.src = s.ports.src.drop n := rfl
@[simp] theorem State.srcDrop_ports_srcEnded (n : Nat) : (s.srcDrop n).ports.srcEnded = s.ports.srcEnded := rfl
@[simp] theorem State.srcDrop_ports_snk (n : Nat) : (s.srcDrop n).ports.snk = s.ports.snk := rfl
@[simp] theorem State.srcDrop_ports_accept (n : Nat) : (s.srcDrop n).ports.accept = s.ports.accept := rfl
@[simp] theorem State.srcDrop_ports_snkReady (n : Nat) : (s.srcDrop n).ports.snkReady = s.ports.snkReady := rfl

@[simp] theorem Ports.snkWrite_keys (p : Ports) (bytes : List Byte) : (p.snkWrite bytes).keys = p.keys := rfl
@[simp] theorem Ports.snkWrite_src (p : Ports) (bytes : List Byte) : (p.snkWrite bytes).src = p.src := rfl
@[simp] theorem Ports.snkWrite_srcEnded (p : Ports) (bytes : List Byte) : (p.snkWrite bytes).srcEnded = p.srcEnded := rfl
@[simp] theorem Ports.snkWrite_snkReady (p : Ports) (bytes : List Byte) : (p.snkWrite bytes).snkReady = p.snkReady := rfl
@[simp] theorem Ports.snkWrite_snk (p : Ports) (bytes : List Byte) : (p.snkWrite bytes).snk = p.snk ++ bytes.take (p.takes bytes.length) := rfl
@[simp] theorem Ports.snkWrite_accept (p : Ports) (bytes : List Byte) : (p.snkWrite bytes).accept = p.accept.map (fun a => a - p.takes bytes.length) := rfl

/-! The operands a command reads are not written by the updates before it (R31). -/

@[simp] theorem State.takeKey_opJ : s.takeKey.opJ = s.opJ := rfl
@[simp] theorem State.takeKey_opN : s.takeKey.opN = s.opN := rfl
@[simp] theorem State.takeKey_opP : s.takeKey.opP = s.opP := rfl
@[simp] theorem State.takeKey_slot (a : Nat) : s.takeKey.slot a = s.slot a := rfl
@[simp] theorem State.takeKey_nslots : s.takeKey.nslots = s.nslots := rfl
@[simp] theorem State.srcDrop_slot (n a : Nat) : (s.srcDrop n).slot a = s.slot a := rfl
@[simp] theorem State.srcDrop_nslots (n : Nat) : (s.srcDrop n).nslots = s.nslots := rfl
@[simp] theorem State.snkWrite_slot (bytes : List Byte) (a : Nat) : (s.snkWrite bytes).slot a = s.slot a := rfl
@[simp] theorem State.snkWrite_nslots (bytes : List Byte) : (s.snkWrite bytes).nslots = s.nslots := rfl
@[simp] theorem State.complete_slot (st r0 r1 r2 : Word) (a : Nat) : (s.complete st r0 r1 r2).slot a = s.slot a := rfl
@[simp] theorem State.complete_nslots (st r0 r1 r2 : Word) : (s.complete st r0 r1 r2).nslots = s.nslots := rfl
@[simp] theorem State.waiting_slot (a : Nat) : s.waiting.slot a = s.slot a := rfl
@[simp] theorem State.waiting_nslots : s.waiting.nslots = s.nslots := rfl
@[simp] theorem State.setSlot_nslots (a : Nat) (o : Option Filter) : (s.setSlot a o).nslots = s.nslots := by
  simp [State.nslots]

/-! Slots (R20, R83). -/

/-- A slot that holds a filter is in range. -/
theorem State.slot_lt {s : State} {a : Nat} {f : Filter} (h : s.slot a = some f) : a < s.nslots := by
  unfold State.slot at h
  unfold State.nslots
  by_contra hn
  rw [List.getElem?_eq_none (by omega)] at h
  simp at h

theorem State.setSlot_slot_same {a : Nat} (o : Option Filter) (h : a < s.nslots) : (s.setSlot a o).slot a = o := by
  unfold State.nslots at h
  simp [State.slot, h]

theorem State.setSlot_slot_other {a b : Nat} (o : Option Filter) (h : b ≠ a) : (s.setSlot a o).slot b = s.slot b := by
  simp [State.slot, List.getElem?_set_ne (Ne.symm h)]

/-- Writing back what a slot holds changes nothing. -/
theorem State.setSlot_slot_self {s : State} {a : Nat} {f : Filter} (h : s.slot a = some f) :
    (s.setSlot a (some f)).slots = s.slots := by
  have hl := State.slot_lt h
  unfold State.nslots at hl
  unfold State.slot at h
  rw [List.getElem?_eq_getElem hl] at h
  apply List.ext_getElem (by simp)
  intro i h1 h2
  by_cases hi : i = a
  · subst hi
    simpa using h.symm
  · simp [List.getElem_set_ne (Ne.symm hi)]

/-- What the list of slots holds is what some slot holds. -/
theorem State.mem_slots_iff {s : State} {f : Filter} : some f ∈ s.slots ↔ ∃ a, s.slot a = some f := by
  constructor
  · intro h
    obtain ⟨a, ha, e⟩ := List.getElem_of_mem h
    exact ⟨a, by simp [State.slot, ha, e]⟩
  · rintro ⟨a, h⟩
    have hl := State.slot_lt h
    unfold State.nslots at hl
    unfold State.slot at h
    rw [List.getElem?_eq_getElem hl] at h
    have h2 : s.slots[a] = some f := by simpa using h
    exact h2 ▸ List.getElem_mem hl

/-! The initial state. -/

@[simp] theorem State.resetOf_cfg (c : Config) (n : Nat) : (State.resetOf c n).cfg = c := rfl
@[simp] theorem State.resetOf_regs (c : Config) (n : Nat) : (State.resetOf c n).regs = HostRegs.zero := rfl
@[simp] theorem State.resetOf_ports (c : Config) (n : Nat) : (State.resetOf c n).ports = Ports.quiet := rfl

theorem State.hardReset_slot (a : Nat) : s.hardReset.slot a = none := by
  simp [State.slot, List.getElem?_replicate]
  split <;> rfl

theorem State.resetOf_slot (c : Config) (n a : Nat) : (State.resetOf c n).slot a = none := by
  simp [State.slot, State.resetOf, List.getElem?_replicate]
  split <;> rfl

end Sys2Proof.Machine
end

