-- ==== Sys2Proof/Laws/Ops.lean ====
section
/-! SUPPORT. What the shared operations can do: `STATUS` words, how a command ends, and the operand checks
(spec/10_state.md R32, spec/60_exceptions.md R250 to R258). -/

namespace Sys2Proof.Machine

/-! The fields of a `STATUS` word (R32). -/

/-- The four fields of every composed word, and that its reserved bits are 0. -/
theorem statusWord_fields (busy err : Bool) (c i : Nat) :
    statusBusy (statusWord busy err c i) = busy ∧ statusErr (statusWord busy err c i) = err ∧
    statusECode (statusWord busy err c i) = c % 16 ∧ statusEInfo (statusWord busy err c i) = i % 4 ∧
    statusWord busy err c i &&& 0xFFFFFC0C#32 = 0 := by
  have key : ∀ (b e : Bool) (c : Fin 16) (i : Fin 4),
      statusBusy (statusWord b e c i) = b ∧ statusErr (statusWord b e c i) = e ∧
      statusECode (statusWord b e c i) = c ∧ statusEInfo (statusWord b e c i) = i ∧
      statusWord b e c i &&& 0xFFFFFC0C#32 = 0 := by decide +kernel
  have h := key busy err ⟨c % 16, Nat.mod_lt _ (by decide)⟩ ⟨i % 4, Nat.mod_lt _ (by decide)⟩
  simpa [statusWord] using h

@[simp] theorem statusBusy_statusWord (b e : Bool) (c i : Nat) : statusBusy (statusWord b e c i) = b :=
  (statusWord_fields b e c i).1

@[simp] theorem statusErr_statusWord (b e : Bool) (c i : Nat) : statusErr (statusWord b e c i) = e :=
  (statusWord_fields b e c i).2.1

@[simp] theorem statusECode_statusWord (b e : Bool) (c i : Nat) : statusECode (statusWord b e c i) = c % 16 :=
  (statusWord_fields b e c i).2.2.1

@[simp] theorem statusEInfo_statusWord (b e : Bool) (c i : Nat) : statusEInfo (statusWord b e c i) = i % 4 :=
  (statusWord_fields b e c i).2.2.2.1

@[simp] theorem statusOk_eq_zero : statusOk = 0#32 := by decide

@[simp] theorem statusBusy_zero : statusBusy 0#32 = false := by decide

@[simp] theorem statusErr_zero : statusErr 0#32 = false := by decide

@[simp] theorem statusBusy_statusError (e : ErrKind) (i : Nat) : statusBusy (statusError e i) = false := by
  simp [statusError]

@[simp] theorem statusErr_statusError (e : ErrKind) (i : Nat) : statusErr (statusError e i) = true := by
  simp [statusError]

/-- R251: every code fits `ECODE`. -/
theorem ErrKind.code_lt (e : ErrKind) : e.code < 16 := by cases e <;> decide

/-- R252: every sub-cause fits `EINFO`. -/
theorem ErrKind.infos_le (e : ErrKind) : e.infos ≤ 3 := by cases e <;> decide

@[simp] theorem statusECode_statusError (e : ErrKind) (i : Nat) : statusECode (statusError e i) = e.code := by
  simp [statusError, Nat.mod_eq_of_lt e.code_lt]

/-- Setting `BUSY` leaves the error fields (R300). -/
theorem statusSetBusy_fields (w : Word) :
    statusBusy (statusSetBusy w) = true ∧ statusErr (statusSetBusy w) = statusErr w ∧
    statusECode (statusSetBusy w) = statusECode w ∧ statusEInfo (statusSetBusy w) = statusEInfo w := by
  refine ⟨by simp [statusBusy, statusSetBusy], by simp [statusErr, statusSetBusy], ?_, ?_⟩
  · have : (1#32).extractLsb' 4 4 = 0#4 := by decide
    simp [statusECode, statusSetBusy, BitVec.extractLsb'_or, this]
  · have : (1#32).extractLsb' 8 2 = 0#2 := by decide
    simp [statusEInfo, statusSetBusy, BitVec.extractLsb'_or, this]

@[simp] theorem statusBusy_setBusy (w : Word) : statusBusy (statusSetBusy w) = true := (statusSetBusy_fields w).1

/-- Setting `BUSY` in a composed word. -/
theorem statusSetBusy_statusWord (b e : Bool) (c i : Nat) :
    statusSetBusy (statusWord b e c i) = statusWord true e c i := by
  have key : ∀ (b e : Bool) (c : Fin 16) (i : Fin 4),
      statusSetBusy (statusWord b e c i) = statusWord true e c i := by decide +kernel
  have h := key b e ⟨c % 16, Nat.mod_lt _ (by decide)⟩ ⟨i % 4, Nat.mod_lt _ (by decide)⟩
  simpa [statusWord] using h

/-! How a command ends (R250, R253). -/

theorem succeed_eq (r0 r1 r2 : Word) (s : State) : succeed r0 r1 r2 s = .next (s.complete 0#32 r0 r1 r2) := by
  rw [succeed, statusOk_eq_zero]

theorem raise_eq (e : ErrKind) (i n : Nat) (s : State) :
    raise e i n s = .next (s.complete (statusError e i) (BitVec.ofNat 32 n) 0 0) := rfl

theorem waitPort_eq (s : State) : waitPort s = .next s.waiting := rfl

/-! The operand checks (R256 to R258), by case. -/

theorem withFilter_of_slot {s : State} {sa : Nat} {f : Filter} (h : s.slot sa = some f) (go : Filter → Result) :
    withFilter sa s go = go f := by
  have := State.slot_lt h
  simp [withFilter, h, Nat.not_le.mpr this]

theorem withFilter_of_range {s : State} {sa : Nat} (h : s.nslots ≤ sa) (go : Filter → Result) :
    withFilter sa s go = raise .slot 0 0 s := by
  simp [withFilter, h]

theorem withFilter_of_empty {s : State} {sa : Nat} (h : sa < s.nslots) (h2 : s.slot sa = none)
    (go : Filter → Result) : withFilter sa s go = raise .slot 1 0 s := by
  simp [withFilter, h2, Nat.not_le.mpr h]

theorem withEmpty_of_empty {s : State} {sa : Nat} (h : sa < s.nslots) (h2 : s.slot sa = none) (go : Result) :
    withEmpty sa s go = go := by
  simp [withEmpty, h2, Nat.not_le.mpr h]

theorem withEmpty_of_range {s : State} {sa : Nat} (h : s.nslots ≤ sa) (go : Result) :
    withEmpty sa s go = raise .slot 0 0 s := by
  simp [withEmpty, h]

theorem withEmpty_of_slot {s : State} {sa : Nat} {f : Filter} (h : s.slot sa = some f) (go : Result) :
    withEmpty sa s go = raise .slot 2 0 s := by
  have := State.slot_lt h
  simp [withEmpty, h, Nat.not_le.mpr this]

/-- Everything `withFilter` can come to. -/
theorem withFilter_cases (sa : Nat) (s : State) (go : Filter → Result) :
    (s.nslots ≤ sa ∧ withFilter sa s go = raise .slot 0 0 s) ∨
    (sa < s.nslots ∧ s.slot sa = none ∧ withFilter sa s go = raise .slot 1 0 s) ∨
    ∃ f, s.slot sa = some f ∧ withFilter sa s go = go f := by
  rcases Nat.lt_or_ge sa s.nslots with h | h
  · cases h2 : s.slot sa with
    | none => exact .inr (.inl ⟨h, rfl, withFilter_of_empty h h2 go⟩)
    | some f => exact .inr (.inr ⟨f, rfl, withFilter_of_slot h2 go⟩)
  · exact .inl ⟨h, withFilter_of_range h go⟩

/-- Everything `withEmpty` can come to. -/
theorem withEmpty_cases (sa : Nat) (s : State) (go : Result) :
    (s.nslots ≤ sa ∧ withEmpty sa s go = raise .slot 0 0 s) ∨
    (∃ f, s.slot sa = some f ∧ withEmpty sa s go = raise .slot 2 0 s) ∨
    (sa < s.nslots ∧ s.slot sa = none ∧ withEmpty sa s go = go) := by
  rcases Nat.lt_or_ge sa s.nslots with h | h
  · cases h2 : s.slot sa with
    | none => exact .inr (.inr ⟨h, rfl, withEmpty_of_empty h h2 go⟩)
    | some f => exact .inr (.inl ⟨f, rfl, withEmpty_of_slot h2 go⟩)
  · exact .inl ⟨h, withEmpty_of_range h go⟩

theorem withAcc_of_acc {s : State} {sa : Nat} {f : Filter} {a : Acc} (h : s.slot sa = some f)
    (hk : s.opJ < f.k.toNat) (ha : f.acc[s.opJ]? = some a) (go : Filter → Acc → Result) :
    withAcc sa s go = go f a := by
  simp [withAcc, withFilter_of_slot h, Nat.not_le.mpr hk, ha]

theorem withAcc_of_index {s : State} {sa : Nat} {f : Filter} (h : s.slot sa = some f)
    (hk : f.k.toNat ≤ s.opJ) (go : Filter → Acc → Result) : withAcc sa s go = raise .index 0 0 s := by
  simp [withAcc, withFilter_of_slot h, hk]

/-- Everything `withAcc` can come to. -/
theorem withAcc_cases (sa : Nat) (s : State) (go : Filter → Acc → Result) :
    (s.nslots ≤ sa ∧ withAcc sa s go = raise .slot 0 0 s) ∨
    (sa < s.nslots ∧ s.slot sa = none ∧ withAcc sa s go = raise .slot 1 0 s) ∨
    (∃ f, s.slot sa = some f ∧ (f.k.toNat ≤ s.opJ ∨ f.acc[s.opJ]? = none) ∧ withAcc sa s go = raise .index 0 0 s) ∨
    ∃ f a, s.slot sa = some f ∧ s.opJ < f.k.toNat ∧ f.acc[s.opJ]? = some a ∧ withAcc sa s go = go f a := by
  rcases withFilter_cases sa s (fun f => if f.k.toNat ≤ s.opJ then raise .index 0 0 s
    else match f.acc[s.opJ]? with
      | none => raise .index 0 0 s
      | some a => go f a) with h | h | ⟨f, hf, -⟩
  · exact .inl h
  · exact .inr (.inl h)
  · by_cases hk : f.k.toNat ≤ s.opJ
    · exact .inr (.inr (.inl ⟨f, hf, .inl hk, withAcc_of_index hf hk go⟩))
    · cases ha : f.acc[s.opJ]? with
      | none => exact .inr (.inr (.inl ⟨f, hf, .inr ha, by simp [withAcc, withFilter_of_slot hf, ha]⟩))
      | some a => exact .inr (.inr (.inr ⟨f, a, hf, by omega, ha, withAcc_of_acc hf (by omega) ha go⟩))

theorem withOpenAcc_of_run {s : State} {sa : Nat} {f : Filter} {a : Acc} {r : AccRun} (h : s.slot sa = some f)
    (hk : s.opJ < f.k.toNat) (ha : f.acc[s.opJ]? = some a) (hr : a.run = some r)
    (go : Filter → Acc → AccRun → Result) : withOpenAcc sa s go = go f a r := by
  simp [withOpenAcc, withAcc_of_acc h hk ha, hr]

theorem withOpenAcc_of_closed {s : State} {sa : Nat} {f : Filter} {a : Acc} (h : s.slot sa = some f)
    (hk : s.opJ < f.k.toNat) (ha : f.acc[s.opJ]? = some a) (hr : a.run = none)
    (go : Filter → Acc → AccRun → Result) : withOpenAcc sa s go = raise .protocol 0 0 s := by
  simp [withOpenAcc, withAcc_of_acc h hk ha, hr]

/-- Everything `withOpenAcc` can come to. -/
theorem withOpenAcc_cases (sa : Nat) (s : State) (go : Filter → Acc → AccRun → Result) :
    (s.nslots ≤ sa ∧ withOpenAcc sa s go = raise .slot 0 0 s) ∨
    (sa < s.nslots ∧ s.slot sa = none ∧ withOpenAcc sa s go = raise .slot 1 0 s) ∨
    (∃ f, s.slot sa = some f ∧ (f.k.toNat ≤ s.opJ ∨ f.acc[s.opJ]? = none) ∧
      withOpenAcc sa s go = raise .index 0 0 s) ∨
    (∃ f a, s.slot sa = some f ∧ s.opJ < f.k.toNat ∧ f.acc[s.opJ]? = some a ∧ a.run = none ∧
      withOpenAcc sa s go = raise .protocol 0 0 s) ∨
    ∃ f a r, s.slot sa = some f ∧ s.opJ < f.k.toNat ∧ f.acc[s.opJ]? = some a ∧ a.run = some r ∧
      withOpenAcc sa s go = go f a r := by
  rcases withAcc_cases sa s (fun f a => match a.run with
    | none => raise .protocol 0 0 s
    | some r => go f a r) with h | h | h | ⟨f, a, hf, hk, ha, e⟩
  · exact .inl h
  · exact .inr (.inl h)
  · exact .inr (.inr (.inl h))
  · cases hr : a.run with
    | none => exact .inr (.inr (.inr (.inl ⟨f, a, hf, hk, ha, hr, withOpenAcc_of_closed hf hk ha hr go⟩)))
    | some r => exact .inr (.inr (.inr (.inr ⟨f, a, r, hf, hk, ha, hr, withOpenAcc_of_run hf hk ha hr go⟩)))

theorem withKey_of_key {s : State} {key : List Byte} {rest : List (List Byte)} (h : s.ports.keys = key :: rest)
    (go : List Byte → State → Result) : withKey s go = go key s.takeKey := by
  simp [withKey, h]

theorem withKey_of_none {s : State} (h : s.ports.keys = []) (go : List Byte → State → Result) :
    withKey s go = .next s.waiting := by
  simp [withKey, h, waitPort]

/-! The operand `P` (R98). -/

theorem State.opP_eq (s : State) : s.opP = s.regs.arg3 ++ s.regs.arg2 := by
  apply BitVec.eq_of_toNat_eq
  have h2 := s.regs.arg2.isLt
  have h3 := s.regs.arg3.isLt
  simp only [State.opP, BitVec.toNat_ofNat, BitVec.toNat_append]
  rw [Nat.shiftLeft_eq, Nat.mul_comm, ← Nat.two_pow_add_eq_or_of_lt h2]
  omega

/-! `cdiv8` (R17). -/

theorem cdiv8_eq (m : Word) : cdiv8 m = (m.toNat + 7) / 8 := by
  have h : (m.extractLsb' 0 3 = 0#3) ↔ m.toNat % 8 = 0 := by
    rw [← BitVec.toNat_inj]
    simp
  simp only [cdiv8, BitVec.toNat_ushiftRight, Nat.shiftRight_eq_div_pow]
  split <;> rename_i hc <;> rw [h] at hc <;> omega

/-- A body of a filter with bits has a byte. -/
theorem cdiv8_le (m : Word) : cdiv8 m ≤ 2 ^ 29 := by
  have := m.isLt
  rw [cdiv8_eq]
  omega

/-! Bits (R61, R62). -/

theorem bitRead_bitSet (bits : List Bool) (i j : Nat) :
    bitRead (bitSet bits i) j = (bitRead bits j || (decide (i = j) && decide (i < bits.length))) := by
  by_cases h : i = j
  · subst h
    by_cases hl : i < bits.length <;> simp [bitRead, bitSet, List.getD_eq_getElem?_getD, hl]
  · simp [bitRead, bitSet, List.getD_eq_getElem?_getD, List.getElem?_set_ne h, h]

@[simp] theorem bitSet_length (bits : List Bool) (i : Nat) : (bitSet bits i).length = bits.length := by
  simp [bitSet]

theorem bitRead_of_le {bits : List Bool} {i : Nat} (h : bits.length ≤ i) : bitRead bits i = false := by
  simp [bitRead, List.getD_eq_getElem?_getD, List.getElem?_eq_none h]

/-- Two bit arrays of one length with the same bits are equal. -/
theorem bits_ext {a b : List Bool} (hl : a.length = b.length) (h : ∀ i, bitRead a i = bitRead b i) : a = b := by
  apply List.ext_getElem hl
  intro i h1 h2
  have := h i
  simpa [bitRead, List.getD_eq_getElem?_getD, h1, h2] using this

@[simp] theorem bitRead_replicate (n i : Nat) : bitRead (List.replicate n false) i = false := by
  simp [bitRead, List.getD_eq_getElem?_getD, List.getElem?_replicate]
  split <;> simp

end Sys2Proof.Machine
end

