-- ==== Sys2Proof/Laws/Hash.lean ====
section
/-! SUPPORT. The accumulator operations against the digest function (spec/41_hash.md R154, R155, R157,
spec/10_state.md R28). -/

namespace Sys2Proof.Machine

theorem foldBlocks_short (f : Word → Word → Word) (h : Word) (B : List Byte) (hB : B.length < 4) :
    foldBlocks f h B = (h, B) := by
  rcases B with _ | ⟨b0, _ | ⟨b1, _ | ⟨b2, _ | ⟨b3, B⟩⟩⟩⟩ <;> simp [foldBlocks] at hB ⊢
  omega

/-- A prefix of whole blocks is folded first. -/
theorem foldBlocks_append (f : Word → Word → Word) (h : Word) : ∀ (A B : List Byte), A.length % 4 = 0 →
    foldBlocks f h (A ++ B) = foldBlocks f (foldBlocks f h A).1 B
  | [], _, _ => by simp [foldBlocks]
  | [_], _, hA => by simp at hA
  | [_, _], _, hA => by simp at hA
  | [_, _, _], _, hA => by simp at hA
  | b0 :: b1 :: b2 :: b3 :: A, B, hA => by
    have hA2 : A.length % 4 = 0 := by simp at hA; omega
    simp only [List.cons_append, foldBlocks]
    exact foldBlocks_append f (f h (le32 b0 b1 b2 b3)) A B hA2

theorem mixBlocks_short (h : Word) (B : List Byte) (hB : B.length < 4) : mixBlocks h B = (h, B) :=
  foldBlocks_short mix h B hB

/-- A prefix of whole blocks is mixed first. -/
theorem mixBlocks_append (h : Word) (A B : List Byte) (hA : A.length % 4 = 0) :
    mixBlocks h (A ++ B) = mixBlocks (mixAll h A) B :=
  foldBlocks_append mix h A B hA

/-- One whole block. -/
theorem mixBlocks_block (h : Word) (b0 b1 b2 b3 : Byte) (rest : List Byte) :
    mixBlocks h (b0 :: b1 :: b2 :: b3 :: rest) = mixBlocks (mix h (le32 b0 b1 b2 b3)) rest := by
  simp only [mixBlocks, foldBlocks]

/-- `mixBlocks` splits a sequence into its whole blocks, mixed, and the rest. -/
theorem mixBlocks_eq (h : Word) (B : List Byte) :
    mixBlocks h B = (mixAll h (B.take (4 * (B.length / 4))), B.drop (4 * (B.length / 4))) := by
  have hl : (B.take (4 * (B.length / 4))).length % 4 = 0 := by simp; omega
  conv_lhs => rw [← List.take_append_drop (4 * (B.length / 4)) B]
  rw [mixBlocks_append _ _ _ hl, mixBlocks_short]
  simp
  omega

/-- R28 in the terms of `mixBlocks`. -/
theorem AccRun.holds_iff (seed : Word) (T : List Byte) (r : AccRun) :
    r.Holds seed T ↔ r.length = BitVec.ofNat 64 T.length ∧ (r.h, r.tail) = mixBlocks seed T := by
  rw [mixBlocks_eq, Prod.mk.injEq]
  exact ⟨fun h => ⟨h.length, h.h, h.tail⟩, fun h => ⟨h.1, h.2.2, h.2.1⟩⟩

/-- R156: a reset accumulator holds the empty stream. -/
theorem AccRun.start_holds (seed : Word) : (AccRun.start seed).Holds seed [] := by
  rw [AccRun.holds_iff]
  exact ⟨rfl, rfl⟩

/-- The tail of R28 is short. -/
theorem AccRun.Holds.tail_lt {seed : Word} {T : List Byte} {r : AccRun} (h : r.Holds seed T) : r.tail.length < 4 := by
  rw [h.tail, List.length_drop]
  omega

theorem le32Seq_four (b0 b1 b2 b3 : Byte) : le32Seq [b0, b1, b2, b3] = le32 b0 b1 b2 b3 := rfl

/-- R154: what a feed does to `h` and the tail, whichever way it goes. -/
theorem AccRun.feed_eq (r : AccRun) (bytes : List Byte) (ht : r.tail.length < 4) :
    ((r.feed bytes).h, (r.feed bytes).tail) = mixBlocks r.h (r.tail ++ bytes) ∧
    (r.feed bytes).length = r.length + BitVec.ofNat 64 bytes.length := by
  obtain ⟨h, len, tail⟩ := r
  simp only at ht
  by_cases h0 : tail = []
  · subst h0
    simp [AccRun.feed, AccRun.feedBlocks]
  · simp only [AccRun.feed, if_neg h0]
    by_cases hl : 4 ≤ tail.length + bytes.length
    · have hmin : min (4 - tail.length) bytes.length = 4 - tail.length := by omega
      have h4 : (tail ++ bytes.take (4 - tail.length)).length = 4 := by simp; omega
      rw [hmin, if_pos h4]
      refine ⟨?_, rfl⟩
      have hsplit : tail ++ bytes = (tail ++ bytes.take (4 - tail.length)) ++ bytes.drop (4 - tail.length) := by
        rw [List.append_assoc, List.take_append_drop]
      rw [hsplit]
      generalize tail ++ bytes.take (4 - tail.length) = A at h4
      match A, h4 with
      | [b0, b1, b2, b3], _ =>
        simp only [AccRun.feedBlocks, le32Seq_four]
        exact (mixBlocks_block h b0 b1 b2 b3 _).symm
    · have hmin : min (4 - tail.length) bytes.length = bytes.length := by omega
      rw [hmin, List.take_length, if_neg (by simp; omega)]
      exact ⟨(mixBlocks_short _ _ (by simp; omega)).symm, rfl⟩

/-- R154: a feed appends to the stream of R28. -/
theorem AccRun.feed_holds {seed : Word} {T : List Byte} {r : AccRun} (h : r.Holds seed T) (bytes : List Byte) :
    (r.feed bytes).Holds seed (T ++ bytes) := by
  obtain ⟨he, hlen⟩ := AccRun.feed_eq r bytes h.tail_lt
  have hm : T.take (4 * (T.length / 4)) ++ (r.tail ++ bytes) = T ++ bytes := by
    rw [h.tail, ← List.append_assoc, List.take_append_drop]
  have hA : (T.take (4 * (T.length / 4))).length % 4 = 0 := by rw [List.length_take]; omega
  rw [AccRun.holds_iff, hlen, he, h.length, List.length_append, BitVec.ofNat_add]
  refine ⟨rfl, ?_⟩
  rw [h.h, ← hm, mixBlocks_append seed _ _ hA]

/-- R155, R157: finalizing gives the digest of the stream of R28. -/
theorem AccRun.finalize_of_holds {seed : Word} {T : List Byte} {r : AccRun} (h : r.Holds seed T) :
    r.finalize = digest32 seed T := by
  have hlen : r.length.setWidth 32 = BitVec.ofNat 32 T.length := by
    rw [h.length]
    apply BitVec.eq_of_toNat_eq
    simp
  rw [AccRun.finalize, digest32, hlen, h.h, h.tail]

/-- R163: what the family's accumulator answers for a key. -/
theorem Acc.digest_eq (a : Acc) (key : List Byte) : a.digest key = digest32 a.seed key :=
  AccRun.finalize_of_holds (by simpa using AccRun.feed_holds (AccRun.start_holds a.seed) key)

/-! The fields of an accumulator after each operation. -/

@[simp] theorem Acc.reset_seed (a : Acc) : a.reset.seed = a.seed := rfl
@[simp] theorem Acc.reset_run (a : Acc) : a.reset.run = some (AccRun.start a.seed) := rfl
@[simp] theorem Acc.close_seed (a : Acc) : a.close.seed = a.seed := rfl
@[simp] theorem Acc.close_run (a : Acc) : a.close.run = none := rfl
@[simp] theorem Acc.close_isOpen (a : Acc) : a.close.isOpen = false := rfl
@[simp] theorem Acc.fresh_seed (j : Nat) : (Acc.fresh j).seed = BitVec.ofNat 32 j := rfl
@[simp] theorem Acc.fresh_run (j : Nat) : (Acc.fresh j).run = some (AccRun.start (BitVec.ofNat 32 j)) := rfl

/-- R28 gives what R22 asks of a tail. -/
theorem AccRun.Holds.wf_tail {seed : Word} {T : List Byte} {r : AccRun} (h : r.Holds seed T) :
    r.tail.length = r.length.toNat % 4 := by
  rw [h.tail, h.length, List.length_drop, BitVec.toNat_ofNat]
  omega

/-- A feed keeps `|tail| = length mod 4`. -/
theorem AccRun.feed_wf_tail (r : AccRun) (bytes : List Byte) (h : r.tail.length = r.length.toNat % 4) :
    (r.feed bytes).tail.length = (r.feed bytes).length.toNat % 4 := by
  obtain ⟨he, hlen⟩ := AccRun.feed_eq r bytes (by omega)
  have ht : (r.feed bytes).tail = (mixBlocks r.h (r.tail ++ bytes)).2 := congrArg Prod.snd he
  rw [ht, hlen, mixBlocks_eq, List.length_drop, List.length_append, h, BitVec.toNat_add, BitVec.toNat_ofNat]
  omega

end Sys2Proof.Machine
end

