-- ==== Sys2Proof/Laws/Filter.lean ====
section
/-! SUPPORT. What construction, adding a key, asking for one, closing and merging do to a filter
(spec/42_filter.md R180, R184, R185, R187, spec/44_union.md R241). -/

namespace Sys2Proof.Machine

/-- Folding sets over a list of things with an index each. -/
theorem bitRead_foldl_bitSet {α : Type} (idx : α → Nat) (as : List α) (bits : List Bool) (i : Nat) :
    bitRead (as.foldl (fun b a => bitSet b (idx a)) bits) i = true ↔
      bitRead bits i = true ∨ i < bits.length ∧ ∃ a ∈ as, idx a = i := by
  induction as generalizing bits with
  | nil => simp
  | cons a as ih =>
    rw [List.foldl_cons, ih, bitRead_bitSet]
    simp only [bitSet_length, Bool.or_eq_true, Bool.and_eq_true, decide_eq_true_eq, List.mem_cons,
      exists_eq_or_imp]
    constructor
    · rintro ((h | ⟨h1, h2⟩) | ⟨h1, h2⟩)
      · exact .inl h
      · exact .inr ⟨h1 ▸ h2, .inl h1⟩
      · exact .inr ⟨h1, .inr h2⟩
    · rintro (h | ⟨h1, h2 | h2⟩)
      · exact .inl (.inl h)
      · exact .inl (.inr ⟨h2, h2 ▸ h1⟩)
      · exact .inr ⟨h1, h2⟩

@[simp] theorem foldl_bitSet_length {α : Type} (idx : α → Nat) (as : List α) (bits : List Bool) :
    (as.foldl (fun b a => bitSet b (idx a)) bits).length = bits.length := by
  induction as generalizing bits with
  | nil => rfl
  | cons a as ih => rw [List.foldl_cons, ih, bitSet_length]

@[simp] theorem Filter.addKey_m (f : Filter) (key : List Byte) : (f.addKey key).m = f.m := rfl
@[simp] theorem Filter.addKey_k (f : Filter) (key : List Byte) : (f.addKey key).k = f.k := rfl
@[simp] theorem Filter.addKey_acc (f : Filter) (key : List Byte) : (f.addKey key).acc = f.acc.map Acc.close := rfl
@[simp] theorem Filter.addKey_bits_length (f : Filter) (key : List Byte) :
    (f.addKey key).bits.length = f.bits.length := by
  simp [Filter.addKey]
@[simp] theorem Filter.closeAll_m (f : Filter) : f.closeAll.m = f.m := rfl
@[simp] theorem Filter.closeAll_k (f : Filter) : f.closeAll.k = f.k := rfl
@[simp] theorem Filter.closeAll_bits (f : Filter) : f.closeAll.bits = f.bits := rfl
@[simp] theorem Filter.closeAll_acc (f : Filter) : f.closeAll.acc = f.acc.map Acc.close := rfl

/-- R22: the accumulators of a filter are those of the seeds `0 .. k-1`, so quantifying over them is quantifying
over `j < k`. -/
theorem Filter.exists_acc_iff {f : Filter}
    (hs : f.acc.map Acc.seed = (List.range f.acc.length).map (BitVec.ofNat 32)) (hk : f.acc.length = f.k.toNat)
    (p : Word → Prop) : (∃ a ∈ f.acc, p a.seed) ↔ ∃ j, j < f.k.toNat ∧ p (BitVec.ofNat 32 j) := by
  have h1 : (∃ a ∈ f.acc, p a.seed) ↔ ∃ w ∈ f.acc.map Acc.seed, p w := by simp
  rw [h1, hs, hk]
  simp

/-- R184: the index an accumulator of seed `w` gives. -/
theorem Filter.index_eq (f : Filter) (a : Acc) (key : List Byte) :
    f.index a key = (digest32 a.seed key).toNat % f.m.toNat := by
  rw [Filter.index, Acc.digest_eq]

/-- R63: an index is in range. -/
theorem keyIndex_lt {m : Word} (h : 0 < m.toNat) (j : Nat) (key : List Byte) : keyIndex m j key < m.toNat :=
  Nat.mod_lt _ h

/-- R185: which bits are set after a key has been added. -/
theorem Filter.addKey_bits {c : Config} {f : Filter} (hf : f.wf c) (key : List Byte) (i : Nat) :
    bitRead (f.addKey key).bits i = true ↔
      bitRead f.bits i = true ∨ ∃ j, j < f.k.toNat ∧ keyIndex f.m j key = i := by
  have hx := Filter.exists_acc_iff hf.seeds hf.accLength (fun w => (digest32 w key).toNat % f.m.toNat = i)
  simp only [Filter.addKey, bitRead_foldl_bitSet, Filter.index_eq, keyIndex, hx]
  constructor
  · rintro (h | ⟨_, h⟩)
    · exact .inl h
    · exact .inr h
  · rintro (h | ⟨j, hj, h⟩)
    · exact .inl h
    · refine .inr ⟨?_, j, hj, h⟩
      rw [hf.bitsLength, ← h]
      exact Nat.mod_lt _ hf.mPos

/-- R187: the answer for a key. -/
theorem Filter.hasKey_iff {c : Config} {f : Filter} (hf : f.wf c) (key : List Byte) :
    f.hasKey key = true ↔ f.Has key := by
  have hx := Filter.exists_acc_iff hf.seeds hf.accLength
    (fun w => ¬ bitRead f.bits ((digest32 w key).toNat % f.m.toNat) = true)
  simp only [Filter.hasKey, List.all_eq_true, Filter.index_eq, Filter.Has, keyIndex]
  constructor
  · intro h j hj
    by_contra hc
    obtain ⟨a, ha, hb⟩ := hx.mpr ⟨j, hj, hc⟩
    exact hb (h a ha)
  · intro h a ha
    by_contra hc
    obtain ⟨j, hj, hb⟩ := hx.mp ⟨a, ha, hc⟩
    exact hb (h j hj)

/-- Closing accumulators keeps R22. -/
theorem Filter.wf_of_close {c : Config} {f g : Filter} (hf : f.wf c) (hm : g.m = f.m) (hk : g.k = f.k)
    (hb : g.bits.length = f.bits.length) (ha : g.acc = f.acc.map Acc.close) : g.wf c where
  mPos := hm ▸ hf.mPos
  mMax := hm ▸ hf.mMax
  kPos := hk ▸ hf.kPos
  kMax := hk ▸ hf.kMax
  bitsLength := by rw [hb, hm, hf.bitsLength]
  accLength := by rw [ha, hk, List.length_map, hf.accLength]
  seeds := by
    have h1 : g.acc.map Acc.seed = f.acc.map Acc.seed := by simp [ha]
    rw [h1, hf.seeds, ha, List.length_map]
  tails := by
    intro a h r hr
    rw [ha, List.mem_map] at h
    obtain ⟨b, -, rfl⟩ := h
    simp at hr

theorem Filter.addKey_wf {c : Config} {f : Filter} (hf : f.wf c) (key : List Byte) : (f.addKey key).wf c :=
  Filter.wf_of_close hf rfl rfl (Filter.addKey_bits_length f key) rfl

theorem Filter.closeAll_wf {c : Config} {f : Filter} (hf : f.wf c) : f.closeAll.wf c :=
  Filter.wf_of_close hf rfl rfl rfl rfl

/-- Putting back an accumulator with the same seed and a legal tail keeps R22. -/
theorem Filter.setAcc_wf {c : Config} {f : Filter} (hf : f.wf c) {j : Nat} {a b : Acc} (ha : f.acc[j]? = some a)
    (hs : b.seed = a.seed) (hb : b.wf) : ({ f with acc := f.acc.set j b } : Filter).wf c where
  mPos := hf.mPos
  mMax := hf.mMax
  kPos := hf.kPos
  kMax := hf.kMax
  bitsLength := hf.bitsLength
  accLength := by simpa using hf.accLength
  seeds := by
    have hj : j < f.acc.length := by
      by_contra h
      rw [List.getElem?_eq_none (by omega)] at ha
      simp at ha
    have e : (f.acc.map Acc.seed)[j]'(by simpa using hj) = b.seed := by
      rw [List.getElem?_eq_getElem hj] at ha
      simp only [Option.some.injEq] at ha
      simp [ha, hs]
    simp only [List.map_set, List.length_set]
    rw [← e, List.set_getElem_self, hf.seeds]
  tails := by
    intro x hx
    rcases List.mem_or_eq_of_mem_set hx with h | h
    · exact hf.tails x h
    · exact h ▸ hb

@[simp] theorem Filter.construct_bits (mm kk : Nat) (bits : List Bool) :
    (Filter.construct mm kk bits).bits = bits := rfl

/-- R180: what construction makes. -/
theorem Filter.construct_wf {c : Config} {mm kk : Nat} {bits : List Bool} (hm : 1 ≤ mm) (hm2 : mm ≤ 2 ^ 32 - 1)
    (hmc : mm ≤ c.mMax) (hk : 1 ≤ kk) (hk2 : kk ≤ 2 ^ 32 - 1) (hkc : kk ≤ c.kMax) (hb : bits.length = mm) :
    (Filter.construct mm kk bits).wf c := by
  have e1 : (BitVec.ofNat 32 mm).toNat = mm := by rw [BitVec.toNat_ofNat]; omega
  have e2 : (BitVec.ofNat 32 kk).toNat = kk := by rw [BitVec.toNat_ofNat]; omega
  refine ⟨?_, ?_, ?_, ?_, ?_, ?_, ?_, ?_⟩ <;> simp only [Filter.construct, e1, e2]
  · omega
  · exact hmc
  · omega
  · exact hkc
  · exact hb
  · simp
  · simp [Function.comp_def]
  · intro a ha r hr
    simp only [List.mem_map] at ha
    obtain ⟨j, -, rfl⟩ := ha
    simp only [Acc.fresh_run, Option.mem_def, Option.some.injEq] at hr
    subst hr
    rfl

/-- R180: the accumulators of a new filter. -/
theorem Filter.construct_acc_getElem (mm kk : Nat) (bits : List Bool) {j : Nat} (h : j < kk) :
    (Filter.construct mm kk bits).acc[j]? = some (Acc.fresh j) := by
  simp [Filter.construct, h]

/-! Merging (R241). -/

theorem bitRead_orBits {a b : List Bool} (hl : a.length = b.length) (i : Nat) :
    bitRead (orBits a b) i = (bitRead a i || bitRead b i) := by
  by_cases h : i < a.length
  · have h2 : i < b.length := by omega
    simp [orBits, bitRead, List.getD_eq_getElem?_getD, h, h2]
  · have e : bitRead (orBits a b) i = false := bitRead_of_le (by simp [orBits]; omega)
    rw [e, bitRead_of_le (bits := a) (by omega), bitRead_of_le (bits := b) (by omega)]
    rfl

theorem orBits_length {a b : List Bool} (hl : a.length = b.length) : (orBits a b).length = a.length := by
  simp [orBits, hl]

/-- Merging two filters of one shape keeps R22. -/
theorem Filter.orBits_wf {c : Config} {f g : Filter} (hf : f.wf c) (hg : g.wf c) (hm : f.m = g.m) :
    ({ f with bits := orBits f.bits g.bits } : Filter).wf c where
  mPos := hf.mPos
  mMax := hf.mMax
  kPos := hf.kPos
  kMax := hf.kMax
  bitsLength := by
    show (orBits f.bits g.bits).length = f.m.toNat
    rw [orBits_length (by rw [hf.bitsLength, hg.bitsLength, hm]), hf.bitsLength]
  accLength := hf.accLength
  seeds := hf.seeds
  tails := hf.tails

end Sys2Proof.Machine
end

