-- ==== Sys2Proof/Laws/Codec.lean ====
section
/-! SUPPORT. Headers, bodies and the two stream ports (spec/30_encoding.md R110 to R115, spec/20_memory.md R65,
R66). -/

namespace Sys2Proof.Machine

/-- R15: `LE32` undoes `LE32bytes`. -/
theorem le32Seq_le32Bytes (v : Word) (rest : List Byte) : le32Seq (le32Bytes v ++ rest) = v := by
  apply BitVec.eq_of_toNat_eq
  have hv := v.isLt
  simp [le32Seq, le32Bytes, le32, BitVec.extractLsb'_toNat, Nat.shiftRight_eq_div_pow]
  omega

@[simp] theorem le32Bytes_length (v : Word) : (le32Bytes v).length = 4 := rfl

@[simp] theorem headerBytes_length (m k : Word) : (headerBytes m k).length = 8 := rfl

@[simp] theorem bodyBytes_length (m : Word) (bits : List Bool) : (bodyBytes m bits).length = cdiv8 m := by
  simp [bodyBytes]

theorem pack_length_eq (m k : Word) (bits : List Bool) : (pack m k bits).length = 8 + cdiv8 m := by
  simp [pack]

/-- R111: reading back `m`. -/
@[simp] theorem headerM_headerBytes (m k : Word) : headerM (headerBytes m k) = m := le32Seq_le32Bytes m _

/-- R111: reading back `k`. -/
@[simp] theorem headerK_headerBytes (m k : Word) : headerK (headerBytes m k) = k := by
  have := le32Seq_le32Bytes k []
  simpa [headerK, headerBytes, le32Bytes] using this

@[simp] theorem take_headerBytes (m k : Word) (rest : List Byte) :
    (headerBytes m k ++ rest).take 8 = headerBytes m k := List.take_left' rfl

@[simp] theorem drop_headerBytes (m k : Word) (rest : List Byte) :
    (headerBytes m k ++ rest).drop 8 = rest := List.drop_left' rfl

/-- R221: which headers are accepted. -/
theorem headerOk_iff (c : Config) (mm kk : Nat) :
    headerOk c mm kk = true ↔ mm ≠ 0 ∧ kk ≠ 0 ∧ mm ≤ c.mMax ∧ kk ≤ c.kMax := by
  simp [headerOk, and_assoc]

@[simp] theorem unpackBits_length (m : Nat) (body : List Byte) : (unpackBits m body).length = m := by
  simp [unpackBits]

theorem bitRead_unpackBits (m : Nat) (body : List Byte) (i : Nat) :
    bitRead (unpackBits m body) i = (decide (i < m) && bodyBit body i) := by
  by_cases h : i < m <;> simp [bitRead, unpackBits, List.getD_eq_getElem?_getD, h]

/-! `SnkWrite` (R66). -/

theorem Ports.takes_le (p : Ports) (n : Nat) : p.takes n ≤ n := by
  unfold Ports.takes
  split
  · exact Nat.le_refl n
  · exact Nat.min_le_right _ _

/-- Two writes take what one write of both takes. -/
theorem Ports.snkWrite_append (p : Ports) (a b : List Byte) (h : p.takes a.length = a.length) :
    (p.snkWrite a).snkWrite b = p.snkWrite (a ++ b) := by
  obtain ⟨key, src, ended, snk, accept, ready⟩ := p
  cases accept with
  | none => simp [Ports.snkWrite, Ports.takes]
  | some n =>
    simp only [Ports.takes] at h
    have hn : a.length ≤ n := by omega
    simp only [Ports.snkWrite, Ports.takes, Option.map_some, List.length_append, Ports.mk.injEq, true_and,
      List.append_assoc, List.append_cancel_left_eq, Option.some.injEq, and_true]
    rw [Nat.min_eq_right hn, List.take_length]
    have e : min n (a.length + b.length) - a.length = min (n - a.length) b.length := by omega
    have e2 : a.length ≤ min n (a.length + b.length) := by omega
    rw [List.take_append, List.take_of_length_le e2, e]
    exact ⟨rfl, by omega⟩

end Sys2Proof.Machine
end

