-- ==== Sys2Proof/Laws/Exec.lean ====
section
/-! SUPPORT. One inversion lemma per command: everything it can come to, with the guard of every way
(the pseudocode of spec/40_sizing.md to spec/44_union.md). The lemmas about shared checks do for HRESET and
HFINAL (`withAcc_cases`, `withOpenAcc_cases`). -/

namespace Sys2Proof.Machine

/-- R132. -/
theorem execBitcount_cases (s : State) :
    ((s.opN = 0 ∨ validP s.opP = false) ∧ execBitcount s = raise .construct 0 0 s) ∨
    (s.opN ≠ 0 ∧ validP s.opP = true ∧ 2 ^ 32 - 1 < bitCount s.opN s.opP ∧
      execBitcount s = raise .construct 1 0 s) ∨
    (s.opN ≠ 0 ∧ validP s.opP = true ∧ bitCount s.opN s.opP ≤ 2 ^ 32 - 1 ∧
      execBitcount s = succeed 0 (BitVec.ofNat 32 (bitCount s.opN s.opP)) 0 s) := by
  by_cases hn : s.opN = 0
  · exact .inl ⟨.inl hn, by simp [execBitcount, hn]⟩
  · cases hp : validP s.opP with
    | false => exact .inl ⟨.inr rfl, by simp [execBitcount, hp]⟩
    | true =>
      rcases Nat.lt_or_ge (2 ^ 32 - 1) (bitCount s.opN s.opP) with h | h
      · exact .inr (.inl ⟨hn, rfl, h, by rw [execBitcount, if_neg hn, if_neg (by simp [hp]), if_pos h]⟩)
      · exact .inr (.inr ⟨hn, rfl, h, by
          rw [execBitcount, if_neg hn, if_neg (by simp [hp]), if_neg (Nat.not_lt.mpr h)]⟩)

/-- R135. -/
theorem execHashcount_cases (s : State) :
    (s.opN = 0 ∧ execHashcount s = raise .construct 0 0 s) ∨
    (s.opN ≠ 0 ∧ hashCount s.regs.arg1.toNat s.opN = 0 ∧ execHashcount s = raise .construct 2 0 s) ∨
    (s.opN ≠ 0 ∧ hashCount s.regs.arg1.toNat s.opN ≠ 0 ∧
      execHashcount s = succeed 0 0 (BitVec.ofNat 32 (hashCount s.regs.arg1.toNat s.opN)) s) := by
  by_cases hn : s.opN = 0
  · exact .inl ⟨hn, by simp [execHashcount, hn]⟩
  · by_cases hk : hashCount s.regs.arg1.toNat s.opN = 0
    · exact .inr (.inl ⟨hn, hk, by simp [execHashcount, hn, hk]⟩)
    · exact .inr (.inr ⟨hn, hk, by simp [execHashcount, hn, hk]⟩)

/-- R161: HFEED waits for a KEY buffer, and takes it before any check. -/
theorem execHfeed_cases (sa : Nat) (s : State) :
    (s.ports.keys = [] ∧ execHfeed sa s = .next s.waiting) ∨
    ∃ key rest, s.ports.keys = key :: rest ∧ execHfeed sa s = withOpenAcc sa s.takeKey fun f a r =>
      succeed 0 0 0 (s.takeKey.setAcc sa f s.opJ { a with run := some (r.feed key) }) := by
  cases h : s.ports.keys with
  | nil => exact .inl ⟨rfl, withKey_of_none h _⟩
  | cons key rest => exact .inr ⟨key, rest, rfl, withKey_of_key h _⟩

/-- R181. -/
theorem execNew_cases (sa : Nat) (s : State) :
    (s.nslots ≤ sa ∧ execNew sa s = raise .slot 0 0 s) ∨
    (∃ f, s.slot sa = some f ∧ execNew sa s = raise .slot 2 0 s) ∨
    (sa < s.nslots ∧ s.slot sa = none ∧
      (((s.opN = 0 ∨ validP s.opP = false) ∧ execNew sa s = raise .construct 0 0 s) ∨
      (s.opN ≠ 0 ∧ validP s.opP = true ∧
        (((2 ^ 32 - 1 < bitCount s.opN s.opP ∨ s.cfg.mMax < bitCount s.opN s.opP) ∧
          execNew sa s = raise .construct 1 0 s) ∨
        (bitCount s.opN s.opP ≤ 2 ^ 32 - 1 ∧ bitCount s.opN s.opP ≤ s.cfg.mMax ∧
          ((s.cfg.kMax < hashCount (bitCount s.opN s.opP) s.opN ∧ execNew sa s = raise .construct 2 0 s) ∨
          (hashCount (bitCount s.opN s.opP) s.opN ≤ s.cfg.kMax ∧
            execNew sa s = succeed 0 (BitVec.ofNat 32 (bitCount s.opN s.opP))
              (BitVec.ofNat 32 (hashCount (bitCount s.opN s.opP) s.opN))
              (s.setSlot sa (some (Filter.construct (bitCount s.opN s.opP)
                (hashCount (bitCount s.opN s.opP) s.opN)
                (List.replicate (bitCount s.opN s.opP) false))))))))))) := by
  unfold execNew
  generalize bitCount s.opN s.opP = m
  rcases Nat.lt_or_ge sa s.nslots with h | h
  · cases h2 : s.slot sa with
    | some f => exact .inr (.inl ⟨f, rfl, withEmpty_of_slot h2 _⟩)
    | none =>
      rw [withEmpty_of_empty h h2]
      refine .inr (.inr ⟨h, rfl, ?_⟩)
      by_cases hn : s.opN = 0
      · exact .inl ⟨.inl hn, if_pos hn⟩
      · rw [if_neg hn]
        cases hp : validP s.opP with
        | false => exact .inl ⟨.inr rfl, if_pos rfl⟩
        | true =>
          refine .inr ⟨hn, rfl, ?_⟩
          rw [if_neg Bool.noConfusion]
          by_cases hm : 2 ^ 32 - 1 < m ∨ s.cfg.mMax < m
          · exact .inl ⟨hm, if_pos hm⟩
          · simp only [if_neg hm]
            refine .inr ⟨by omega, by omega, ?_⟩
            rcases Nat.lt_or_ge s.cfg.kMax (hashCount m s.opN) with hk | hk
            · exact .inl ⟨hk, if_pos hk⟩
            · exact .inr ⟨hk, if_neg (Nat.not_lt.mpr hk)⟩
  · exact .inl ⟨h, withEmpty_of_range h _⟩

/-- R183. -/
theorem execDrop_cases (sa : Nat) (s : State) :
    (s.nslots ≤ sa ∧ execDrop sa s = raise .slot 0 0 s) ∨
    (sa < s.nslots ∧ execDrop sa s = succeed 0 0 0 (s.setSlot sa none)) := by
  rcases Nat.lt_or_ge sa s.nslots with h | h
  · exact .inr ⟨h, if_neg (Nat.not_le.mpr h)⟩
  · exact .inl ⟨h, if_pos h⟩

/-- R185: ADD waits for a KEY buffer, and takes it before any check. -/
theorem execAdd_cases (sa : Nat) (s : State) :
    (s.ports.keys = [] ∧ execAdd sa s = .next s.waiting) ∨
    ∃ key rest, s.ports.keys = key :: rest ∧
      ((s.nslots ≤ sa ∧ execAdd sa s = raise .slot 0 0 s.takeKey) ∨
      (sa < s.nslots ∧ s.slot sa = none ∧ execAdd sa s = raise .slot 1 0 s.takeKey) ∨
      ∃ f, s.slot sa = some f ∧
        execAdd sa s = succeed 0 0 0 (s.takeKey.setSlot sa (some (f.addKey key)))) := by
  cases h : s.ports.keys with
  | nil => exact .inl ⟨rfl, withKey_of_none h _⟩
  | cons key rest =>
    refine .inr ⟨key, rest, rfl, ?_⟩
    rw [show execAdd sa s = _ from withKey_of_key h _]
    exact withFilter_cases sa s.takeKey _

/-- R187: CONTAINS waits for a KEY buffer, and takes it before any check. -/
theorem execContains_cases (sa : Nat) (s : State) :
    (s.ports.keys = [] ∧ execContains sa s = .next s.waiting) ∨
    ∃ key rest, s.ports.keys = key :: rest ∧
      ((s.nslots ≤ sa ∧ execContains sa s = raise .slot 0 0 s.takeKey) ∨
      (sa < s.nslots ∧ s.slot sa = none ∧ execContains sa s = raise .slot 1 0 s.takeKey) ∨
      ∃ f, s.slot sa = some f ∧
        execContains sa s =
          succeed (if f.hasKey key then 1 else 0) 0 0 (s.takeKey.setSlot sa (some f.closeAll))) := by
  cases h : s.ports.keys with
  | nil => exact .inl ⟨rfl, withKey_of_none h _⟩
  | cons key rest =>
    refine .inr ⟨key, rest, rfl, ?_⟩
    rw [show execContains sa s = _ from withKey_of_key h _]
    exact withFilter_cases sa s.takeKey _

/-- R215, in terms of the whole stream: the header and the body are one write of `Pack(m, k, bits)` that the sink
takes as far as it will. -/
theorem execSerialize_cases (sa : Nat) (s : State) :
    (s.nslots ≤ sa ∧ execSerialize sa s = raise .slot 0 0 s) ∨
    (sa < s.nslots ∧ s.slot sa = none ∧ execSerialize sa s = raise .slot 1 0 s) ∨
    ∃ f, s.slot sa = some f ∧
      ((s.ports.snkReady = false ∧ execSerialize sa s = .next s.waiting) ∨
      (s.ports.snkReady = true ∧
        ((∃ n, s.ports.accept = some n ∧ n < 8 ∧
          execSerialize sa s = raise .ioHeader 0 n (s.snkWrite (pack f.m f.k f.bits))) ∨
        (∃ n, s.ports.accept = some n ∧ 8 ≤ n ∧ n < 8 + cdiv8 f.m ∧
          execSerialize sa s = raise .ioBody 0 n (s.snkWrite (pack f.m f.k f.bits))) ∨
        (s.ports.takes (8 + cdiv8 f.m) = 8 + cdiv8 f.m ∧
          execSerialize sa s = succeed (BitVec.ofNat 32 (8 + cdiv8 f.m)) f.m f.k
            (s.snkWrite (pack f.m f.k f.bits)))))) := by
  rcases withFilter_cases sa s (fun f =>
    if s.ports.snkReady = false then waitPort s
    else
      let hdr := headerBytes f.m f.k
      let body := bodyBytes f.m f.bits
      let n := s.ports.takes hdr.length
      let s := s.snkWrite hdr
      if n < hdr.length then raise .ioHeader 0 n s
      else
        let nb := s.ports.takes body.length
        let s := s.snkWrite body
        if nb < body.length then raise .ioBody 0 (n + nb) s
        else succeed (BitVec.ofNat 32 (n + nb)) f.m f.k s) with h | h | ⟨f, hf, e⟩
  · exact .inl h
  · exact .inr (.inl h)
  · refine .inr (.inr ⟨f, hf, ?_⟩)
    rw [show execSerialize sa s = _ from e]
    cases hr : s.ports.snkReady with
    | false => exact .inl ⟨rfl, if_pos rfl⟩
    | true =>
      refine .inr ⟨rfl, ?_⟩
      rw [if_neg Bool.noConfusion]
      by_cases hs : s.ports.takes 8 < 8
      · cases ha : s.ports.accept with
        | none => simp [Ports.takes, ha] at hs
        | some n =>
          have hn : n < 8 := by simp [Ports.takes, ha] at hs; omega
          have ht : s.ports.takes 8 = n := by simp [Ports.takes, ha]; omega
          refine .inl ⟨n, rfl, hn, ?_⟩
          have hw : s.snkWrite (headerBytes f.m f.k) = s.snkWrite (pack f.m f.k f.bits) := by
            have e1 : min n (8 + cdiv8 f.m) = n := by omega
            have e2 : min n 8 = n := by omega
            simp [State.snkWrite, Ports.snkWrite, Ports.takes, ha, pack, e1, e2,
              List.take_append_of_le_length (l₁ := headerBytes f.m f.k) (l₂ := bodyBytes f.m f.bits)
                (i := n) (by simp; omega)]
          simp [ht, hn, hw]
      · have h8 : s.ports.takes 8 = 8 := Nat.le_antisymm (Ports.takes_le _ _) (by omega)
        have hw : (s.snkWrite (headerBytes f.m f.k)).snkWrite (bodyBytes f.m f.bits) =
            s.snkWrite (pack f.m f.k f.bits) :=
          congrArg (fun p => { s with ports := p }) (Ports.snkWrite_append s.ports _ _ (by simpa using h8))
        simp only [headerBytes_length, h8, Nat.lt_irrefl, if_false, bodyBytes_length, hw,
          State.snkWrite_ports]
        cases ha : s.ports.accept with
        | none =>
          have ht : (s.ports.snkWrite (headerBytes f.m f.k)).takes (cdiv8 f.m) = cdiv8 f.m := by
            simp [Ports.takes, ha]
          refine .inr (.inr ⟨by simp [Ports.takes, ha], ?_⟩)
          simp [ht]
        | some n =>
          have hn : 8 ≤ n := by simp [Ports.takes, ha] at hs; omega
          have ht : (s.ports.snkWrite (headerBytes f.m f.k)).takes (cdiv8 f.m) = min (n - 8) (cdiv8 f.m) := by
            have e2 : min n 8 = 8 := by omega
            simp [Ports.takes, ha, e2]
          rw [ht]
          by_cases hb : n < 8 + cdiv8 f.m
          · refine .inr (.inl ⟨n, rfl, hn, hb, ?_⟩)
            have e1 : min (n - 8) (cdiv8 f.m) = n - 8 := by omega
            rw [e1, if_pos (by omega), show 8 + (n - 8) = n by omega]
          · refine .inr (.inr ⟨by simp [Ports.takes, ha]; omega, ?_⟩)
            have e1 : min (n - 8) (cdiv8 f.m) = cdiv8 f.m := by omega
            rw [e1, if_neg (by omega)]

/-- R220. -/
theorem execDeserialize_cases (sa : Nat) (s : State) :
    (s.nslots ≤ sa ∧ execDeserialize sa s = raise .slot 0 0 s) ∨
    (∃ f, s.slot sa = some f ∧ execDeserialize sa s = raise .slot 2 0 s) ∨
    (sa < s.nslots ∧ s.slot sa = none ∧
      ((s.ports.src.length < 8 ∧ s.ports.srcEnded = false ∧ execDeserialize sa s = .next s.waiting) ∨
      (s.ports.src.length < 8 ∧ s.ports.srcEnded = true ∧
        execDeserialize sa s = raise .deser 0 s.ports.src.length (s.srcDrop 8)) ∨
      (8 ≤ s.ports.src.length ∧ ∃ m k, m = headerM (s.ports.src.take 8) ∧ k = headerK (s.ports.src.take 8) ∧
        ((headerOk s.cfg m.toNat k.toNat = false ∧ execDeserialize sa s = raise .deser 2 8 (s.srcDrop 8)) ∨
        (headerOk s.cfg m.toNat k.toNat = true ∧
          ((s.ports.src.length < 8 + cdiv8 m ∧ s.ports.srcEnded = false ∧
            execDeserialize sa s = .next s.waiting) ∨
          (s.ports.src.length < 8 + cdiv8 m ∧ s.ports.srcEnded = true ∧
            execDeserialize sa s = raise .deser 1 s.ports.src.length (s.srcDrop (8 + cdiv8 m))) ∨
          (8 + cdiv8 m ≤ s.ports.src.length ∧
            execDeserialize sa s = succeed (BitVec.ofNat 32 (8 + cdiv8 m)) m k
              ((s.srcDrop (8 + cdiv8 m)).setSlot sa (some (Filter.construct m.toNat k.toNat
                (unpackBits m.toNat ((s.ports.src.drop 8).take (cdiv8 m)))))))))))) ) := by
  unfold execDeserialize
  rcases Nat.lt_or_ge sa s.nslots with h | h
  · cases h2 : s.slot sa with
    | some f => exact .inr (.inl ⟨f, rfl, withEmpty_of_slot h2 _⟩)
    | none =>
      rw [withEmpty_of_empty h h2]
      refine .inr (.inr ⟨h, rfl, ?_⟩)
      by_cases h8 : s.ports.src.length < 8
      · have ht : (s.srcBytes 8).length = s.ports.src.length := by simp [State.srcBytes]; omega
        cases he : s.ports.srcEnded with
        | false => exact .inl ⟨h8, rfl, by simp [State.srcWaits, h8, he, waitPort]⟩
        | true => exact .inr (.inl ⟨h8, rfl, by simp [State.srcWaits, he, ht, h8]⟩)
      · have ht : (s.srcBytes 8).length = 8 := by simp [State.srcBytes]; omega
        have hw : s.srcWaits 8 = false := by simp [State.srcWaits, h8]
        refine .inr (.inr ⟨by omega, _, _, rfl, rfl, ?_⟩)
        simp only [hw, ht, Bool.false_eq_true, if_false, Nat.lt_irrefl]
        rw [show s.srcBytes 8 = s.ports.src.take 8 from rfl]
        generalize headerM (s.ports.src.take 8) = m
        generalize headerK (s.ports.src.take 8) = k
        cases ho : headerOk s.cfg m.toNat k.toNat with
        | false => exact .inl ⟨rfl, if_pos rfl⟩
        | true =>
          refine .inr ⟨rfl, ?_⟩
          rw [if_neg Bool.noConfusion]
          have hd : (s.srcDrop 8).srcDrop (cdiv8 m) = s.srcDrop (8 + cdiv8 m) := by
            simp [State.srcDrop, List.drop_drop]
          have hl : ((s.srcDrop 8).srcBytes (cdiv8 m)).length = min (cdiv8 m) (s.ports.src.length - 8) := by
            simp [State.srcBytes]
          have hs : (s.srcDrop 8).srcWaits (cdiv8 m) =
              (decide (s.ports.src.length < 8 + cdiv8 m) && !s.ports.srcEnded) := by
            have e : (s.ports.src.length - 8 < cdiv8 m) ↔ (s.ports.src.length < 8 + cdiv8 m) := by omega
            simp [State.srcWaits, e]
          rw [hs, hl, hd]
          by_cases hb : s.ports.src.length < 8 + cdiv8 m
          · cases he : s.ports.srcEnded with
            | false => exact .inl ⟨hb, rfl, by simp [hb, waitPort]⟩
            | true =>
              refine .inr (.inl ⟨hb, rfl, ?_⟩)
              have e1 : min (cdiv8 m) (s.ports.src.length - 8) = s.ports.src.length - 8 := by omega
              have e2 : 8 + (s.ports.src.length - 8) = s.ports.src.length := by omega
              rw [e1, if_neg (by simp), if_pos (by omega), e2]
          · refine .inr (.inr ⟨by omega, ?_⟩)
            have e1 : min (cdiv8 m) (s.ports.src.length - 8) = cdiv8 m := by omega
            rw [e1, if_neg (by simp [hb]), if_neg (Nat.lt_irrefl _)]
            rfl
  · exact .inl ⟨h, withEmpty_of_range h _⟩

/-- R241. -/
theorem execUnion_cases (sa sb : Nat) (s : State) :
    ((s.nslots ≤ sa ∨ s.nslots ≤ sb) ∧ execUnion sa sb s = raise .slot 0 0 s) ∨
    (sa < s.nslots ∧ sb < s.nslots ∧ (s.slot sa = none ∨ s.slot sb = none) ∧
      execUnion sa sb s = raise .slot 1 0 s) ∨
    ∃ f g, s.slot sa = some f ∧ s.slot sb = some g ∧
      (((f.m ≠ g.m ∨ f.k ≠ g.k) ∧ execUnion sa sb s = raise .shape 0 0 s) ∨
      (f.m = g.m ∧ f.k = g.k ∧
        execUnion sa sb s = succeed 0 0 0 (s.setSlot sa (some { f with bits := orBits f.bits g.bits })))) := by
  unfold execUnion
  by_cases h : s.nslots ≤ sa ∨ s.nslots ≤ sb
  · exact .inl ⟨h, if_pos h⟩
  · rw [if_neg h]
    have ha : sa < s.nslots := by omega
    have hb : sb < s.nslots := by omega
    cases h1 : s.slot sa with
    | none => exact .inr (.inl ⟨ha, hb, .inl rfl, rfl⟩)
    | some f =>
      cases h2 : s.slot sb with
      | none => exact .inr (.inl ⟨ha, hb, .inr rfl, rfl⟩)
      | some g =>
        refine .inr (.inr ⟨f, g, rfl, rfl, ?_⟩)
        by_cases hc : f.m ≠ g.m ∨ f.k ≠ g.k
        · exact .inl ⟨hc, if_pos hc⟩
        · exact .inr ⟨by tauto, by tauto, if_neg hc⟩

/-! Every command at once. -/

/-- R275: the errors of each command, with their sub-causes. -/
def errorsOf : Instr → List (ErrKind × Nat)
  | .bitcount => [(.construct, 0), (.construct, 1)]
  | .hashcount => [(.construct, 0), (.construct, 2)]
  | .hreset _ => [(.slot, 0), (.slot, 1), (.index, 0)]
  | .hfeed _ => [(.slot, 0), (.slot, 1), (.index, 0), (.protocol, 0)]
  | .hfinal _ => [(.slot, 0), (.slot, 1), (.index, 0), (.protocol, 0)]
  | .new _ => [(.slot, 0), (.slot, 2), (.construct, 0), (.construct, 1), (.construct, 2)]
  | .drop _ => [(.slot, 0)]
  | .add _ => [(.slot, 0), (.slot, 1)]
  | .contains _ => [(.slot, 0), (.slot, 1)]
  | .serialize _ => [(.slot, 0), (.slot, 1), (.ioHeader, 0), (.ioBody, 0)]
  | .deserialize _ => [(.slot, 0), (.slot, 2), (.deser, 0), (.deser, 1), (.deser, 2)]
  | .union _ _ => [(.slot, 0), (.slot, 1), (.shape, 0)]

/-- The slot a command can write (R83). -/
def writtenSlot : Instr → Option Nat
  | .bitcount => none
  | .hashcount => none
  | .hreset sa => some sa
  | .hfeed sa => some sa
  | .hfinal sa => some sa
  | .new sa => some sa
  | .drop sa => some sa
  | .add sa => some sa
  | .contains sa => some sa
  | .serialize _ => none
  | .deserialize sa => some sa
  | .union sa _ => some sa

/-- What holds of the state `t` in which the command `i`, run in `s`, writes its results: only slots and ports have
changed, and the ports only as far as the command's traffic goes. -/
structure Went (i : Instr) (s t : State) : Prop where
  cfg : t.cfg = s.cfg
  regs : t.regs = s.regs
  host : t.host = s.host
  lastRead : t.lastRead = s.lastRead
  draws : t.draws = s.draws
  keys : t.ports.keys = if takesKey i then s.ports.keys.tail else s.ports.keys
  src : t.ports.src <:+ s.ports.src
  snk : s.ports.snk <+: t.ports.snk

theorem Went.refl {i : Instr} (s : State) (h : takesKey i = false) : Went i s s :=
  ⟨rfl, rfl, rfl, rfl, rfl, by simp [h], List.suffix_refl _, List.prefix_refl _⟩

theorem Went.takeKey {i : Instr} (s : State) (h : takesKey i = true) : Went i s s.takeKey :=
  ⟨rfl, rfl, rfl, rfl, rfl, by simp [h], List.suffix_refl _, List.prefix_refl _⟩

theorem Went.srcDrop {i : Instr} (s : State) (n : Nat) (h : takesKey i = false) : Went i s (s.srcDrop n) :=
  ⟨rfl, rfl, rfl, rfl, rfl, by simp [h], List.drop_suffix _ _, List.prefix_refl _⟩

theorem Went.snkWrite {i : Instr} (s : State) (w : List Byte) (h : takesKey i = false) : Went i s (s.snkWrite w) :=
  ⟨rfl, rfl, rfl, rfl, rfl, by simp [h], List.suffix_refl _, List.prefix_append _ _⟩

theorem Went.setSlot {i : Instr} {s t : State} (h : Went i s t) (a : Nat) (o : Option Filter) :
    Went i s (t.setSlot a o) :=
  ⟨h.1, h.2, h.3, h.4, h.5, h.6, h.7, h.8⟩

/-- The command ends with one of its errors, the slots as they were. -/
def Fails (i : Instr) (s : State) : Prop :=
  ∃ e info n s1, (e, info) ∈ errorsOf i ∧ exec i s = raise e info n s1 ∧ Went i s s1 ∧ s1.slots = s.slots ∧
    (e.code < 6 ∨ 8 < e.code → n = 0)

/-- The command succeeds, having written at most its own slot. -/
def Ends (i : Instr) (s : State) : Prop :=
  ∃ r0 r1 r2 s1, exec i s = succeed r0 r1 r2 s1 ∧ Went i s s1 ∧
    (s1.slots = s.slots ∨ ∃ sa o, writtenSlot i = some sa ∧ sa < s.nslots ∧ s1.slots = s.slots.set sa o)

theorem Fails.clean {i : Instr} {s : State} {e : ErrKind} {info : Nat} (h : exec i s = raise e info 0 s)
    (hm : (e, info) ∈ errorsOf i) (hk : takesKey i = false) : Fails i s :=
  ⟨e, info, 0, s, hm, h, .refl s hk, rfl, fun _ => rfl⟩

theorem Fails.taken {i : Instr} {s : State} {e : ErrKind} {info : Nat} (h : exec i s = raise e info 0 s.takeKey)
    (hm : (e, info) ∈ errorsOf i) (hk : takesKey i = true) : Fails i s :=
  ⟨e, info, 0, s.takeKey, hm, h, .takeKey s hk, rfl, fun _ => rfl⟩

theorem Ends.wrote {i : Instr} {s s1 : State} {sa : Nat} {o : Option Filter} {r0 r1 r2 : Word}
    (h : exec i s = succeed r0 r1 r2 (s1.setSlot sa o)) (hw : Went i s s1) (hs : s1.slots = s.slots)
    (hi : writtenSlot i = some sa) (ha : sa < s.nslots) : Ends i s :=
  ⟨r0, r1, r2, _, h, hw.setSlot _ _, .inr ⟨sa, o, hi, ha, congrArg (·.set sa o) hs⟩⟩

/-- Everything a command can come to: it waits, fails, or ends. -/
theorem exec_ends (i : Instr) (s : State) :
    (PortBlocked i s ∧ exec i s = .next s.waiting) ∨ (¬ PortBlocked i s ∧ Fails i s) ∨
      (¬ PortBlocked i s ∧ Ends i s) := by
  cases i with
  | bitcount =>
    refine .inr ?_
    rcases execBitcount_cases s with ⟨-, e⟩ | ⟨-, -, -, e⟩ | ⟨-, -, -, e⟩
    · exact .inl ⟨id, .clean e (by decide) rfl⟩
    · exact .inl ⟨id, .clean e (by decide) rfl⟩
    · exact .inr ⟨id, _, _, _, _, e, .refl s rfl, .inl rfl⟩
  | hashcount =>
    refine .inr ?_
    rcases execHashcount_cases s with ⟨-, e⟩ | ⟨-, -, e⟩ | ⟨-, -, e⟩
    · exact .inl ⟨id, .clean e (by decide) rfl⟩
    · exact .inl ⟨id, .clean e (by decide) rfl⟩
    · exact .inr ⟨id, _, _, _, _, e, .refl s rfl, .inl rfl⟩
  | hreset sa =>
    refine .inr ?_
    rcases withAcc_cases sa s _ with ⟨-, e⟩ | ⟨-, -, e⟩ | ⟨f, -, -, e⟩ | ⟨f, a, hf, -, -, e⟩
    · exact .inl ⟨id, .clean e (by simp [errorsOf]) rfl⟩
    · exact .inl ⟨id, .clean e (by simp [errorsOf]) rfl⟩
    · exact .inl ⟨id, .clean e (by simp [errorsOf]) rfl⟩
    · exact .inr ⟨id, .wrote e (.refl s rfl) rfl rfl (State.slot_lt hf)⟩
  | hfinal sa =>
    refine .inr ?_
    rcases withOpenAcc_cases sa s _ with ⟨-, e⟩ | ⟨-, -, e⟩ | ⟨f, -, -, e⟩ | ⟨f, a, -, -, -, -, e⟩ |
      ⟨f, a, r, hf, -, -, -, e⟩
    · exact .inl ⟨id, .clean e (by simp [errorsOf]) rfl⟩
    · exact .inl ⟨id, .clean e (by simp [errorsOf]) rfl⟩
    · exact .inl ⟨id, .clean e (by simp [errorsOf]) rfl⟩
    · exact .inl ⟨id, .clean e (by simp [errorsOf]) rfl⟩
    · exact .inr ⟨id, .wrote e (.refl s rfl) rfl rfl (State.slot_lt hf)⟩
  | hfeed sa =>
    rcases execHfeed_cases sa s with ⟨h, e0⟩ | ⟨key, rest, h, e0⟩
    · exact .inl ⟨h, e0⟩
    have hb : ¬ PortBlocked (.hfeed sa) s := by simp [PortBlocked, h]
    refine .inr ?_
    rcases withOpenAcc_cases sa s.takeKey _ with ⟨-, e⟩ | ⟨-, -, e⟩ | ⟨f, -, -, e⟩ |
      ⟨f, a, -, -, -, -, e⟩ |
      ⟨f, a, r, hf, -, -, -, e⟩
    · exact .inl ⟨hb, .taken (e0.trans e) (by simp [errorsOf]) rfl⟩
    · exact .inl ⟨hb, .taken (e0.trans e) (by simp [errorsOf]) rfl⟩
    · exact .inl ⟨hb, .taken (e0.trans e) (by simp [errorsOf]) rfl⟩
    · exact .inl ⟨hb, .taken (e0.trans e) (by simp [errorsOf]) rfl⟩
    · exact .inr ⟨hb, .wrote (e0.trans e) (.takeKey s rfl) rfl rfl (State.slot_lt hf)⟩
  | new sa =>
    refine .inr ?_
    rcases execNew_cases sa s with ⟨-, e⟩ | ⟨f, -, e⟩ | ⟨h, -, ⟨-, e⟩ | ⟨-, -, ⟨-, e⟩ | ⟨-, -, ⟨-, e⟩ | ⟨-, e⟩⟩⟩⟩
    · exact .inl ⟨id, .clean e (by simp [errorsOf]) rfl⟩
    · exact .inl ⟨id, .clean e (by simp [errorsOf]) rfl⟩
    · exact .inl ⟨id, .clean e (by simp [errorsOf]) rfl⟩
    · exact .inl ⟨id, .clean e (by simp [errorsOf]) rfl⟩
    · exact .inl ⟨id, .clean e (by simp [errorsOf]) rfl⟩
    · exact .inr ⟨id, .wrote e (.refl s rfl) rfl rfl h⟩
  | drop sa =>
    refine .inr ?_
    rcases execDrop_cases sa s with ⟨-, e⟩ | ⟨h, e⟩
    · exact .inl ⟨id, .clean e (by simp [errorsOf]) rfl⟩
    · exact .inr ⟨id, .wrote e (.refl s rfl) rfl rfl h⟩
  | add sa =>
    rcases execAdd_cases sa s with ⟨h, e0⟩ | ⟨key, rest, h, ⟨-, e⟩ | ⟨-, -, e⟩ | ⟨f, hf, e⟩⟩
    · exact .inl ⟨h, e0⟩
    · exact .inr (.inl ⟨by simp [PortBlocked, h], .taken e (by simp [errorsOf]) rfl⟩)
    · exact .inr (.inl ⟨by simp [PortBlocked, h], .taken e (by simp [errorsOf]) rfl⟩)
    · exact .inr (.inr ⟨by simp [PortBlocked, h], .wrote e (.takeKey s rfl) rfl rfl (State.slot_lt hf)⟩)
  | contains sa =>
    rcases execContains_cases sa s with ⟨h, e0⟩ | ⟨key, rest, h, ⟨-, e⟩ | ⟨-, -, e⟩ | ⟨f, hf, e⟩⟩
    · exact .inl ⟨h, e0⟩
    · exact .inr (.inl ⟨by simp [PortBlocked, h], .taken e (by simp [errorsOf]) rfl⟩)
    · exact .inr (.inl ⟨by simp [PortBlocked, h], .taken e (by simp [errorsOf]) rfl⟩)
    · exact .inr (.inr ⟨by simp [PortBlocked, h], .wrote e (.takeKey s rfl) rfl rfl (State.slot_lt hf)⟩)
  | serialize sa =>
    rcases execSerialize_cases sa s with ⟨h, e⟩ | ⟨-, h, e⟩ |
      ⟨f, hf, ⟨h, e⟩ | ⟨h, ⟨n, -, -, e⟩ | ⟨n, -, -, -, e⟩ | ⟨-, e⟩⟩⟩
    · have hb : ¬ PortBlocked (.serialize sa) s := by
        rintro ⟨⟨f, hf⟩, -⟩
        have := State.slot_lt hf
        omega
      exact .inr (.inl ⟨hb, .clean e (by simp [errorsOf]) rfl⟩)
    · exact .inr (.inl ⟨by simp [PortBlocked, h], .clean e (by simp [errorsOf]) rfl⟩)
    · exact .inl ⟨⟨⟨f, hf⟩, h⟩, e⟩
    · exact .inr (.inl ⟨by simp [PortBlocked, h],
        _, _, _, _, by simp [errorsOf], e, .snkWrite s _ rfl, rfl, by simp [ErrKind.code]⟩)
    · exact .inr (.inl ⟨by simp [PortBlocked, h],
        _, _, _, _, by simp [errorsOf], e, .snkWrite s _ rfl, rfl, by simp [ErrKind.code]⟩)
    · exact .inr (.inr ⟨by simp [PortBlocked, h], _, _, _, _, e, .snkWrite s _ rfl, .inl rfl⟩)
  | deserialize sa =>
    rcases execDeserialize_cases sa s with ⟨h, e⟩ | ⟨f, h, e⟩ |
      ⟨h, h0, ⟨h8, he, e⟩ | ⟨h8, he, e⟩ |
      ⟨h8, m, k, hm, hk, ⟨ho, e⟩ | ⟨ho, ⟨hl, he, e⟩ | ⟨hl, he, e⟩ | ⟨hl, e⟩⟩⟩⟩
    · exact .inr (.inl ⟨fun hb => by have := hb.1; omega, .clean e (by simp [errorsOf]) rfl⟩)
    · exact .inr (.inl ⟨by simp [PortBlocked, h], .clean e (by simp [errorsOf]) rfl⟩)
    · exact .inl ⟨⟨h, h0, he, .inl h8⟩, e⟩
    · exact .inr (.inl ⟨by simp [PortBlocked, he],
        _, _, _, _, by simp [errorsOf], e, .srcDrop s _ rfl, rfl, by simp [ErrKind.code]⟩)
    · subst hm hk
      exact .inr (.inl ⟨by simp [PortBlocked, ho]; omega,
        _, _, _, _, by simp [errorsOf], e, .srcDrop s _ rfl, rfl, by simp [ErrKind.code]⟩)
    · subst hm hk
      exact .inl ⟨⟨h, h0, he, .inr ⟨ho, hl⟩⟩, e⟩
    · exact .inr (.inl ⟨by simp [PortBlocked, he],
        _, _, _, _, by simp [errorsOf], e, .srcDrop s _ rfl, rfl, by simp [ErrKind.code]⟩)
    · subst hm hk
      exact .inr (.inr ⟨by rintro ⟨-, -, -, h | ⟨-, h⟩⟩ <;> omega,
        .wrote e (.srcDrop s _ rfl) rfl rfl h⟩)
  | union sa sb =>
    refine .inr ?_
    rcases execUnion_cases sa sb s with ⟨-, e⟩ | ⟨-, -, -, e⟩ | ⟨f, g, hf, -, ⟨-, e⟩ | ⟨-, -, e⟩⟩
    · exact .inl ⟨id, .clean e (by simp [errorsOf]) rfl⟩
    · exact .inl ⟨id, .clean e (by simp [errorsOf]) rfl⟩
    · exact .inl ⟨id, .clean e (by simp [errorsOf]) rfl⟩
    · exact .inr ⟨id, .wrote e (.refl s rfl) rfl rfl (State.slot_lt hf)⟩

/-! How the ends of a command read in the words of `Safety.lean`. -/

/-- An error is never the status of a success. -/
theorem statusError_ne_zero (e : ErrKind) (i : Nat) : statusError e i ≠ 0 := by
  intro h
  have := (statusErr_statusError e i).symm.trans ((congrArg statusErr h).trans statusErr_zero)
  cases this

/-- A waiting command has not succeeded. -/
theorem State.waiting_status_ne_zero (s : State) : s.waiting.regs.status ≠ 0 := by
  intro h
  have := (statusBusy_setBusy s.regs.status).symm.trans ((congrArg statusBusy h).trans statusBusy_zero)
  cases this

theorem State.complete_setSlot_slot {s : State} {a : Nat} (o : Option Filter) (h : a < s.nslots)
    (st r0 r1 r2 : Word) : ((s.setSlot a o).complete st r0 r1 r2).slot a = o :=
  State.setSlot_slot_same s o h

theorem sameSlotsBut_complete_setSlot (s : State) (a : Nat) (o : Option Filter) (st r0 r1 r2 : Word) :
    SameSlotsBut a s ((s.setSlot a o).complete st r0 r1 r2) :=
  ⟨by simp, fun _ hb => State.setSlot_slot_other s o hb⟩

theorem sameSlotsBut_complete_setSlot_takeKey (s : State) (a : Nat) (o : Option Filter) (st r0 r1 r2 : Word) :
    SameSlotsBut a s ((s.takeKey.setSlot a o).complete st r0 r1 r2) :=
  ⟨by simp, fun _ hb => State.setSlot_slot_other s.takeKey o hb⟩

/-- A command that raises an error before it touches a port. -/
theorem FailsCleanly.of_raise {i : Instr} {s : State} {e : ErrKind} {info : Nat} {st : Word}
    (h : exec i s = raise e info 0 s) (hs : statusError e info = st) : FailsCleanly i s st :=
  ⟨_, h, ⟨hs, rfl, rfl, rfl⟩, rfl, rfl, ⟨rfl, rfl, rfl, rfl, rfl⟩, ⟨rfl, rfl, rfl, rfl⟩⟩

/-- The filter with accumulator `j` replaced. -/
theorem Filter.getElem?_set_acc {f : Filter} {j : Nat} {a : Acc} (h : f.acc[j]? = some a) (b : Acc) :
    (f.acc.set j b)[j]? = some b := by
  have hj : j < f.acc.length := by
    by_contra hc
    rw [List.getElem?_eq_none (by omega)] at h
    cases h
  simp [hj]

end Sys2Proof.Machine
end

