-- ==== Sys2Proof/Laws/Sizing.lean ====
section
/-! SUPPORT. The integer bounds of the sizing functions against the real logarithm (spec/40_sizing.md R131, R133,
R136; log 5). -/

namespace Sys2Proof.Machine

theorem ceilDiv_eq (a : Nat) {b : Nat} (hb : 0 < b) : ceilDiv a b = ⌈(a : ℝ) / (b : ℝ)⌉₊ := by
  have hb' : (0 : ℝ) < b := by exact_mod_cast hb
  apply le_antisymm
  · rw [ceilDiv, ← Nat.lt_add_one_iff, Nat.div_lt_iff_lt_mul hb]
    have h : (a : ℝ) ≤ ⌈(a : ℝ) / b⌉₊ * b := (div_le_iff₀ hb').mp (Nat.le_ceil _)
    have h2 : a ≤ ⌈(a : ℝ) / b⌉₊ * b := by exact_mod_cast h
    rw [Nat.add_mul]
    omega
  · rw [Nat.ceil_le, div_le_iff₀ hb']
    have h : a ≤ ceilDiv a b * b := by
      have h1 := Nat.div_add_mod (a + (b - 1)) b
      have h2 := Nat.mod_lt (a + (b - 1)) hb
      rw [Nat.mul_comm] at h1
      unfold ceilDiv
      omega
    exact_mod_cast h

/-- The two fractions around `ln 2`. -/
theorem log_two_bounds :
    (2870526793 : ℝ) / 4141294769 < Real.log 2 ∧ Real.log 2 < (497083768 : ℝ) / 717140287 := by
  have e : Real.log 2 = 2 * (1 / 2 * Real.log ((1 + 1 / 3) / (1 - 1 / 3))) := by
    rw [show (1 + 1 / 3) / (1 - 1 / 3) = (2 : ℝ) by norm_num]
    ring
  constructor
  · have h := Real.sum_range_le_log_div (x := 1 / 3) (by norm_num) (by norm_num) 24
    rw [e]
    refine lt_of_lt_of_le ?_ (mul_le_mul_of_nonneg_left h (by norm_num))
    simp only [Finset.sum_range_succ, Finset.sum_range_zero]
    norm_num
  · have h := Real.log_div_le_sum_range_add (x := 1 / 3) (by norm_num) (by norm_num) 24
    rw [e]
    refine lt_of_le_of_lt (mul_le_mul_of_nonneg_left h (by norm_num)) ?_
    simp only [Finset.sum_range_succ, Finset.sum_range_zero]
    norm_num

/-- A floor quotient from below. -/
theorem natDiv_le_div (a b : Nat) : ((a / b : Nat) : ℝ) ≤ (a : ℝ) / b := Nat.cast_div_le

/-- A floor quotient and one from above. -/
theorem div_le_natDiv_add_one (a : Nat) {b : Nat} (hb : 0 < b) : (a : ℝ) / b ≤ ((a / b : Nat) : ℝ) + 1 := by
  have hb' : (0 : ℝ) < b := by exact_mod_cast hb
  rw [div_le_iff₀ hb']
  have h1 := Nat.div_add_mod a b
  have h2 := Nat.mod_lt a hb
  have h : a ≤ (a / b + 1) * b := by
    rw [Nat.add_mul, Nat.mul_comm (a / b)]
    omega
  exact_mod_cast h

/-- The terms `i .. i + fuel - 1` of the series, from below. -/
theorem artanhLo_le (a b : Nat) (z c : ℝ) (hz : z = (a : ℝ) / b) (h0 : 0 ≤ z) :
    ∀ fuel i t : Nat, (t : ℝ) ≤ c * z ^ (2 * i + 1) →
      (artanhLo a b fuel i t : ℝ) ≤
        2 * c * ∑ j ∈ Finset.range fuel, z ^ (2 * (i + j) + 1) / (2 * ((i : ℝ) + j) + 1)
  | 0, _, _, _ => by simp [artanhLo]
  | fuel + 1, i, t, ht => by
    have hnext : ((t * (a * a) / (b * b) : Nat) : ℝ) ≤ c * z ^ (2 * (i + 1) + 1) := by
      refine (natDiv_le_div _ _).trans ?_
      have e : ((t * (a * a) : Nat) : ℝ) / ((b * b : Nat) : ℝ) = t * (z * z) := by
        rw [hz]
        push_cast
        rw [div_mul_div_comm, mul_div_assoc]
      rw [e, show c * z ^ (2 * (i + 1) + 1) = c * z ^ (2 * i + 1) * (z * z) by ring]
      exact mul_le_mul_of_nonneg_right ht (mul_nonneg h0 h0)
    have ih := artanhLo_le a b z c hz h0 fuel (i + 1) _ hnext
    have hterm : ((2 * t / (2 * i + 1) : Nat) : ℝ) ≤ 2 * c * (z ^ (2 * i + 1) / (2 * (i : ℝ) + 1)) := by
      refine (natDiv_le_div _ _).trans ?_
      have hp : (0 : ℝ) < 2 * (i : ℝ) + 1 := by positivity
      push_cast
      rw [mul_div_assoc', div_le_div_iff_of_pos_right hp]
      linarith
    have e1 : ∀ j : ℕ, ((i + 1 : ℕ) : ℝ) + j = (i : ℝ) + ((j + 1 : ℕ) : ℝ) := fun j => by push_cast; ring
    have e2 : ∀ j, i + 1 + j = i + (j + 1) := fun j => by omega
    simp only [e1, e2] at ih
    rw [Finset.sum_range_succ', mul_add]
    simp only [artanhLo, Nat.cast_add (R := ℝ) (2 * t / (2 * i + 1)), Nat.cast_zero, add_zero]
    rw [add_comm]
    exact add_le_add ih hterm

/-- The terms `i .. i + fuel - 1` of the series and a bound of the rest, from above. -/
theorem le_artanhHi (a b : Nat) (z c : ℝ) (hz : z = (a : ℝ) / b) (hb : 0 < b) (h0 : 0 ≤ z) :
    ∀ fuel i t : Nat, c * z ^ (2 * i + 1) ≤ (t : ℝ) →
      2 * c * ∑ j ∈ Finset.range fuel, z ^ (2 * (i + j) + 1) / (2 * ((i : ℝ) + j) + 1) +
        9 / 4 * (c * z ^ (2 * (i + fuel) + 1)) ≤ (artanhHi a b fuel i t : ℝ)
  | 0, i, t, ht => by
    have h := div_le_natDiv_add_one (9 * t) (b := 4) (by decide)
    simp only [artanhHi, Finset.range_zero, Finset.sum_empty, mul_zero, zero_add, Nat.add_zero]
    push_cast at h ⊢
    linarith
  | fuel + 1, i, t, ht => by
    have hnext : c * z ^ (2 * (i + 1) + 1) ≤ ((t * (a * a) / (b * b) + 1 : Nat) : ℝ) := by
      rw [Nat.cast_add, Nat.cast_one]
      refine le_trans ?_ (div_le_natDiv_add_one (t * (a * a)) (Nat.mul_pos hb hb))
      have e : ((t * (a * a) : Nat) : ℝ) / ((b * b : Nat) : ℝ) = t * (z * z) := by
        rw [hz]
        push_cast
        rw [div_mul_div_comm, mul_div_assoc]
      rw [e, show c * z ^ (2 * (i + 1) + 1) = c * z ^ (2 * i + 1) * (z * z) by ring]
      exact mul_le_mul_of_nonneg_right ht (mul_nonneg h0 h0)
    have ih := le_artanhHi a b z c hz hb h0 fuel (i + 1) _ hnext
    have hterm : 2 * c * (z ^ (2 * i + 1) / (2 * (i : ℝ) + 1)) ≤ ((2 * t / (2 * i + 1) : Nat) : ℝ) + 1 := by
      refine le_trans ?_ (div_le_natDiv_add_one _ (by omega))
      have hp : (0 : ℝ) < 2 * (i : ℝ) + 1 := by positivity
      push_cast
      rw [mul_div_assoc', div_le_div_iff_of_pos_right hp]
      linarith
    have e1 : ∀ j : ℕ, ((i + 1 : ℕ) : ℝ) + j = (i : ℝ) + ((j + 1 : ℕ) : ℝ) := fun j => by push_cast; ring
    have e2 : ∀ j, i + 1 + j = i + (j + 1) := fun j => by omega
    simp only [e1, e2] at ih
    rw [Finset.sum_range_succ', mul_add]
    simp only [artanhHi, Nat.cast_add (R := ℝ) (2 * t / (2 * i + 1) + 1),
      Nat.cast_add (R := ℝ) (2 * t / (2 * i + 1)) 1, Nat.cast_one, Nat.cast_zero, add_zero]
    rw [add_right_comm, add_comm]
    exact add_le_add hterm ih

/-- `ln(u / v)` between its two integer bounds over `2^192`. -/
theorem lnRatio_bounds {u v : Nat} (hv : 0 < v) (h1 : v ≤ u) (h2 : u ≤ 2 * v) :
    (lnRatioLo u v : ℝ) ≤ fixedOne * Real.log ((u : ℝ) / v) ∧
    fixedOne * Real.log ((u : ℝ) / v) ≤ (lnRatioHi u v : ℝ) := by
  unfold lnRatioLo lnRatioHi
  generalize fixedOne = c
  generalize seriesTerms = n
  obtain ⟨z, hz⟩ : ∃ z : ℝ, z = ((u - v : ℕ) : ℝ) / ((u + v : ℕ) : ℝ) := ⟨_, rfl⟩
  have hv' : (0 : ℝ) < v := by exact_mod_cast hv
  have hu' : (v : ℝ) ≤ u := by exact_mod_cast h1
  have hu2 : (u : ℝ) ≤ 2 * v := by exact_mod_cast h2
  have hs : (0 : ℝ) < u + v := by linarith
  have hz' : z = ((u : ℝ) - v) / (u + v) := by rw [hz, Nat.cast_sub h1, Nat.cast_add]
  have h0 : 0 ≤ z := by rw [hz']; exact div_nonneg (by linarith) hs.le
  have h3 : z ≤ 1 / 3 := by
    rw [hz', div_le_iff₀ hs]
    linarith
  have hlog : Real.log ((u : ℝ) / v) = 2 * (1 / 2 * Real.log ((1 + z) / (1 - z))) := by
    have e1 : 1 + z = 2 * u / (u + v) := by
      rw [hz']
      field_simp
      ring
    have e2 : 1 - z = 2 * v / (u + v) := by
      rw [hz']
      field_simp
      ring
    have e : (1 + z) / (1 - z) = (u : ℝ) / v := by
      rw [e1, e2, div_div_div_cancel_right₀ hs.ne', mul_div_mul_left _ _ (by norm_num)]
    rw [e]
    ring
  have hc : (0 : ℝ) ≤ 2 * (c : ℝ) := by positivity
  have e0 : ((c * (u - v) : ℕ) : ℝ) / ((u + v : ℕ) : ℝ) = (c : ℝ) * z ^ (2 * 0 + 1) := by
    rw [hz]
    push_cast
    ring
  constructor
  · have h := mul_le_mul_of_nonneg_left (Real.sum_range_le_log_div h0 (by linarith) n) hc
    have hl := artanhLo_le (u - v) (u + v) z c hz h0 n 0 (c * (u - v) / (u + v))
      ((natDiv_le_div _ _).trans (le_of_eq e0))
    simp only [Nat.cast_zero, zero_add] at hl
    rw [hlog, ← mul_assoc, mul_comm (c : ℝ) 2]
    exact hl.trans h
  · have h := mul_le_mul_of_nonneg_left (Real.log_div_le_sum_range_add h0 (by linarith) n) hc
    have hl := le_artanhHi (u - v) (u + v) z c hz (by omega) h0 n 0 (c * (u - v) / (u + v) + 1) (by
      rw [Nat.cast_add, Nat.cast_one, ← e0]
      exact div_le_natDiv_add_one _ (by omega))
    simp only [Nat.cast_zero, zero_add] at hl
    rw [hlog, ← mul_assoc, mul_comm (c : ℝ) 2]
    refine h.trans (le_trans ?_ hl)
    have hp : 0 ≤ z ^ (2 * n + 1) := pow_nonneg h0 _
    have hr : z ^ (2 * n + 1) / (1 - z ^ 2) ≤ 9 / 8 * z ^ (2 * n + 1) := by
      have hz2 : z ^ 2 ≤ 1 / 9 := by nlinarith
      rw [div_le_iff₀ (by linarith)]
      nlinarith
    have := mul_le_mul_of_nonneg_left hr hc
    rw [mul_add]
    refine add_le_add le_rfl (this.trans (le_of_eq ?_))
    ring

/-! The operand `p` (R98). -/

theorem fixedOne_pos : 0 < fixedOne := Nat.two_pow_pos _

theorem ln2Lo_pos : 0 < ln2Lo := by decide +kernel

/-- `ln 2` between its two integer bounds. -/
theorem ln2_bounds : (ln2Lo : ℝ) ≤ fixedOne * Real.log 2 ∧ fixedOne * Real.log 2 ≤ (ln2Hi : ℝ) := by
  have h := lnRatio_bounds (u := 2) (v := 1) (by decide) (by decide) (by decide)
  rwa [show ((2 : ℕ) : ℝ) / ((1 : ℕ) : ℝ) = 2 by norm_num] at h

/-- R98: the three fields of a pattern. -/
theorem pattern_fields (P : DWord) : expField P = P.toNat / 2 ^ 52 % 2048 ∧ fracField P = P.toNat % 2 ^ 52 ∧
    (P.getLsbD 63 = true ↔ 2 ^ 63 ≤ P.toNat) := by
  refine ⟨?_, ?_, ?_⟩
  · simp [expField, BitVec.extractLsb'_toNat, Nat.shiftRight_eq_div_pow]
  · simp [fracField, BitVec.extractLsb'_toNat]
  · have := P.isLt
    rw [BitVec.getLsbD, Nat.testBit_eq_decide_div_mod_eq]
    simp
    omega

/-- R98: a non-negative pattern with a small exponent is the fraction `pMant / 2^pShift`. -/
theorem pval_eq {P : DWord} (h : P.toNat < 2 ^ 63) (h2 : expField P ≤ 1075) :
    pval P = some ((pMant P : ℚ) / 2 ^ pShift P) := by
  have hs : P.getLsbD 63 = false := by
    rw [← Bool.not_eq_true, (pattern_fields P).2.2]
    omega
  have key : ∀ (e : Nat) (f : ℚ), 1 ≤ e → e ≤ 1075 →
      (2 : ℚ) ^ ((e : ℤ) - 1023) * f = f * 2 ^ 52 / 2 ^ (1075 - e) := by
    intro e f h1 h2
    rw [eq_div_iff (by positivity), mul_right_comm, ← zpow_natCast (2 : ℚ) (1075 - e),
      ← zpow_add₀ (by norm_num), show (e : ℤ) - 1023 + ((1075 - e : ℕ) : ℤ) = ((52 : ℕ) : ℤ) by omega,
      zpow_natCast, mul_comm]
  unfold pval
  by_cases h0 : expField P = 0
  · have k := key 1 (fracField P / 2 ^ 52) le_rfl (by omega)
    simp only [h0, hs, pMant, pShift, Bool.false_eq_true, if_false, if_true, one_mul,
      show (0 : ℕ) ≠ 2047 by decide, show max 1 0 = 1 by decide]
    rw [div_mul_cancel₀ _ (by positivity)] at k
    exact congrArg some k
  · have k := key (expField P) (1 + fracField P / 2 ^ 52) (by omega) h2
    have e1 : max 1 (expField P) = expField P := by omega
    simp only [if_neg (show expField P ≠ 2047 by omega), if_neg h0, hs, pMant, pShift, Bool.false_eq_true, if_false,
      one_mul, e1]
    rw [add_mul, div_mul_cancel₀ _ (by positivity), one_mul] at k
    rw [k]
    push_cast
    rfl

/-- R98: a valid `p` lies strictly between 0 and 1. -/
theorem pMant_bounds {P : DWord} (h1 : 1 ≤ P.toNat) (h2 : P.toNat ≤ 0x3FEFFFFFFFFFFFFF) :
    1 ≤ pMant P ∧ pMant P < 2 ^ pShift P := by
  obtain ⟨he, hf, -⟩ := pattern_fields P
  have hfl : fracField P < 2 ^ 52 := by rw [hf]; exact Nat.mod_lt _ (by decide)
  have he3 : expField P ≤ 1022 := by rw [he]; omega
  have hp : 2 ^ 53 ≤ 2 ^ pShift P := Nat.pow_le_pow_right (by decide) (by unfold pShift; omega)
  unfold pMant
  split
  · rename_i h0
    rw [he] at h0
    exact ⟨by rw [hf]; omega, by omega⟩
  · exact ⟨by omega, by omega⟩

/-- `−ln p` between its two integer bounds. -/
theorem negLn_bounds {P : DWord} (h1 : 1 ≤ P.toNat) (h2 : P.toNat ≤ 0x3FEFFFFFFFFFFFFF) :
    (negLnLo P : ℝ) ≤ fixedOne * -Real.log ((pMant P : ℝ) / 2 ^ pShift P) ∧
    fixedOne * -Real.log ((pMant P : ℝ) / 2 ^ pShift P) ≤ (negLnHi P : ℝ) := by
  obtain ⟨hm, hs⟩ := pMant_bounds h1 h2
  have hl1 : 2 ^ Nat.log2 (pMant P) ≤ pMant P := Nat.log2_self_le (by omega)
  have hl2 : pMant P < 2 ^ (Nat.log2 (pMant P) + 1) := Nat.lt_log2_self
  have hLs : Nat.log2 (pMant P) ≤ pShift P := by
    have : 2 ^ Nat.log2 (pMant P) < 2 ^ pShift P := by omega
    exact ((Nat.pow_lt_pow_iff_right (by decide)).mp this).le
  obtain ⟨x1, x2⟩ := lnRatio_bounds (u := pMant P) (v := 2 ^ Nat.log2 (pMant P)) (by positivity) hl1
    (by rw [← pow_succ']; omega)
  obtain ⟨y1, y2⟩ := ln2_bounds
  unfold negLnLo negLnHi
  rw [show pHalvings P = pShift P - Nat.log2 (pMant P) from rfl]
  generalize lnRatioLo (pMant P) (2 ^ Nat.log2 (pMant P)) = xlo at *
  generalize lnRatioHi (pMant P) (2 ^ Nat.log2 (pMant P)) = xhi at *
  generalize ln2Lo = ylo at *
  generalize ln2Hi = yhi at *
  generalize Nat.log2 (pMant P) = l at *
  generalize pShift P = k at *
  generalize pMant P = m at *
  generalize fixedOne = c at *
  have hc0 : (0 : ℝ) ≤ c := Nat.cast_nonneg c
  have hm' : (1 : ℝ) ≤ m := by exact_mod_cast hm
  have hq : -Real.log ((m : ℝ) / 2 ^ k) = ((k - l : ℕ) : ℝ) * Real.log 2 - Real.log ((m : ℝ) / (2 ^ l : ℕ)) := by
    rw [Real.log_div (by positivity) (by positivity), Real.log_div (by positivity) (by positivity)]
    push_cast
    rw [Real.log_pow, Real.log_pow, Nat.cast_sub hLs]
    ring
  have hneg : 0 ≤ -Real.log ((m : ℝ) / 2 ^ k) := by
    rw [neg_nonneg]
    refine Real.log_nonpos (by positivity) ?_
    rw [div_le_one (by positivity)]
    exact_mod_cast hs.le
  have hh : (0 : ℝ) ≤ ((k - l : ℕ) : ℝ) := Nat.cast_nonneg _
  generalize k - l = n at *
  have hlo := mul_le_mul_of_nonneg_left y1 hh
  have hhi := mul_le_mul_of_nonneg_left y2 hh
  have e : c * ((n : ℝ) * Real.log 2 - Real.log ((m : ℝ) / (2 ^ l : ℕ))) =
      n * (c * Real.log 2) - c * Real.log ((m : ℝ) / (2 ^ l : ℕ)) := by ring
  constructor
  · rcases Nat.le_total xhi (n * ylo) with h | h
    · rw [Nat.cast_sub h, Nat.cast_mul, hq, e]
      linarith
    · rw [Nat.sub_eq_zero_of_le h, Nat.cast_zero]
      exact mul_nonneg hc0 hneg
  · have h : ((n * yhi : ℕ) : ℝ) - xlo ≤ ((n * yhi - xlo : ℕ) : ℝ) := by
      rw [sub_le_iff_le_add]
      norm_cast
      omega
    rw [Nat.cast_mul] at h
    rw [hq, e]
    linarith

/-- R131: the exact ceiling is at least 1 and lies between the two bounds. -/
theorem bitCount_bounds {P : DWord} (h1 : 1 ≤ P.toNat) (h2 : P.toNat ≤ 0x3FEFFFFFFFFFFFFF) {n : ℕ} (hn : n ≠ 0)
    {q : ℚ} (hq : pval P = some q) :
    1 ≤ bitCountLo n P ∧ bitCountLo n P ≤ ⌈-(n : ℝ) * Real.log q / Real.log 2 ^ 2⌉₊ ∧
    ⌈-(n : ℝ) * Real.log q / Real.log 2 ^ 2⌉₊ ≤ bitCountHi n P := by
  obtain ⟨he, hf, hs⟩ := pattern_fields P
  rw [pval_eq (by omega) (by rw [he]; omega)] at hq
  cases hq
  obtain ⟨a1, a2⟩ := negLn_bounds h1 h2
  obtain ⟨hm, hs⟩ := pMant_bounds h1 h2
  obtain ⟨hLo, hHi⟩ := ln2_bounds
  push_cast
  have hln := ln2Lo_pos
  have hfo := fixedOne_pos
  unfold bitCountLo bitCountHi
  generalize negLnLo P = alo at *
  generalize negLnHi P = ahi at *
  generalize ln2Lo = ylo at *
  generalize ln2Hi = yhi at *
  generalize fixedOne = c at *
  have hm' : (1 : ℝ) ≤ pMant P := by exact_mod_cast hm
  have hlpos : 0 < -Real.log ((pMant P : ℝ) / 2 ^ pShift P) := by
    rw [neg_pos]
    apply Real.log_neg (by positivity)
    rw [div_lt_one (by positivity)]
    exact_mod_cast hs
  have hx : -(n : ℝ) * Real.log ((pMant P : ℝ) / 2 ^ pShift P) / Real.log 2 ^ 2 =
      n * (-Real.log ((pMant P : ℝ) / 2 ^ pShift P)) / Real.log 2 ^ 2 := by ring
  rw [hx]
  generalize -Real.log ((pMant P : ℝ) / 2 ^ pShift P) = l at *
  have hlog : 0 < Real.log 2 := Real.log_pos (by norm_num)
  have hn' : (0 : ℝ) < n := by exact_mod_cast Nat.pos_of_ne_zero hn
  have hone : 1 ≤ ⌈(n : ℝ) * l / Real.log 2 ^ 2⌉₊ := Nat.one_le_ceil_iff.mpr (by positivity)
  have hc : (0 : ℝ) < c := by exact_mod_cast hfo
  have hHi0 : (0 : ℝ) < yhi := lt_of_lt_of_le (mul_pos hc hlog) hHi
  have hLo0 : (0 : ℝ) < ylo := by exact_mod_cast hln
  have hHiN : 0 < yhi := by exact_mod_cast hHi0
  have ex : (n : ℝ) * l / Real.log 2 ^ 2 = n * (c * l) * c / ((c * Real.log 2) * (c * Real.log 2)) := by
    field_simp
  refine ⟨Nat.le_max_left _ _, ?_, ?_⟩
  · rw [max_le_iff]
    refine ⟨hone, ?_⟩
    rw [ceilDiv_eq _ (by positivity)]
    apply Nat.ceil_mono
    rw [ex]
    push_cast
    apply div_le_div₀ (by positivity) _ (by positivity) (mul_le_mul hHi hHi (by positivity) (by positivity))
    apply mul_le_mul_of_nonneg_right _ hc.le
    exact mul_le_mul_of_nonneg_left a1 hn'.le
  · refine le_trans ?_ (Nat.le_max_right _ _)
    rw [ceilDiv_eq _ (by positivity)]
    apply Nat.ceil_mono
    rw [ex]
    push_cast
    apply div_le_div₀ (by positivity) _ (by positivity) (mul_le_mul hLo hLo (by positivity) (by positivity))
    apply mul_le_mul_of_nonneg_right _ hc.le
    exact mul_le_mul_of_nonneg_left a2 hn'.le

/-- R131, R136: `bitCount` is the exact real ceiling, for every `n ≥ 1` and every valid `p`. -/
theorem bitCount_eq {P : DWord} (h1 : 1 ≤ P.toNat) (h2 : P.toNat ≤ 0x3FEFFFFFFFFFFFFF) {n : ℕ} (hn : n ≠ 0) {q : ℚ}
    (hq : pval P = some q) : bitCount n P = ⌈-(n : ℝ) * Real.log q / Real.log 2 ^ 2⌉₊ := by
  unfold bitCount
  split
  · obtain ⟨-, h3, h4⟩ := bitCount_bounds h1 h2 hn hq
    omega
  · generalize exactBitCount n P = x
    obtain ⟨m, h⟩ := x
    refine (show m = _ from h).trans ?_
    rw [hq, Option.getD_some]

/-- R131: it is at least 1. -/
theorem bitCount_pos {P : DWord} (hP : validP P = true) {n : ℕ} (hn : n ≠ 0) : 1 ≤ bitCount n P := by
  simp only [validP, Bool.and_eq_true, decide_eq_true_eq] at hP
  have hq := pval_eq (P := P) (by omega) (by rw [(pattern_fields P).1]; omega)
  obtain ⟨h1, h2, -⟩ := bitCount_bounds hP.1 hP.2 hn hq
  rw [bitCount_eq hP.1 hP.2 hn hq]
  omega

/-! How far the bounds are apart. -/

/-- The two series, for `a / b ≤ 1/3`. -/
theorem artanhHi_le {a b : Nat} (hb : 0 < b) (hab : 9 * (a * a) ≤ b * b) :
    ∀ fuel i tl th : Nat, th ≤ tl + 3 → th ≤ 2 * 9 ^ fuel + 2 →
      artanhHi a b fuel i th ≤ artanhLo a b fuel i tl + 7 * fuel + 10
  | 0, _, _, th, _, h2 => by
    simp only [artanhHi, artanhLo]
    omega
  | fuel + 1, i, tl, th, h1, h2 => by
    have hB : 0 < b * b := Nat.mul_pos hb hb
    have e1 : th * (a * a) / (b * b) ≤ tl * (a * a) / (b * b) + 1 := by
      rw [← Nat.add_div_right _ hB]
      refine Nat.div_le_div_right ?_
      nlinarith
    have e2 : th * (a * a) / (b * b) ≤ th / 9 := by
      rw [Nat.div_le_iff_le_mul_add_pred hB]
      have h3 := Nat.div_add_mod th 9
      have h4 := Nat.mod_lt th (show 9 > 0 by decide)
      generalize th / 9 = d at *
      have h5 : 9 * (th * (a * a)) ≤ th * (b * b) := by nlinarith
      have h6 : th * (b * b) ≤ (9 * d + 8) * (b * b) := Nat.mul_le_mul_right _ (by omega)
      rw [Nat.add_mul, Nat.mul_assoc] at h6
      rw [Nat.mul_comm (b * b) d]
      generalize d * (b * b) = x at *
      omega
    have e3 : 2 * th / (2 * i + 1) ≤ 2 * tl / (2 * i + 1) + 6 := by
      rw [← Nat.add_mul_div_left _ _ (show 0 < 2 * i + 1 by omega)]
      exact Nat.div_le_div_right (by omega)
    have ih := artanhHi_le hb hab fuel (i + 1) (tl * (a * a) / (b * b)) (th * (a * a) / (b * b) + 1) (by omega)
      (by rw [pow_succ] at h2; omega)
    simp only [artanhHi, artanhLo]
    omega

/-- The bounds of a logarithm are 458 units of `2^-192` apart at most. -/
theorem lnRatio_gap {u v : Nat} (hv : 0 < v) (h1 : v ≤ u) (h2 : u ≤ 2 * v) :
    lnRatioHi u v ≤ lnRatioLo u v + 458 := by
  obtain ⟨a, rfl⟩ : ∃ a, u = v + a := ⟨u - v, by omega⟩
  have e : v + a - v = a := by omega
  have hle : fixedOne * a / (v + a + v) ≤ fixedOne := by
    refine Nat.div_le_of_le_mul ?_
    rw [Nat.mul_comm]
    exact Nat.mul_le_mul_right _ (by omega)
  have hc : fixedOne + 1 ≤ 2 * 9 ^ seriesTerms + 2 := by decide +kernel
  have h := artanhHi_le (a := a) (b := v + a + v) (by omega) (by nlinarith) seriesTerms 0
    (fixedOne * a / (v + a + v)) (fixedOne * a / (v + a + v) + 1) (by omega) (by omega)
  unfold lnRatioHi lnRatioLo
  rw [e]
  exact h.trans (by simp [seriesTerms])

/-- The bounds of `−ln p` are `2^20` units of `2^-192` apart at most. -/
theorem negLn_gap {P : DWord} (h1 : 1 ≤ P.toNat) (h2 : P.toNat ≤ 0x3FEFFFFFFFFFFFFF) :
    negLnHi P ≤ negLnLo P + 2 ^ 20 := by
  obtain ⟨hm, hs⟩ := pMant_bounds h1 h2
  have hl1 : 2 ^ Nat.log2 (pMant P) ≤ pMant P := Nat.log2_self_le (by omega)
  have hl2 : pMant P < 2 ^ (Nat.log2 (pMant P) + 1) := Nat.lt_log2_self
  have g1 := lnRatio_gap (u := pMant P) (v := 2 ^ Nat.log2 (pMant P)) (by positivity) hl1 (by rw [← pow_succ']; omega)
  have g2 : ln2Hi ≤ ln2Lo + 458 := lnRatio_gap (by decide) (by decide) (by decide)
  have hk : pHalvings P ≤ 1075 := by unfold pHalvings pShift; omega
  have g3 : pHalvings P * ln2Hi ≤ pHalvings P * ln2Lo + 1075 * 458 := by nlinarith
  unfold negLnHi negLnLo
  omega

end Sys2Proof.Machine
end

