-- ==== Sys2Proof/Laws/Step.lean ====
section
/-! SUPPORT. What a step and a move of the host can do (spec/10_state.md R30 to R33, spec/70_reset_and_hazards.md R290
to R302). -/

namespace Sys2Proof.Machine

/-- The core's turn needs a command in flight. -/
theorem State.busy_of_coreTurn {s : State} (h : s.coreTurn = true) : s.busy = true := by
  unfold State.coreTurn at h
  exact (Bool.and_eq_true_iff.mp h).1

/-- Everything a step that goes on can be. -/
theorem step_cases {s t : State} (h : step s = .next t) :
    (s.coreTurn = true ∧ ∃ i, decode s.regs.cmd = .ok i ∧ exec i s = .next t) ∨
    (s.coreTurn = true ∧ ∃ e, decode s.regs.cmd = .error e ∧ t = s.complete (statusError .illegal 0) 0 0 0) ∨
    (s.coreTurn = false ∧ s.host = [] ∧ t = s) ∨
    (s.coreTurn = false ∧ ∃ mv rest, s.host = mv :: rest ∧ hostMove mv { s with host := rest } = .next t) := by
  unfold step at h
  cases hc : s.coreTurn with
  | true =>
    rw [hc, if_pos rfl, issue] at h
    cases hd : decode s.regs.cmd with
    | ok i => rw [hd] at h; exact .inl ⟨rfl, i, rfl, h⟩
    | error e =>
      rw [hd] at h
      exact .inr (.inl ⟨rfl, e, rfl, by simpa [raise_eq] using h.symm⟩)
  | false =>
    rw [hc, if_neg Bool.noConfusion, hostTurn] at h
    cases hh : s.host with
    | nil => rw [hh] at h; exact .inr (.inr (.inl ⟨rfl, rfl, by simpa using h.symm⟩))
    | cons mv rest => rw [hh] at h; exact .inr (.inr (.inr ⟨rfl, mv, rest, rfl, h⟩))

theorem hostWrite_cases {r : HostReg} {w : Word} {s t : State} (h : hostWrite r w s = .next t) :
    (s.busy = false ∨ r.writable = false) ∧ t = { s with regs := s.regs.hostSet r w } := by
  unfold hostWrite at h
  split at h
  · cases h
  · rename_i hb
    exact ⟨by cases hs : s.busy <;> simp_all, by simpa using h.symm⟩

theorem hostRead_cases {r : HostReg} {s t : State} (h : hostRead r s = .next t) :
    (s.busy = true ∧ r.isResult = true ∧
      t = { s with lastRead := Config.freeWord s.draws, draws := s.draws + 1 }) ∨
    ((s.busy = false ∨ r.isResult = false) ∧ t = { s with lastRead := s.regs.get r }) := by
  unfold hostRead at h
  split at h
  · rename_i hb
    exact .inl ⟨by simp_all, by simp_all, by simpa using h.symm⟩
  · rename_i hb
    exact .inr ⟨by cases hs : s.busy <;> simp_all, by simpa using h.symm⟩

theorem hostPresent_cases {key : List Byte} {s t : State} (h : hostPresent key s = .next t) :
    (s.busy = false ∨ s.wantsKey = true) ∧ key.length ≤ s.cfg.keyMax ∧
      t = { s with ports := { s.ports with keys := s.ports.keys ++ [key] } } := by
  unfold hostPresent at h
  split at h
  · cases h
  · rename_i hb
    split at h
    · cases h
    · rename_i hl
      exact ⟨by cases hs : s.busy <;> simp_all, by omega, by simpa using h.symm⟩

/-- A host write sets no bit of `STATUS` but `BUSY`. -/
theorem HostRegs.hostSet_status (g : HostRegs) (r : HostReg) (w : Word) :
    (g.hostSet r w).status = g.status ∨ (g.hostSet r w).status = statusSetBusy g.status := by
  cases r <;> first | exact .inl rfl | exact .inr rfl

/-- The ports of an abandoned command: a KEY buffer is lost or stays; the sink has a prefix more, the source a prefix
less. -/
theorem State.abandonPorts_spec (i : Instr) (n : Nat) (s : State) :
    ((s.abandonPorts i n).keys = s.ports.keys.tail ∨ (s.abandonPorts i n).keys = s.ports.keys) ∧
    s.ports.snk <+: (s.abandonPorts i n).snk ∧ (s.abandonPorts i n).src <:+ s.ports.src := by
  cases i <;> simp only [State.abandonPorts] <;> (try split) <;>
    simp [List.prefix_append, List.drop_suffix]

theorem State.abandon_spec (s : State) :
    s.abandon.cfg = s.cfg ∧ s.abandon.slots = s.slots ∧ s.abandon.host = s.host ∧
    (s.abandon.ports.keys = s.ports.keys.tail ∨ s.abandon.ports.keys = s.ports.keys) := by
  unfold State.abandon
  split
  · exact ⟨rfl, rfl, rfl, (State.abandonPorts_spec _ _ s).1⟩
  · exact ⟨rfl, rfl, rfl, .inr rfl⟩

/-- What every move of the host leaves: the capacities, and the slots unless it is the reset. -/
theorem hostMove_cases {mv : HostMove} {s t : State} (h : hostMove mv s = .next t) :
    t.cfg = s.cfg ∧ t.host = s.host ∧
    (∀ key ∈ t.ports.keys, key ∈ s.ports.keys ∨ key.length ≤ s.cfg.keyMax) ∧
    ((t.slots = s.slots ∧ (t.regs.status = s.regs.status ∨ t.regs.status = statusSetBusy s.regs.status)) ∨
      (mv = .reset ∧ t.slots = List.replicate s.nslots none ∧ t.regs = HostRegs.zero)) := by
  cases mv with
  | write r w =>
    obtain ⟨-, rfl⟩ := hostWrite_cases h
    exact ⟨rfl, rfl, fun _ h => .inl h, .inl ⟨rfl, HostRegs.hostSet_status _ _ _⟩⟩
  | writeBack r =>
    obtain ⟨-, rfl⟩ := hostWrite_cases h
    exact ⟨rfl, rfl, fun _ h => .inl h, .inl ⟨rfl, HostRegs.hostSet_status _ _ _⟩⟩
  | read r =>
    rcases hostRead_cases h with ⟨-, -, rfl⟩ | ⟨-, rfl⟩ <;>
      exact ⟨rfl, rfl, fun _ h => .inl h, .inl ⟨rfl, .inl rfl⟩⟩
  | await =>
    obtain rfl : t = s := by simpa [hostMove] using h.symm
    exact ⟨rfl, rfl, fun _ h => .inl h, .inl ⟨rfl, .inl rfl⟩⟩
  | presentKey key =>
    obtain ⟨-, hl, rfl⟩ := hostPresent_cases h
    refine ⟨rfl, rfl, fun k hk => ?_, .inl ⟨rfl, .inl rfl⟩⟩
    rcases List.mem_append.mp hk with hk | hk
    · exact .inl hk
    · exact .inr (by rw [List.mem_singleton.mp hk]; exact hl)
  | supply bytes ended =>
    obtain rfl : t = _ := by simpa [hostMove, hostSupply] using h.symm
    exact ⟨rfl, rfl, fun _ h => .inl h, .inl ⟨rfl, .inl rfl⟩⟩
  | sink accept ready =>
    obtain rfl : t = _ := by simpa [hostMove, hostSink] using h.symm
    exact ⟨rfl, rfl, fun _ h => .inl h, .inl ⟨rfl, .inl rfl⟩⟩
  | reset =>
    simp only [hostMove, hostReset, Host.Outcome.next.injEq] at h
    subst h
    obtain ⟨h1, h2, h3, h4⟩ := State.abandon_spec s
    split
    · refine ⟨h1, h3, ?_, .inr ⟨rfl, ?_, rfl⟩⟩
      · intro key hk
        rcases h4 with h4 | h4
        · rw [State.hardReset_ports, h4] at hk
          exact .inl (List.mem_of_mem_tail hk)
        · exact .inl (h4 ▸ hk)
      · simp [State.nslots, h2]
    · exact ⟨rfl, rfl, fun _ h => .inl h, .inr ⟨rfl, rfl, rfl⟩⟩

end Sys2Proof.Machine
end

