-- ==== Sys2Proof/Laws/Slots.lean ====
section
/-! SUPPORT. Where a filter in a slot can come from: everything a command can make of what a slot holds
(spec/10_state.md R22 to R24). -/

namespace Sys2Proof.Machine

theorem ceilDiv_pos {a b : Nat} (ha : 1 ≤ a) (hb : 1 ≤ b) : 1 ≤ ceilDiv a b := by
  unfold ceilDiv
  rw [Nat.le_div_iff_mul_le (by omega)]
  omega

/-- R134 (a). -/
theorem hashCount_pos {m n : Nat} (hm : 1 ≤ m) (hn : 1 ≤ n) : 1 ≤ hashCount m n :=
  ceilDiv_pos (by omega) (by omega)

/-- `Made s old g`: a command run in `s` can leave the filter `g` in a slot that held `old`. -/
inductive Made (s : State) : Option Filter → Filter → Prop where
  /-- HRESET, HFEED, HFINAL. -/
  | acc {f : Filter} {j : Nat} {a b : Acc} (ha : f.acc[j]? = some a) (hs : b.seed = a.seed)
      (hb : b.run = none ∨ b.run = some (AccRun.start a.seed) ∨
        ∃ r key, a.run = some r ∧ b.run = some (r.feed key)) : Made s (some f) { f with acc := f.acc.set j b }
  /-- ADD. -/
  | add (f : Filter) (key : List Byte) : Made s (some f) (f.addKey key)
  /-- CONTAINS. -/
  | close (f : Filter) : Made s (some f) f.closeAll
  /-- NEW, DESERIALIZE. -/
  | construct {mm kk : Nat} {bits : List Bool} (hm : 1 ≤ mm) (hm2 : mm ≤ 2 ^ 32 - 1) (hmc : mm ≤ s.cfg.mMax)
      (hk : 1 ≤ kk) (hkc : kk ≤ s.cfg.kMax) (hb : bits.length = mm) : Made s none (Filter.construct mm kk bits)
  /-- UNION. -/
  | union {f g : Filter} {b : Nat} (hg : s.slot b = some g) (hm : f.m = g.m) (hk : f.k = g.k) :
      Made s (some f) { f with bits := orBits f.bits g.bits }

/-- A slot after one slot has been written. -/
theorem State.slot_of_set {s t : State} {sa a : Nat} {o : Option Filter} (h : t.slots = s.slots.set sa o) :
    t.slot a = s.slot a ∨ (a = sa ∧ t.slot a = o) := by
  by_cases ha : a = sa
  · subst ha
    by_cases hl : a < s.slots.length
    · exact .inr ⟨rfl, by simp [State.slot, h, hl]⟩
    · exact .inl (by simp [State.slot, h, hl])
  · exact .inl (by simp [State.slot, h, List.getElem?_set_ne (Ne.symm ha)])

/-- What a command makes of each slot: as before, empty, or one of the filters of `Made`. -/
theorem exec_slot_cases {i : Instr} {s t : State} (he : exec i s = .next t) (a : Nat) :
    t.slot a = s.slot a ∨ (i = .drop a ∧ t.slot a = none) ∨
      ∃ g, t.slot a = some g ∧ Made s (s.slot a) g ∧
        ((∀ sa, i ≠ .add sa) → (∀ sa sb, i ≠ .union sa sb) → ∀ f, s.slot a = some f → g.bits = f.bits) := by
  have keep : ∀ {e : ErrKind} {info n : Nat} {s1 : State}, s1.slots = s.slots → exec i s = raise e info n s1 →
      t.slot a = s.slot a := by
    intro e info n s1 hs h
    rw [h, raise_eq] at he
    cases he
    simp [State.slot, hs]
  have wait : exec i s = .next s.waiting → t.slot a = s.slot a := by
    intro h
    rw [h] at he
    cases he
    rfl
  have write : ∀ {s1 : State} {sa : Nat} {o : Option Filter} {r0 r1 r2 : Word}, s1.slots = s.slots →
      exec i s = succeed r0 r1 r2 (s1.setSlot sa o) → t.slot a = s.slot a ∨ (a = sa ∧ t.slot a = o) := by
    intro s1 sa o r0 r1 r2 hs h
    rw [h, succeed_eq] at he
    cases he
    exact State.slot_of_set (by simp [hs])
  cases i with
  | bitcount =>
    rcases execBitcount_cases s with ⟨-, e⟩ | ⟨-, -, -, e⟩ | ⟨-, -, -, e⟩
    · exact .inl (keep rfl e)
    · exact .inl (keep rfl e)
    · rw [show exec .bitcount s = _ from e, succeed_eq] at he
      cases he
      exact .inl rfl
  | hashcount =>
    rcases execHashcount_cases s with ⟨-, e⟩ | ⟨-, -, e⟩ | ⟨-, -, e⟩
    · exact .inl (keep rfl e)
    · exact .inl (keep rfl e)
    · rw [show exec .hashcount s = _ from e, succeed_eq] at he
      cases he
      exact .inl rfl
  | hreset sa =>
    rcases withAcc_cases sa s _ with ⟨-, e⟩ | ⟨-, -, e⟩ | ⟨f, -, -, e⟩ | ⟨f, x, hf, -, hx, e⟩
    · exact .inl (keep rfl e)
    · exact .inl (keep rfl e)
    · exact .inl (keep rfl e)
    · rcases write rfl e with h | ⟨rfl, h⟩
      · exact .inl h
      · rw [hf]
        exact .inr (.inr ⟨_, h, .acc hx rfl (.inr (.inl rfl)), by rintro - - _ ⟨⟩; rfl⟩)
  | hfinal sa =>
    rcases withOpenAcc_cases sa s _ with ⟨-, e⟩ | ⟨-, -, e⟩ | ⟨f, -, -, e⟩ | ⟨f, x, -, -, -, -, e⟩ |
      ⟨f, x, r, hf, -, hx, -, e⟩
    · exact .inl (keep rfl e)
    · exact .inl (keep rfl e)
    · exact .inl (keep rfl e)
    · exact .inl (keep rfl e)
    · rcases write rfl e with h | ⟨rfl, h⟩
      · exact .inl h
      · rw [hf]
        exact .inr (.inr ⟨_, h, .acc hx rfl (.inl rfl), by rintro - - _ ⟨⟩; rfl⟩)
  | hfeed sa =>
    rcases execHfeed_cases sa s with ⟨h, e0⟩ | ⟨key, rest, h, e0⟩
    · exact .inl (wait e0)
    rcases withOpenAcc_cases sa s.takeKey _ with ⟨-, e⟩ | ⟨-, -, e⟩ | ⟨f, -, -, e⟩ |
      ⟨f, x, -, -, -, -, e⟩ | ⟨f, x, r, hf, -, hx, hr, e⟩
    · exact .inl (keep (s1 := s.takeKey) rfl (e0.trans e))
    · exact .inl (keep (s1 := s.takeKey) rfl (e0.trans e))
    · exact .inl (keep (s1 := s.takeKey) rfl (e0.trans e))
    · exact .inl (keep (s1 := s.takeKey) rfl (e0.trans e))
    · rcases write (s1 := s.takeKey) rfl (e0.trans e) with h | ⟨rfl, h⟩
      · exact .inl h
      · rw [show s.slot a = some f from hf]
        exact .inr (.inr ⟨_, h, .acc hx rfl (.inr (.inr ⟨r, key, hr, rfl⟩)), by rintro - - _ ⟨⟩; rfl⟩)
  | new sa =>
    rcases execNew_cases sa s with ⟨-, e⟩ | ⟨f, -, e⟩ |
      ⟨-, h0, ⟨-, e⟩ | ⟨hn, hv, ⟨-, e⟩ | ⟨hm, hmc, ⟨-, e⟩ | ⟨hkc, e⟩⟩⟩⟩
    · exact .inl (keep rfl e)
    · exact .inl (keep rfl e)
    · exact .inl (keep rfl e)
    · exact .inl (keep rfl e)
    · exact .inl (keep rfl e)
    · rcases write rfl e with h | ⟨rfl, h⟩
      · exact .inl h
      · rw [h0]
        refine .inr (.inr ⟨_, h, .construct (bitCount_pos hv hn) hm hmc ?_ hkc (by simp), by rintro - - _ ⟨⟩⟩)
        exact hashCount_pos (bitCount_pos hv hn) (Nat.pos_of_ne_zero hn)
  | drop sa =>
    rcases execDrop_cases sa s with ⟨-, e⟩ | ⟨-, e⟩
    · exact .inl (keep rfl e)
    · rcases write rfl e with h | ⟨rfl, h⟩
      · exact .inl h
      · exact .inr (.inl ⟨rfl, h⟩)
  | add sa =>
    rcases execAdd_cases sa s with ⟨-, e⟩ | ⟨key, rest, -, ⟨-, e⟩ | ⟨-, -, e⟩ | ⟨f, hf, e⟩⟩
    · exact .inl (wait e)
    · exact .inl (keep (s1 := s.takeKey) rfl e)
    · exact .inl (keep (s1 := s.takeKey) rfl e)
    · rcases write (s1 := s.takeKey) rfl e with h | ⟨rfl, h⟩
      · exact .inl h
      · rw [hf]
        exact .inr (.inr ⟨_, h, .add f key, fun h => absurd rfl (h a)⟩)
  | contains sa =>
    rcases execContains_cases sa s with ⟨-, e⟩ | ⟨key, rest, -, ⟨-, e⟩ | ⟨-, -, e⟩ | ⟨f, hf, e⟩⟩
    · exact .inl (wait e)
    · exact .inl (keep (s1 := s.takeKey) rfl e)
    · exact .inl (keep (s1 := s.takeKey) rfl e)
    · rcases write (s1 := s.takeKey) rfl e with h | ⟨rfl, h⟩
      · exact .inl h
      · rw [hf]
        exact .inr (.inr ⟨_, h, .close f, by rintro - - _ ⟨⟩; rfl⟩)
  | serialize sa =>
    rcases execSerialize_cases sa s with ⟨-, e⟩ | ⟨-, -, e⟩ |
      ⟨f, -, ⟨-, e⟩ | ⟨-, ⟨n, -, -, e⟩ | ⟨n, -, -, -, e⟩ | ⟨-, e⟩⟩⟩
    · exact .inl (keep rfl e)
    · exact .inl (keep rfl e)
    · exact .inl (wait e)
    · exact .inl (keep (s1 := s.snkWrite _) rfl e)
    · exact .inl (keep (s1 := s.snkWrite _) rfl e)
    · rw [show exec (.serialize sa) s = _ from e, succeed_eq] at he
      cases he
      exact .inl rfl
  | deserialize sa =>
    rcases execDeserialize_cases sa s with ⟨-, e⟩ | ⟨f, -, e⟩ | ⟨-, h0, ⟨-, -, e⟩ | ⟨-, -, e⟩ |
      ⟨-, m, k, -, -, ⟨-, e⟩ | ⟨ho, ⟨-, -, e⟩ | ⟨-, -, e⟩ | ⟨-, e⟩⟩⟩⟩
    · exact .inl (keep rfl e)
    · exact .inl (keep rfl e)
    · exact .inl (wait e)
    · exact .inl (keep (s1 := s.srcDrop _) rfl e)
    · exact .inl (keep (s1 := s.srcDrop _) rfl e)
    · exact .inl (wait e)
    · exact .inl (keep (s1 := s.srcDrop _) rfl e)
    · rcases write (s1 := s.srcDrop _) rfl e with h | ⟨rfl, h⟩
      · exact .inl h
      · rw [headerOk_iff] at ho
        rw [h0]
        exact .inr (.inr ⟨_, h, .construct (by omega) (by have := m.isLt; omega) ho.2.2.1 (by omega) ho.2.2.2
          (by simp), by rintro - - _ ⟨⟩⟩)
  | union sa sb =>
    rcases execUnion_cases sa sb s with ⟨-, e⟩ | ⟨-, -, -, e⟩ | ⟨f, g, hf, hg, ⟨-, e⟩ | ⟨hm, hk, e⟩⟩
    · exact .inl (keep rfl e)
    · exact .inl (keep rfl e)
    · exact .inl (keep rfl e)
    · rcases write rfl e with h | ⟨rfl, h⟩
      · exact .inl h
      · rw [hf]
        exact .inr (.inr ⟨_, h, .union hg hm hk, fun _ h => absurd rfl (h a sb)⟩)

/-! What `Made` gives for each invariant. -/

theorem State.Inv.filter_wf {s : State} (h : s.Inv) {a : Nat} {f : Filter} (hf : s.slot a = some f) : f.wf s.cfg :=
  h.filters _ (State.mem_slots_iff.mpr ⟨a, hf⟩) f rfl

/-- R22 of a filter a command has made. -/
theorem Made.wf {s : State} (hI : s.Inv) {a : Nat} {g : Filter} (h : Made s (s.slot a) g) : g.wf s.cfg := by
  generalize ho : s.slot a = o at h
  cases h with
  | acc ha hs hb =>
    have hw := hI.filter_wf ho
    refine Filter.setAcc_wf hw ha hs fun r hr => ?_
    rcases hb with hb | hb | ⟨r0, key, h0, hb⟩ <;> rw [hb] at hr <;> cases hr
    · rfl
    · exact AccRun.feed_wf_tail _ _ (hw.tails _ (List.mem_of_getElem? ha) _ h0)
  | add f key => exact Filter.addKey_wf (hI.filter_wf ho) key
  | close f => exact Filter.closeAll_wf (hI.filter_wf ho)
  | construct hm hm2 hmc hk hkc hb =>
    exact Filter.construct_wf hm hm2 hmc hk (by have := hI.cfgRange.2.1.2; omega) hkc hb
  | union hg hm hk => exact Filter.orBits_wf (hI.filter_wf ho) (hI.filter_wf hg) hm

/-- R28 of a filter a command has made. -/
theorem Made.stream {s : State} (hS : s.StreamInv) {a : Nat} {g : Filter} (h : Made s (s.slot a) g) :
    ∀ x ∈ g.acc, ∀ r ∈ x.run, ∃ T, r.Holds x.seed T := by
  generalize ho : s.slot a = o at h
  cases h with
  | acc ha hs hb =>
    intro x hx r hr
    rcases List.mem_or_eq_of_mem_set hx with h | rfl
    · exact hS _ _ ho x h r hr
    · rcases hb with hb | hb | ⟨r0, key, h0, hb⟩ <;> rw [hb] at hr <;> cases hr <;> rw [hs]
      · exact ⟨[], AccRun.start_holds _⟩
      · obtain ⟨T, hT⟩ := hS _ _ ho _ (List.mem_of_getElem? ha) _ h0
        exact ⟨_, AccRun.feed_holds hT key⟩
  | add f key =>
    intro x hx r hr
    obtain ⟨y, -, rfl⟩ : ∃ y ∈ f.acc, y.close = x := by simpa using hx
    cases hr
  | close f =>
    intro x hx r hr
    obtain ⟨y, -, rfl⟩ : ∃ y ∈ f.acc, y.close = x := by simpa using hx
    cases hr
  | construct hm hm2 hmc hk hkc hb =>
    intro x hx r hr
    obtain ⟨j, -, rfl⟩ := List.mem_map.mp hx
    cases hr
    exact ⟨[], AccRun.start_holds _⟩
  | union hg hm hk => exact fun x hx => hS _ _ ho x hx

/-- R23 of a filter a command has made of another one. -/
theorem Made.rises {s : State} (hI : s.Inv) {a : Nat} {f g : Filter} (hf : s.slot a = some f)
    (h : Made s (s.slot a) g) :
    g.m = f.m ∧ g.k = f.k ∧ ∀ i, bitRead f.bits i = true → bitRead g.bits i = true := by
  have hw := hI.filter_wf hf
  rw [hf] at h
  generalize ho : some f = o at h
  cases h with
  | acc ha hs hb => cases ho; exact ⟨rfl, rfl, fun _ h => h⟩
  | add f key => cases ho; exact ⟨rfl, rfl, fun i h => (Filter.addKey_bits hw key i).mpr (.inl h)⟩
  | close f => cases ho; exact ⟨rfl, rfl, fun _ h => h⟩
  | construct => cases ho
  | union hg hm hk =>
    cases ho
    refine ⟨rfl, rfl, fun i h => ?_⟩
    show bitRead (orBits _ _) i = true
    rw [bitRead_orBits (by rw [hw.bitsLength, (hI.filter_wf hg).bitsLength, hm]), h, Bool.true_or]

end Sys2Proof.Machine
end

