-- ==== Sys2Proof/Laws/PerInstr.lean ====
section
/-! SUPPORT. One statement about the encoding, per constructor (spec/30_encoding.md R91, R92). -/

namespace Sys2Proof.Laws.FixedBits

/-- R91, R92: the bits that the command's format fixes are its row's pattern in its encoding, whatever the live
fields hold. -/
def Statement (i : Instr) : Prop :=
  i.wf = true → encode i &&& i.format.mask = BitVec.ofNat 32 i.opcode

/-- A command of format F1. -/
theorem f1 (opc : Fin 13) : ∀ sa : Fin 16, commandWord opc sa 0 &&& Format.f1.mask = BitVec.ofNat 32 opc := by
  revert opc
  decide +kernel

/-- A command of format F2. -/
theorem f2 : ∀ sa sb : Fin 16, commandWord 0x0C sa sb &&& Format.f2.mask = BitVec.ofNat 32 0x0C := by
  decide +kernel

theorem bitcount : Statement .bitcount := fun _ => by decide

theorem hashcount : Statement .hashcount := fun _ => by decide

theorem hreset (sa : Nat) : Statement (.hreset sa) := fun h => f1 3 ⟨sa, of_decide_eq_true h⟩

theorem hfeed (sa : Nat) : Statement (.hfeed sa) := fun h => f1 4 ⟨sa, of_decide_eq_true h⟩

theorem hfinal (sa : Nat) : Statement (.hfinal sa) := fun h => f1 5 ⟨sa, of_decide_eq_true h⟩

theorem new (sa : Nat) : Statement (.new sa) := fun h => f1 6 ⟨sa, of_decide_eq_true h⟩

theorem drop (sa : Nat) : Statement (.drop sa) := fun h => f1 7 ⟨sa, of_decide_eq_true h⟩

theorem add (sa : Nat) : Statement (.add sa) := fun h => f1 8 ⟨sa, of_decide_eq_true h⟩

theorem contains (sa : Nat) : Statement (.contains sa) := fun h => f1 9 ⟨sa, of_decide_eq_true h⟩

theorem serialize (sa : Nat) : Statement (.serialize sa) := fun h => f1 10 ⟨sa, of_decide_eq_true h⟩

theorem deserialize (sa : Nat) : Statement (.deserialize sa) := fun h => f1 11 ⟨sa, of_decide_eq_true h⟩

theorem union (sa sb : Nat) : Statement (.union sa sb) := fun h => by
  obtain ⟨ha, hb⟩ := Bool.and_eq_true_iff.mp h
  exact f2 ⟨sa, of_decide_eq_true ha⟩ ⟨sb, of_decide_eq_true hb⟩

end Sys2Proof.Laws.FixedBits
end

