-- ==== Sys2Proof/Machine/Asm.lean ====
section
/-! DEFINITION. The command lines of spec/30_encoding.md R118 and the pseudo-instructions of R119, as the host
transactions they stand for. The text form itself is in AsmText.lean. -/

namespace Sys2Proof.Machine

/-- The numerator over `2^k` of the nearest integer to `a × 2^k / b`, ties to even. -/
def roundHalfEven (a b : Nat) : Nat :=
  let q := a / b
  let r := a % b
  if 2 * r < b then q
  else if b < 2 * r then q + 1
  else q + q % 2

/-- How many bits to shift `a / b` left so that it has 53 bits before the point, at most 1074. -/
def binary64Shift (a b : Nat) : Nat :=
  let k := 53 + Nat.log2 b - Nat.log2 a
  min 1074 (if 2 ^ 53 * b ≤ a * 2 ^ k then k - 1 else k)

/-- R118: the pattern of the binary64 value nearest to the rational `a / b`, ties to even; one too large for the
format gives the infinity. -/
def nearestBinary64 (a b : Nat) : DWord :=
  if a = 0 then 0
  else if 2 ^ 53 * b ≤ a then
    let k := Nat.log2 (a / b) - 52
    BitVec.ofNat 64 (min (2047 * 2 ^ 52) ((1074 + k) * 2 ^ 52 + roundHalfEven a (b * 2 ^ k)))
  else
    let k := binary64Shift a b
    BitVec.ofNat 64 ((1074 - k) * 2 ^ 52 + roundHalfEven (a * 2 ^ k) b)

/-- R118: a probability operand. -/
inductive ProbOperand where
  /-- A decimal literal `num / 10^digits`. -/
  | decimal (num digits : Nat)
  /-- `p:0x…`, the pattern itself. -/
  | pattern (P : DWord)
deriving DecidableEq, Repr

/-- R118: the pattern of a probability operand. -/
def ProbOperand.bits : ProbOperand → DWord
  | .decimal num digits => nearestBinary64 num (10 ^ digits)
  | .pattern P => P

/-- R118: a byte sequence operand. -/
inductive BytesOperand where
  /-- A quoted string, each character standing for its ASCII code. -/
  | text (cs : List Char)
  /-- `x"…"`. -/
  | hex (bytes : List Byte)
deriving DecidableEq, Repr

/-- R118: the bytes of a byte sequence operand. -/
def BytesOperand.bytes : BytesOperand → List Byte
  | .text cs => cs.map fun c => BitVec.ofNat 8 c.toNat
  | .hex bytes => bytes

/-- R118 and R119: a line. The last three are the pseudo-instructions. -/
inductive AsmLine where
  | bitcount (n : Word) (p : ProbOperand)
  | hashcount (m n : Word)
  | hreset (a : Nat) (j : Word)
  | hfeed (a : Nat) (j : Word) (bytes : BytesOperand)
  | hfinal (a : Nat) (j : Word)
  | new (a : Nat) (n : Word) (p : ProbOperand)
  | drop (a : Nat)
  | add (a : Nat) (bytes : BytesOperand)
  | contains (a : Nat) (bytes : BytesOperand)
  | serialize (a : Nat)
  | deserialize (a : Nat)
  | union (a b : Nat)
  | digest (a : Nat) (j : Word) (bytes : BytesOperand)
  | digest2 (a : Nat) (j : Word) (bytes1 bytes2 : BytesOperand)
  | size (n : Word) (p : ProbOperand)
deriving DecidableEq, Repr

/-- R118: the two writes of a probability operand. -/
def probMoves (p : ProbOperand) : List HostMove :=
  [.write .arg2 (p.bits.extractLsb' 0 32), .write .arg3 (p.bits.extractLsb' 32 32)]

/-- R118: the write of `CMD` that issues `i`, and the wait for `STATUS.BUSY = 0` after each line. -/
def issueMoves (i : Instr) : List HostMove := [.write .cmd (encode i), .await]

/-- The moves of `HRESET sA, j`. -/
def hresetMoves (a : Nat) (j : Word) : List HostMove := .write .arg0 j :: issueMoves (.hreset a)

/-- The moves of `HFEED sA, j, bytes`. -/
def hfeedMoves (a : Nat) (j : Word) (bytes : BytesOperand) : List HostMove :=
  .write .arg0 j :: .presentKey bytes.bytes :: issueMoves (.hfeed a)

/-- The moves of `HFINAL sA, j`. -/
def hfinalMoves (a : Nat) (j : Word) : List HostMove := .write .arg0 j :: issueMoves (.hfinal a)

/-- R118: the host actions of a line, in order; R119: the expansion of a pseudo-instruction. -/
def AsmLine.moves : AsmLine → List HostMove
  | .bitcount n p => .write .arg0 n :: probMoves p ++ issueMoves .bitcount
  | .hashcount m n => .write .arg1 m :: .write .arg0 n :: issueMoves .hashcount
  | .hreset a j => hresetMoves a j
  | .hfeed a j bytes => hfeedMoves a j bytes
  | .hfinal a j => hfinalMoves a j
  | .new a n p => .write .arg0 n :: probMoves p ++ issueMoves (.new a)
  | .drop a => issueMoves (.drop a)
  | .add a bytes => .presentKey bytes.bytes :: issueMoves (.add a)
  | .contains a bytes => .presentKey bytes.bytes :: issueMoves (.contains a)
  | .serialize a => issueMoves (.serialize a)
  | .deserialize a => issueMoves (.deserialize a)
  | .union a b => issueMoves (.union a b)
  | .digest a j bytes => hresetMoves a j ++ hfeedMoves a j bytes ++ hfinalMoves a j
  | .digest2 a j bytes1 bytes2 => hresetMoves a j ++ hfeedMoves a j bytes1 ++ hfeedMoves a j bytes2 ++ hfinalMoves a j
  | .size n p =>
    .write .arg0 n :: probMoves p ++ issueMoves .bitcount ++
      [.read .res1, .writeBack .arg1, .write .arg0 n] ++ issueMoves .hashcount

end Sys2Proof.Machine
end

