-- ==== Sys2Proof/Machine/AsmText.lean ====
section
/-! DEFINITION. The text form of a command line (spec/30_encoding.md R118, R119): a mnemonic in capitals, then
operands separated by commas; `#` starts a comment. What R118 does not say of the text is log 9. -/

namespace Sys2Proof.Machine

/-- The value of a hexadecimal digit; a decimal digit is one below 10. -/
def digitValue (c : Char) : Option Nat :=
  if '0' ≤ c ∧ c ≤ '9' then some (c.toNat - '0'.toNat)
  else if 'a' ≤ c ∧ c ≤ 'f' then some (c.toNat - 'a'.toNat + 10)
  else if 'A' ≤ c ∧ c ≤ 'F' then some (c.toNat - 'A'.toNat + 10)
  else none

/-- The number these digits write in this base, most significant first, after `acc`. -/
def digitsFrom (base acc : Nat) : List Char → Option Nat
  | [] => some acc
  | c :: cs =>
    match digitValue c with
    | none => none
    | some d => if base ≤ d then none else digitsFrom base (acc * base + d) cs

/-- At least one digit. -/
def parseDigits (base : Nat) (cs : List Char) : Option Nat :=
  match cs with
  | [] => none
  | c :: cs => digitsFrom base 0 (c :: cs)

/-- R118: "an integer is decimal or `0x` hexadecimal". -/
def parseInt (cs : List Char) : Option Nat :=
  match cs with
  | '0' :: 'x' :: ds => parseDigits 16 ds
  | ds => parseDigits 10 ds

/-- An integer operand that fits a host register. -/
def parseWord (cs : List Char) : Option Word :=
  match parseInt cs with
  | some v => if v < 2 ^ 32 then some (BitVec.ofNat 32 v) else none
  | none => none

/-- R118: "a slot is `s0 .. s15`". -/
def parseSlot (cs : List Char) : Option Nat :=
  match cs with
  | 's' :: ds =>
    match parseDigits 10 ds with
    | some a => if a < 16 ∧ (ds.length = 1 ∨ 10 ≤ a ∧ ds.length = 2) then some a else none
    | none => none
  | _ => none

/-- R118: `p:0x` and 16 hexadecimal digits, or a decimal literal. -/
def parseProb (cs : List Char) : Option ProbOperand :=
  match cs with
  | 'p' :: ':' :: '0' :: 'x' :: ds =>
    if ds.length = 16 then (parseDigits 16 ds).map fun P => .pattern (BitVec.ofNat 64 P) else none
  | ds =>
    let whole := ds.takeWhile (· ≠ '.')
    match ds.dropWhile (· ≠ '.') with
    | [] => (parseDigits 10 whole).map fun a => .decimal a 0
    | _ :: frac =>
      match parseDigits 10 whole, parseDigits 10 frac with
      | some _, some _ => (parseDigits 10 (whole ++ frac)).map fun a => .decimal a frac.length
      | _, _ => none

/-- Two hexadecimal digits per byte, in stream order. -/
def hexBytes : List Char → Option (List Byte)
  | [] => some []
  | [_] => none
  | c :: d :: cs =>
    match digitValue c, digitValue d, hexBytes cs with
    | some hi, some lo, some bytes => some (BitVec.ofNat 8 (16 * hi + lo) :: bytes)
    | _, _, _ => none

/-- R118: a printable ASCII character, the quote that ends the string apart. -/
def inString (c : Char) : Bool := decide (32 ≤ c.toNat) && decide (c.toNat ≤ 126) && decide (c ≠ '"')

/-- What stands before the closing quote at the end. -/
def unquote (cs : List Char) : Option (List Char) :=
  if cs.getLast? = some '"' then some cs.dropLast else none

/-- R118: a quoted string, or `x"…"`. -/
def parseBytes (cs : List Char) : Option BytesOperand :=
  match cs with
  | '"' :: rest =>
    match unquote rest with
    | some body => if body.all inString then some (.text body) else none
    | none => none
  | 'x' :: '"' :: rest =>
    match unquote rest with
    | some body => (hexBytes body).map .hex
    | none => none
  | _ => none

/-- The line without its comment; `quoted` is whether the text stands inside a string. -/
def stripComment (quoted : Bool) : List Char → List Char
  | [] => []
  | c :: cs =>
    if c = '"' then c :: stripComment (!quoted) cs
    else if c = '#' && !quoted then []
    else c :: stripComment quoted cs

/-- Cut at the commas outside strings. -/
def splitCommas (quoted : Bool) : List Char → List (List Char)
  | [] => [[]]
  | c :: cs =>
    if c = ',' && !quoted then [] :: splitCommas quoted cs
    else
      match splitCommas (if c = '"' then !quoted else quoted) cs with
      | [] => [[c]]
      | op :: ops => (c :: op) :: ops

/-- A blank. -/
def isBlank (c : Char) : Bool := decide (c = ' ') || decide (c = '\t')

/-- Without the blanks at both ends. -/
def trim (cs : List Char) : List Char := ((cs.dropWhile isBlank).reverse.dropWhile isBlank).reverse

/-- R118, R119: the line with this mnemonic and these operands. -/
def parseOps (mnemonic : List Char) (ops : List (List Char)) : Option AsmLine :=
  match String.ofList mnemonic, ops with
  | "BITCOUNT", [n, p] => do return .bitcount (← parseWord n) (← parseProb p)
  | "HASHCOUNT", [m, n] => do return .hashcount (← parseWord m) (← parseWord n)
  | "HRESET", [a, j] => do return .hreset (← parseSlot a) (← parseWord j)
  | "HFEED", [a, j, b] => do return .hfeed (← parseSlot a) (← parseWord j) (← parseBytes b)
  | "HFINAL", [a, j] => do return .hfinal (← parseSlot a) (← parseWord j)
  | "NEW", [a, n, p] => do return .new (← parseSlot a) (← parseWord n) (← parseProb p)
  | "DROP", [a] => do return .drop (← parseSlot a)
  | "ADD", [a, b] => do return .add (← parseSlot a) (← parseBytes b)
  | "CONTAINS", [a, b] => do return .contains (← parseSlot a) (← parseBytes b)
  | "SERIALIZE", [a] => do return .serialize (← parseSlot a)
  | "DESERIALIZE", [a] => do return .deserialize (← parseSlot a)
  | "UNION", [a, b] => do return .union (← parseSlot a) (← parseSlot b)
  | "DIGEST", [a, j, b] => do return .digest (← parseSlot a) (← parseWord j) (← parseBytes b)
  | "DIGEST2", [a, j, b, c] =>
    do return .digest2 (← parseSlot a) (← parseWord j) (← parseBytes b) (← parseBytes c)
  | "SIZE", [n, p] => do return .size (← parseWord n) (← parseProb p)
  | _, _ => none

/-- R118: one line of text, which is not blank. -/
def parseLine (cs : List Char) : Option AsmLine :=
  let text := trim (stripComment false cs)
  parseOps (text.takeWhile fun c => !isBlank c)
    ((splitCommas false (text.dropWhile fun c => !isBlank c)).map trim)

/-- R118, R312: the host actions of a program, blank and comment lines apart. -/
def assemble : List (List Char) → Option (List HostMove)
  | [] => some []
  | cs :: lines =>
    match assemble lines with
    | none => none
    | some moves =>
      if trim (stripComment false cs) = [] then some moves
      else (parseLine cs).map fun l => l.moves ++ moves

end Sys2Proof.Machine
end

