-- ==== Sys2Proof/Tests/Slice0.lean ====
section
/-! SUPPORT. Tests: expected results are those of spec/95_test_vectors.md (the vector is named) or worked out by hand
from the rule named; then a witness for the hypotheses of every obligation that has some. -/

namespace Sys2Proof.Machine

/-- A state with a KEY buffer presented. -/
def State.withKeyBuf (s : State) (key : List Byte) : State := { s with ports := { s.ports with keys := [key] } }

/-- A state with this source, which has then ended. -/
def State.withSource (s : State) (src : List Byte) : State := { s with ports := { s.ports with src := src } }

/-- A state with a sink of this `accept`. -/
def State.withSink (s : State) (accept : Option Nat) : State := { s with ports := { s.ports with accept := accept } }

end Sys2Proof.Machine

namespace Sys2Proof.Tests

open Sys2Proof Sys2Proof.Machine

/-! ## Well-formedness: one ill-formed term for each check -/

theorem test_wf_refuses_slot_16 :
    (Instr.hreset 16).wf = false ∧ (Instr.hfeed 16).wf = false ∧ (Instr.hfinal 16).wf = false ∧
    (Instr.new 16).wf = false ∧ (Instr.drop 16).wf = false ∧ (Instr.add 16).wf = false ∧
    (Instr.contains 16).wf = false ∧ (Instr.serialize 16).wf = false ∧ (Instr.deserialize 16).wf = false ∧
    (Instr.union 16 0).wf = false ∧ (Instr.union 0 16).wf = false := by decide

theorem test_wf_accepts_slot_15 :
    (Instr.hreset 15).wf = true ∧ (Instr.union 15 15).wf = true ∧ Instr.bitcount.wf = true := by decide

/-! ## Decoding: words written out from the field layout of R90 (`SB` 15:12, `SA` 11:8, `OPC` 7:0) -/

theorem test_decode_every_constructor :
    decode 0b00000000000000000000000000000001#32 = .ok .bitcount ∧
    decode 0b00000000000000000000000000000010#32 = .ok .hashcount ∧
    decode 0b00000000000000000000010100000011#32 = .ok (.hreset 5) ∧
    decode 0b00000000000000000000101000000100#32 = .ok (.hfeed 10) ∧
    decode 0b00000000000000000000000100000101#32 = .ok (.hfinal 1) ∧
    decode 0b00000000000000000000001000000110#32 = .ok (.new 2) ∧
    decode 0b00000000000000000000010000000111#32 = .ok (.drop 4) ∧
    decode 0b00000000000000000000100000001000#32 = .ok (.add 8) ∧
    decode 0b00000000000000000000111000001001#32 = .ok (.contains 14) ∧
    decode 0b00000000000000000000110100001010#32 = .ok (.serialize 13) ∧
    decode 0b00000000000000000000101100001011#32 = .ok (.deserialize 11) ∧
    decode 0b00000000000000000101001000001100#32 = .ok (.union 2 5) := by decide +kernel

/-- The edges of R93: the first opcode above the map, and each format's lowest must-be-zero bit and highest bit. -/
theorem test_decode_rejects :
    decode 0x0000000D#32 = .error .opcode ∧ decode 0x00000100#32 = .error .opcode ∧
    decode 0x00000101#32 = .error .mustBeZero ∧ decode 0x00001003#32 = .error .mustBeZero ∧
    decode 0x0001000C#32 = .error .mustBeZero ∧ decode 0x8000000C#32 = .error .mustBeZero ∧
    decode 0x0000FF0C#32 = .ok (.union 15 15) := by decide +kernel

theorem test_decodeTableWord :
    decodeTableWord 32 0x0000100C = some (.union 0 1) ∧ decodeTableWord 8 0x06 = some (.new 0) ∧
    decodeTableWord 32 0x0001000C = none := by decide +kernel

theorem test_encode : encode (.union 0 1) = 0x0000100C#32 ∧ encode (.deserialize 1) = 0x0000010B#32 := by decide

/-! ## Units -/

/-- The conventions of spec/95_test_vectors.md for `STATUS`. -/
theorem test_status_words :
    statusError .illegal 0 = 0x012#32 ∧ statusError .slot 2 = 0x222#32 ∧ statusError .construct 1 = 0x152#32 ∧
    statusError .deser 2 = 0x282#32 ∧ statusError .shape 0 = 0x092#32 ∧ statusOk = 0x000#32 := by decide

/-- V-H2, V-H7, V-H8, V-H9, V-H15 (an ASCII string is its bytes). -/
theorem test_digests :
    digest32 1 [] = 0x514e28b7#32 ∧ digest32 0 [0x61, 0x62, 0x63] = 0xb3dd93fa#32 ∧
    digest32 0 [0x61, 0x62, 0x63, 0x64] = 0x43ed676a#32 ∧
    digest32 0 [0x61, 0x62, 0x63, 0x64, 0x65] = 0xe89b9af6#32 ∧
    digest32 0x9747b28c (BytesOperand.text "The quick brown fox jumps over the lazy dog".toList).bytes = 0x2fa826cd#32 := by
  decide +kernel

/-- V-H47: the accumulator after each of the chunks `"cfk"`, `"uo"`, `"uhbuq"`. -/
theorem test_streaming :
    (AccRun.start 0).feed [0x63, 0x66, 0x6B] = { h := 0, length := 3, tail := [0x63, 0x66, 0x6B] } ∧
    ((AccRun.start 0).feed [0x63, 0x66, 0x6B]).feed [0x75, 0x6F] =
      { h := 0x495bc998, length := 5, tail := [0x6F] } ∧
    (((AccRun.start 0).feed [0x63, 0x66, 0x6B]).feed [0x75, 0x6F]).feed [0x75, 0x68, 0x62, 0x75, 0x71] =
      { h := 0x066ed41c, length := 10, tail := [0x75, 0x71] } := by decide +kernel

/-- V-H55: only the low 32 bits of `length` enter the digest. -/
theorem test_long_length :
    ({ h := 0x86a7049e, length := 0x100000005, tail := [0x65] } : AccRun).finalize = 0xe89b9af6#32 := by
  decide +kernel

/-- V-C20, V-C17 and V-C21: bodies. -/
theorem test_bodies :
    bodyBytes 13 (List.replicate 13 true) = [0xFF, 0xF8] ∧
    bodyBytes 17 (true :: List.replicate 15 false ++ [true]) = [0x80, 0x00, 0x80] ∧
    unpackBits 13 [0xFF, 0xFF] = List.replicate 13 true := by decide +kernel

/-- V-C24, V-C25: headers; V-C26: the body length where `m + 7` would wrap. -/
theorem test_headers :
    headerBytes 959 7 = [0xBF, 0x03, 0, 0, 0x07, 0, 0, 0] ∧
    headerBytes 0x01020304 0x0A0B0C0D = [0x04, 0x03, 0x02, 0x01, 0x0D, 0x0C, 0x0B, 0x0A] ∧
    cdiv8 4294967295 = 536870912 := by decide +kernel

/-- R118: the pattern of `0.01` (V-Z1), of `0.5`, of 1, of 1.5, of `2^60`. -/
theorem test_nearest_binary64 :
    nearestBinary64 1 100 = 0x3F847AE147AE147B#64 ∧ nearestBinary64 5 10 = 0x3FE0000000000000#64 ∧
    nearestBinary64 1 1 = 0x3FF0000000000000#64 ∧ nearestBinary64 3 2 = 0x3FF8000000000000#64 ∧
    nearestBinary64 (2 ^ 60) 1 = 0x43B0000000000000#64 := by decide +kernel

/-- R98: the value of the pattern of 0.5, and of the least subnormal; an infinity has none. -/
theorem test_pval :
    pval 0x3FE0000000000000#64 = some (1 / 2) ∧ pval 0x7FF0000000000000#64 = none ∧
    validP 0x0000000000000001#64 = true ∧ validP 0x3FEFFFFFFFFFFFFF#64 = true ∧
    validP 0x3FF0000000000000#64 = false ∧ validP 0#64 = false ∧ validP 0x8000000000000001#64 = false := by
  decide +kernel

/-! ## One step of each command -/

/-- A core with these two slots, `ARG0` and `P`. -/
def core2 (o0 o1 : Option Filter) (arg0 : Word) (P : DWord := 0) : State :=
  { State.reset with
    slots := [o0, o1]
    regs := { HostRegs.zero with arg0 := arg0, arg2 := P.extractLsb' 0 32, arg3 := P.extractLsb' 32 32 } }

/-- A bit array of `m` cells with these set. -/
def bitsOf (m : Nat) (set : List Nat) : List Bool := (List.range m).map fun i => decide (i ∈ set)

/-- A new filter with these bits set. -/
def filterOf (m k : Nat) (set : List Nat) : Filter := Filter.construct m k (bitsOf m set)

/-- Whether the outcome is a next state with this property. -/
def ends (r : Result) (p : State → Bool) : Bool :=
  match r with
  | .next t => p t
  | .fault _ => false
  | .refused _ => false

/-- The four words a host reads at the end. -/
def reports (t : State) (status res0 res1 res2 : Word) : Bool :=
  decide (t.regs.status = status ∧ t.regs.res0 = res0 ∧ t.regs.res1 = res1 ∧ t.regs.res2 = res2)

/-- V-Z1, V-Z11, V-Z7, V-Z9. -/
theorem test_bitcount :
    ends (exec .bitcount (core2 none none 100 0x3F847AE147AE147B)) (reports · 0 0 959 0) = true ∧
    ends (exec .bitcount (core2 none none 2977044471 0x3FE0000000000000)) (reports · 0 0 4294967295 0) = true ∧
    ends (exec .bitcount (core2 none none 1 1)) (reports · 0 0 1550 0) = true ∧
    ends (exec .bitcount (core2 none none 4294967295 0x3FEFFFFFFFFFFFFF)) (reports · 0 0 1 0) = true := by
  decide +kernel

/-- V-Z12, V-Z14, V-Z17. -/
theorem test_bitcount_errors :
    ends (exec .bitcount (core2 none none 3000000000 0x3FE0000000000000)) (reports · 0x152 0 0 0) = true ∧
    ends (exec .bitcount (core2 none none 0 0x3FE0000000000000)) (reports · 0x052 0 0 0) = true ∧
    ends (exec .bitcount (core2 none none 1 0xBFE0000000000000)) (reports · 0x052 0 0 0) = true := by
  decide +kernel

/-- `ARG0 = n`, `ARG1 = m`. -/
def sized (m n : Word) : State :=
  { State.reset with regs := { HostRegs.zero with arg0 := n, arg1 := m } }

/-- V-Z30, V-Z39, V-Z41. -/
theorem test_hashcount :
    ends (exec .hashcount (sized 959 100)) (reports · 0 0 0 7) = true ∧
    ends (exec .hashcount (sized 1 4294967295)) (reports · 0 0 0 1) = true ∧
    ends (exec .hashcount (sized 4294967295 1)) (reports · 0 0 0 2977044472) = true := by decide +kernel

/-- V-Z42, V-Z44. -/
theorem test_hashcount_errors :
    ends (exec .hashcount (sized 0 5)) (reports · 0x252 0 0 0) = true ∧
    ends (exec .hashcount (sized 0 0)) (reports · 0x052 0 0 0) = true := by decide +kernel

/-- A filter `(12, 3)` whose accumulator 0 holds `run`. -/
def accFilter (run : Option AccRun) : Filter :=
  { filterOf 12 3 [] with acc := [{ seed := 0, run := run }, Acc.fresh 1, Acc.fresh 2] }

/-- R160: accumulator 1 reset, the others kept; V-H66: an index that is not below `k`. -/
theorem test_hreset :
    ends (exec (.hreset 0) (core2 (some { accFilter none with
        acc := [{ seed := 0, run := none }, { seed := 1, run := none }, Acc.fresh 2] }) none 1))
      (fun t => reports t 0 0 0 0 && decide (t.slot 0 = some (accFilter none))) = true ∧
    ends (exec (.hreset 0) (core2 (some (accFilter none)) none 3)) (reports · 0x032 0 0 0) = true := by
  decide +kernel

/-- V-H61: after `"ab"`, feeding `"cde"`. -/
theorem test_hfeed :
    ends (exec (.hfeed 0) ((core2 (some (accFilter (some { h := 0, length := 2, tail := [0x61, 0x62] }))) none 0).withKeyBuf
        [0x63, 0x64, 0x65]))
      (fun t => reports t 0 0 0 0 && decide (t.ports.keys = []) &&
        decide (t.slot 0 = some (accFilter (some { h := 0x86a7049e, length := 5, tail := [0x65] })))) = true := by
  decide +kernel

/-- V-H64: a closed accumulator; the KEY buffer is consumed all the same. -/
theorem test_hfeed_closed :
    ends (exec (.hfeed 0) ((core2 (some (accFilter none)) none 0).withKeyBuf [0x78]))
      (fun t => reports t 0x042 0 0 0 && decide (t.ports.keys = [])) = true := by decide +kernel

/-- V-H62: the accumulator of V-H61 finalized. -/
theorem test_hfinal :
    ends (exec (.hfinal 0) (core2 (some (accFilter (some { h := 0x86a7049e, length := 5, tail := [0x65] }))) none 0))
      (fun t => reports t 0 0xe89b9af6 0 0 && decide (t.slot 0 = some (accFilter none))) = true := by decide +kernel

/-- V-H63, V-H67. -/
theorem test_hfinal_errors :
    ends (exec (.hfinal 0) (core2 (some (accFilter none)) none 0)) (reports · 0x042 0 0 0) = true ∧
    ends (exec (.hfinal 1) (core2 (some (accFilter none)) none 0)) (reports · 0x122 0 0 0) = true := by decide +kernel

/-- V-Z6 with V-Z36: `NEW s0, 4, 0.25`; R180: accumulators open with `h = j`. -/
theorem test_new :
    ends (exec (.new 0) (core2 none none 4 0x3FD0000000000000))
      (fun t => reports t 0 0 12 3 && decide (t.slot 0 = some
        { m := 12, k := 3, bits := List.replicate 12 false,
          acc := [{ seed := 0, run := some { h := 0, length := 0, tail := [] } },
            { seed := 1, run := some { h := 1, length := 0, tail := [] } },
            { seed := 2, run := some { h := 2, length := 0, tail := [] } }] })) = true := by decide +kernel

/-- V-N4, V-N7, V-N6, V-N8, V-N9. -/
theorem test_new_errors :
    ends (exec (.new 0) (core2 (some (filterOf 12 3 [])) none 0 0x3FE0000000000000)) (reports · 0x222 0 0 0) = true ∧
    ends (exec (.new 2) (core2 none none 100 0x3F847AE147AE147B)) (reports · 0x022 0 0 0) = true ∧
    ends (exec (.new 0) (core2 none none 3000000000 0x3FE0000000000000)) (reports · 0x152 0 0 0) = true ∧
    ends (exec (.new 0) { core2 none none 1000 0x3F847AE147AE147B with cfg := { Config.default with mMax := 1024 } })
      (reports · 0x152 0 0 0) = true ∧
    ends (exec (.new 0) { core2 none none 100 0x3F847AE147AE147B with cfg := { Config.default with kMax := 4 } })
      (reports · 0x252 0 0 0) = true := by decide +kernel

/-- V-N10, V-N11, V-N12. -/
theorem test_drop :
    ends (exec (.drop 0) (core2 (some (filterOf 12 2 [3, 11])) none 0))
      (fun t => reports t 0 0 0 0 && decide (t.slots = [none, none])) = true ∧
    ends (exec (.drop 0) (core2 none none 0)) (reports · 0 0 0 0) = true ∧
    ends (exec (.drop 2) (core2 none none 0)) (reports · 0x022 0 0 0) = true := by decide +kernel

/-- The bits of slot 0. -/
def bits0 (t : State) : Option (List Bool) := (t.slot 0).map Filter.bits

/-- V-M2 and V-M6: `"b"`, then `"world"`, whose two indices are the same bit. -/
theorem test_add :
    ends (exec (.add 0) ((core2 (some (filterOf 12 2 [])) none 0).withKeyBuf [0x62]))
      (fun t => reports t 0 0 0 0 && decide (bits0 t = some (bitsOf 12 [3, 11])) && decide (t.ports.keys = [])) =
      true ∧
    ends (exec (.add 0) ((core2 (some (filterOf 12 2 [3, 11])) none 0).withKeyBuf [0x77, 0x6F, 0x72, 0x6C, 0x64]))
      (fun t => decide (bits0 t = some (bitsOf 12 [3, 7, 11]))) = true := by decide +kernel

/-- V-D24: slot 15 of a core with two; the KEY buffer is taken. -/
theorem test_add_error :
    ends (exec (.add 15) ((core2 none none 0).withKeyBuf [0x62]))
      (fun t => reports t 0x022 0 0 0 && decide (t.ports.keys = [])) = true := by decide +kernel

/-- V-M4 (a false positive) and V-M5 (the answer is the conjunction). -/
theorem test_contains :
    ends (exec (.contains 0) ((core2 (some (filterOf 12 2 [3, 11])) none 0).withKeyBuf [0x63]))
      (reports · 0 1 0 0) = true ∧
    ends (exec (.contains 0) ((core2 (some (filterOf 12 2 [3, 11])) none 0).withKeyBuf [0x61, 0x62]))
      (fun t => reports t 0 0 0 0 && decide (bits0 t = some (bitsOf 12 [3, 11]))) = true := by decide +kernel

/-- V-C22. -/
theorem test_serialize :
    ends (exec (.serialize 0) (core2 (some (filterOf 12 2 [0, 3, 8, 11])) none 0))
      (fun t => reports t 0 10 12 2 &&
        decide (t.ports.snk = [0x0C, 0, 0, 0, 0x02, 0, 0, 0, 0x90, 0x90])) = true := by decide +kernel

/-- V-E3, V-E4, V-E7. -/
theorem test_serialize_errors :
    ends (exec (.serialize 0) ((core2 (some (filterOf 12 3 [])) none 0).withSink (some 7)))
      (fun t => reports t 0x062 7 0 0 && decide (t.ports.snk = [0x0C, 0, 0, 0, 0x03, 0, 0])) = true ∧
    ends (exec (.serialize 0) ((core2 (some (filterOf 12 3 [])) none 0).withSink (some 8)))
      (fun t => reports t 0x072 8 0 0 && decide (t.ports.snk = [0x0C, 0, 0, 0, 0x03, 0, 0, 0])) = true ∧
    ends (exec (.serialize 1) (core2 (some (filterOf 12 3 [])) none 0)) (reports · 0x122 0 0 0) = true := by
  decide +kernel

/-- V-C23: the padding bits are ignored and the byte behind the stream stays. -/
theorem test_deserialize :
    ends (exec (.deserialize 1) ((core2 none none 0).withSource [0x0C, 0, 0, 0, 0x02, 0, 0, 0, 0x90, 0x9F, 0xAA]))
      (fun t => reports t 0 10 12 2 && decide (t.ports.src = [0xAA]) &&
        decide (t.slot 1 = some (filterOf 12 2 [0, 3, 8, 11]))) = true := by decide +kernel

/-- V-E12, V-E14, V-E15, V-E19. -/
theorem test_deserialize_errors :
    ends (exec (.deserialize 1) ((core2 none none 0).withSource [0x0C, 0, 0, 0, 0x02, 0, 0]))
      (fun t => reports t 0x082 7 0 0 && decide (t.ports.src = [])) = true ∧
    ends (exec (.deserialize 1) ((core2 none none 0).withSource [0x0C, 0, 0, 0, 0x02, 0, 0, 0, 0x90]))
      (fun t => reports t 0x182 9 0 0 && decide (t.ports.src = [])) = true ∧
    ends (exec (.deserialize 1) ((core2 none none 0).withSource [0, 0, 0, 0, 0x02, 0, 0, 0, 0x90, 0x90]))
      (fun t => reports t 0x282 8 0 0 && decide (t.ports.src = [0x90, 0x90])) = true ∧
    ends (exec (.deserialize 0) ((core2 (some (filterOf 12 3 [])) none 0).withSource [0x0C, 0, 0, 0]))
      (fun t => reports t 0x222 0 0 0 && decide (t.ports.src = [0x0C, 0, 0, 0])) = true := by decide +kernel

/-- V-U1: `SA` is the receiver and slot 1 is unchanged. -/
theorem test_union :
    ends (exec (.union 0 1) (core2 (some (filterOf 12 2 [0, 2, 3, 11])) (some (filterOf 12 2 [7])) 0))
      (fun t => reports t 0 0 0 0 &&
        decide (t.slots = [some (filterOf 12 2 [0, 2, 3, 7, 11]), some (filterOf 12 2 [7])])) = true := by
  decide +kernel

/-- V-U5, V-U8, V-U9. -/
theorem test_union_errors :
    ends (exec (.union 0 1) (core2 (some (filterOf 12 3 [])) (some (filterOf 12 2 [])) 0)) (reports · 0x092 0 0 0) = true ∧
    ends (exec (.union 1 0) (core2 (some (filterOf 12 3 [])) none 0)) (reports · 0x122 0 0 0) = true ∧
    ends (exec (.union 2 1) (core2 none none 0)) (reports · 0x022 0 0 0) = true := by decide +kernel

/-! ## The step -/

/-- V-D8, V-X10: an illegal word raises `E_ILLEGAL`; the KEY buffer stays pending and the word stays in `CMD`. -/
theorem test_illegal_word :
    ends (step ((core2 none none 0).withKeyBuf [0x62] |>.withFetchWord 32 0x00001008))
      (fun t => reports t 0x012 0 0 0 && decide (t.ports.keys = [[0x62]]) && decide (t.regs.cmd = 0x1008)) = true := by
  decide +kernel

/-- R302, U18: a stale buffer `"b"` is taken by the next ADD, and the one presented behind it stays pending. -/
theorem test_stale_key :
    ends (step { (core2 (some (filterOf 12 2 [])) none 0).withKeyBuf [0x62] with host := [.presentKey [0x63]] }) (fun s =>
      ends (exec (.add 0) s) (fun t => reports t 0 0 0 0 && decide (bits0 t = some (bitsOf 12 [3, 11])) &&
        decide (t.ports.keys = [[0x63]]))) = true := by decide +kernel

/-- R33, R293: the two steps of issuing `NEW s0`, the host waiting between them. -/
theorem test_issue :
    ends (step { core2 none none 4 0x3FD0000000000000 with host := issueMoves (.new 0) }) (fun s =>
      s.busy && decide (s.regs.cmd = 0x00000006) && ends (step s) (fun t => reports t 0 0 12 3)) = true := by
  decide +kernel

/-- R64, R307: ADD without a KEY buffer waits with `BUSY = 1`. -/
theorem test_wait :
    ends (exec (.add 0) (core2 (some (filterOf 12 2 [])) none 0))
      (fun t => t.busy && decide (t.slots = [some (filterOf 12 2 []), none])) = true := by decide +kernel

/-- R118: a string that holds a comma and a `#`, a hexadecimal key, both forms of `p`, `s16`, an odd digit count, a program. -/
theorem test_assemble :
    parseLine "  HFEED s0, 0, \"a,#b\"  # two bytes".toList = some (.hfeed 0 0 (.text "a,#b".toList)) ∧
    parseLine "ADD s15,x\"00fF\"".toList = some (.add 15 (.hex [0x00, 0xFF])) ∧
    parseLine "NEW s0, 0x64, 0.01".toList = some (.new 0 100 (.decimal 1 2)) ∧
    parseLine "BITCOUNT 1, p:0x3FE0000000000000".toList = some (.bitcount 1 (.pattern 0x3FE0000000000000)) ∧
    parseLine "UNION s0, s16".toList = none ∧ parseLine "ADD s0, x\"0\"".toList = none ∧
    assemble ["DROP s1".toList, "# end".toList, []] = some [.write .cmd 0x00000107, .await] := by decide +kernel

/-! ## Witnesses: states and operands that meet the hypotheses of each obligation -/

/-- A wait, and a reset of a core that waits, ... -/
def waitingOn (i : Instr) (host : List HostMove) (s : State) : State :=
  { s with regs := { s.regs with cmd := encode i, status := statusWord true false 0 0 }, host := host }

theorem bitsOf_length (m : Nat) (set : List Nat) : (bitsOf m set).length = m := by simp [bitsOf]

theorem filterOf_wf {m k : Nat} (set : List Nat) (hm : 1 ≤ m) (hm2 : m ≤ 2 ^ 32 - 1) (hk : 1 ≤ k)
    (hk2 : k ≤ 2 ^ 32 - 1) : (filterOf m k set).wf Config.default :=
  Filter.construct_wf hm hm2 hm2 hk hk2 hk2 (bitsOf_length m set)

/-- The test states are legal. -/
theorem inv_of {s : State} (hc : s.cfg = Config.default) (h1 : statusLegal s.regs.status) (h2 : s.ports.keys = [] ∨
    s.ports.keys = [[0x62]]) {f g : Filter} (hf : f.wf Config.default) (hg : g.wf Config.default)
    (hs : s.slots = [some f, some g] ∨ s.slots = [some f, none] ∨ s.slots = [none, none]) : s.Inv where
  cfgRange := by rw [hc]; decide
  slotCount := by rcases hs with h | h | h <;> rw [State.nslots, h] <;> exact ⟨by simp, by simp⟩
  filters := by
    rw [hc]
    intro o ho x hx
    rcases hs with h | h | h <;> rw [h] at ho <;> simp only [List.mem_cons, List.not_mem_nil, or_false] at ho
    · rcases ho with rfl | rfl <;> cases hx <;> assumption
    · rcases ho with rfl | rfl <;> cases hx; assumption
    · rcases ho with rfl | rfl <;> cases hx
  status := h1
  keyFits := by
    rw [hc]
    rintro key hk
    rcases h2 with h | h <;> rw [h] at hk
    · cases hk
    · rw [List.mem_singleton.mp hk]
      decide

theorem legal_idle : statusLegal 0#32 := ⟨false, .inl (by decide)⟩

/-- `(12, 2)` with bits 3 and 11: what adding `"b"` gives. -/
def fB : Filter := filterOf 12 2 [3, 11]

theorem fB_wf : fB.wf Config.default := filterOf_wf _ (by decide) (by decide) (by decide) (by decide)

/-- Slot 0 holds `fB`, slot 1 is empty, a KEY buffer `"b"` is presented. -/
def sB : State := (core2 (some fB) none 0).withKeyBuf [0x62]

theorem sB_inv : sB.Inv := inv_of rfl legal_idle (.inr rfl) fB_wf fB_wf (.inr (.inl rfl))

theorem witness_DecodeOfEncode : (Instr.union 15 15).wf = true ∧ (Instr.hreset 0).wf = true := by decide

theorem witness_LegalWordsAreEncodings : decode 0x0000FF0C#32 = .ok (.union 15 15) := by decide +kernel

/-- Each way of being illegal at its lowest word, and the legal words next to them: the condition on the fields. -/
theorem witness_DecodingFollowsTheOpcodeMap :
    (∀ w ∈ [0x00, 0x0D, 0x102, 0x1003, 0x100B, 0x1000C],
      w % 256 = 0 ∨ 12 < w % 256 ∨ (w % 256 ≤ 2 ∧ 256 ≤ w) ∨ (w % 256 ≤ 11 ∧ 4096 ≤ w) ∨ 65536 ≤ w) ∧
    (∀ w ∈ [0x01, 0x0C, 0xF03, 0xF0B, 0xFF0C],
      ¬ (w % 256 = 0 ∨ 12 < w % 256 ∨ (w % 256 ≤ 2 ∧ 256 ≤ w) ∨ (w % 256 ≤ 11 ∧ 4096 ≤ w) ∨ 65536 ≤ w)) := by decide

theorem witness_StepRunsTheDecodedCommand :
    (waitingOn (.drop 0) [.await] sB).coreTurn = true ∧ (waitingOn (.drop 0) [] sB).coreTurn = true ∧
    decode (waitingOn (.drop 0) [] sB).regs.cmd = .ok (.drop 0) ∧ (Instr.drop 15).wf = true := by decide +kernel

theorem witness_IllegalWordRaisesAndTouchesNothing :
    (sB.withFetchWord 32 0x1008).coreTurn = true ∧ (sB.withFetchWord 32 0x1008).regs.cmd.toNat = 0x1008 ∧
    0x1008 % 256 ≤ 11 ∧ 4096 ≤ 0x1008 ∧ (sB.withFetchWord 32 0x0D).regs.cmd.toNat = 0x0D ∧ 12 < 0x0D % 256 := by
  decide +kernel

theorem witness_WriteToCmdIssuesACommand :
    (Instr.union 15 0).wf = true ∧ sB.busy = false ∧
    ({ sB with host := [.write .cmd (encode (.union 15 0)), .await] } : State).host =
      .write .cmd (encode (.union 15 0)) :: .await :: [] ∧
    ({ sB with host := [.write .cmd 0x1008, .await] } : State).host = .write .cmd 0x1008 :: .await :: [] ∧
    decode 0x1008#32 = .error .mustBeZero := by decide +kernel

theorem witness_HostWritesRespectAccess :
    ({ sB with host := [.write .status 5] } : State).host = .write .status 5 :: [] ∧
    ({ sB with host := [.write .res2 5] } : State).host = .write .res2 5 :: [] ∧
    ({ sB with host := [.write .arg3 5] } : State).host = .write .arg3 5 :: [] ∧
    ({ sB with host := [.write .arg3 5] } : State).busy = false := by decide

theorem witness_HostReadsHaveNoSideEffect :
    ({ sB with host := [.read .status] } : State).host = .read .status :: [] ∧ sB.busy = false ∧
    (waitingOn (.add 0) [.read .res0] sB).host = .read .res0 :: [] := by decide

/-- A write of an operand; a KEY buffer beside a pending one; a KEY buffer for a command that takes none. -/
theorem witness_BusyInterfaceViolationsAreRefused :
    (waitingOn (.add 0) [.write .arg0 1] sB).busy = true ∧
    (waitingOn (.add 0) [.write .arg0 1] sB).host = .write .arg0 1 :: [] ∧
    (waitingOn (.add 0) [.writeBack .arg1] sB).host = .writeBack .arg1 :: [] ∧
    (waitingOn (.add 0) [.presentKey []] sB).host = .presentKey [] :: [] ∧
    (waitingOn (.add 0) [.presentKey []] sB).ports.keys = [[0x62]] ∧
    decode (waitingOn (.serialize 0) [.presentKey []] (core2 (some fB) none 0)).regs.cmd = .ok (.serialize 0) ∧
    takesKey (.serialize 0) = false := by decide +kernel

/-- Two buffers presented in turn; a waiting ADD; a buffer of `KEY_MAX + 1` bytes where `KEY_MAX = 0`. -/
theorem witness_PortMovesReachThePorts :
    ({ sB with host := [.presentKey [0x63]] } : State).host = .presentKey [0x63] :: [] ∧ sB.busy = false ∧
    [0x63].length ≤ sB.cfg.keyMax ∧ ({ Config.default with keyMax := 0 } : Config).keyMax < [0x63].length ∧
    (waitingOn (.add 0) [.presentKey [0x62]] (core2 (some fB) none 0)).ports.keys = [] ∧
    decode (waitingOn (.add 0) [.presentKey [0x62]] (core2 (some fB) none 0)).regs.cmd = .ok (.add 0) ∧
    takesKey (.add 0) = true ∧ ({ sB with host := [.supply [1] true] } : State).host = .supply [1] true :: [] ∧
    ({ sB with host := [.sink (some 3) false] } : State).host = .sink (some 3) false :: [] := by decide +kernel

theorem witness_HardResetEmptiesTheCore :
    ({ sB with host := [.reset] } : State).host = .reset :: [] ∧ ({ sB with host := [.reset] } : State).busy = false := by
  decide

/-- A reset in a SERIALIZE, a DESERIALIZE and an ADD. -/
theorem witness_ResetAbandonsACommand :
    (waitingOn (.serialize 0) [.reset] sB).busy = true ∧
    (waitingOn (.serialize 0) [.reset] sB).host = .reset :: [] ∧
    decode (waitingOn (.serialize 0) [.reset] sB).regs.cmd = .ok (.serialize 0) ∧
    (waitingOn (.serialize 0) [.reset] sB).slot 0 = some fB ∧
    decode (waitingOn (.deserialize 1) [.reset] sB).regs.cmd = .ok (.deserialize 1) ∧
    decode (waitingOn (.add 0) [.reset] sB).regs.cmd = .ok (.add 0) ∧ takesKey (.add 0) = true := by decide +kernel

/-- Each way of being blocked, at its edge; and a command that is not. -/
theorem witness_EveryCommandEndsOnceOrWaits :
    PortBlocked (.add 0) (core2 (some fB) none 0) ∧
    PortBlocked (.serialize 0) { sB with ports := { Ports.quiet with snkReady := false } } ∧
    PortBlocked (.deserialize 1)
      { sB with ports := { Ports.quiet with src := [0x0C, 0, 0, 0, 0x02, 0, 0], srcEnded := false } } ∧
    PortBlocked (.deserialize 1)
      { sB with ports := { Ports.quiet with src := [0x0C, 0, 0, 0, 0x02, 0, 0, 0, 0x90], srcEnded := false } } ∧
    ¬ PortBlocked (.deserialize 1)
      { sB with ports := { Ports.quiet with src := [0x0C, 0, 0, 0, 0x02, 0, 0, 0, 0x90, 0], srcEnded := false } } ∧
    ¬ PortBlocked (.add 0) sB := by
  refine ⟨rfl, ⟨⟨fB, rfl⟩, rfl⟩, ?_, ?_, ?_, ?_⟩
  · exact ⟨by decide, rfl, rfl, .inl (by decide)⟩
  · exact ⟨by decide, rfl, rfl, .inr (by decide +kernel)⟩
  · rintro ⟨-, -, -, h | ⟨-, h⟩⟩ <;> revert h <;> decide +kernel
  · exact fun h => by cases h

theorem witness_WhichCommandRaisesWhat :
    ¬ PortBlocked (.drop 2) sB ∧ ∃ t, exec (.drop 2) sB = .next t ∧ t.regs.status = 0x022#32 :=
  ⟨id, _, rfl, by decide⟩

/-- An error that takes the KEY buffer; one with a count of accepted bytes; one with a count of consumed bytes; an illegal
word. -/
theorem witness_ErrorsLeaveTheSlots :
    (¬ PortBlocked (.add 2) sB ∧ ∃ t, exec (.add 2) sB = .next t ∧ statusErr t.regs.status = true) ∧
    ends (exec (.serialize 0) (sB.withSink (some 8))) (fun t => statusECode t.regs.status == 7) = true ∧
    ends (exec (.deserialize 1) (sB.withSource [1])) (fun t => statusECode t.regs.status == 8) = true ∧
    (waitingOn (.union 0 0) [] sB).coreTurn = true ∧ decode (sB.withFetchWord 32 0x1008).regs.cmd = .error .mustBeZero :=
  ⟨⟨show ¬ ([[0x62]] = ([] : List (List Byte))) by decide, _, rfl, by decide⟩, by decide +kernel, by decide +kernel, by decide,
    by decide +kernel⟩

theorem witness_CommandsKeepOperandsAndWriteResults :
    (∃ t, exec (.drop 0) sB = .next t) ∧ ¬ PortBlocked (.drop 0) sB := ⟨⟨_, rfl⟩, id⟩

theorem witness_OnlyTheNamedSlotChanges : (∃ t, exec (.union 0 0) sB = .next t) ∧ sB.slot 0 = some fB := ⟨⟨_, rfl⟩, rfl⟩

/-- `n = 1` and `n = 2^32 - 1` at `p = 0.5`: the next theorem says that the first ceiling fits and the second does not. -/
theorem witness_BitcountIsTheExactCeiling :
    (core2 none none 1 0x3FE0000000000000).regs.arg0 ≠ 0 ∧ (core2 none none 4294967295 0x3FE0000000000000).regs.arg0 ≠ 0 ∧
    pval ((core2 none none 1 0x3FE0000000000000).regs.arg3 ++ (core2 none none 1 0x3FE0000000000000).regs.arg2) =
      some (1 / 2) ∧ (0 : ℚ) < 1 / 2 ∧ (1 / 2 : ℚ) < 1 := by decide +kernel

theorem log_two_range : (1 / 2 : ℝ) < Real.log 2 ∧ Real.log 2 < 1 := by
  obtain ⟨h1, h2⟩ := log_two_bounds
  constructor <;> linarith [h1, h2]

/-- R131 at `p = 0.5`. -/
theorem bitCountReal_half (n : ℝ) : -n * Real.log ((1 / 2 : ℚ) : ℝ) / Real.log 2 ^ 2 = n / Real.log 2 := by
  obtain ⟨h1, h2⟩ := log_two_range
  have : Real.log ((1 / 2 : ℚ) : ℝ) = -Real.log 2 := by
    push_cast
    rw [one_div, Real.log_inv]
  rw [this]
  field_simp

theorem witness_BitcountIsTheExactCeiling_sizes :
    ⌈-((1 : ℕ) : ℝ) * Real.log ((1 / 2 : ℚ) : ℝ) / Real.log 2 ^ 2⌉₊ ≤ 2 ^ 32 - 1 ∧
    2 ^ 32 - 1 < ⌈-((4294967295 : ℕ) : ℝ) * Real.log ((1 / 2 : ℚ) : ℝ) / Real.log 2 ^ 2⌉₊ := by
  obtain ⟨h1, h2⟩ := log_two_range
  rw [bitCountReal_half, bitCountReal_half]
  constructor
  · rw [Nat.ceil_le, div_le_iff₀ (by linarith)]
    norm_num
    linarith
  · rw [Nat.lt_ceil, lt_div_iff₀ (by linarith)]
    norm_num
    linarith

theorem witness_BitcountCompletesWithinItsBounds :
    (core2 none none 100 0x3FE0000000000000).regs.arg0 ≠ 0 ∧
    pval ((core2 none none 100 0x3FE0000000000000).regs.arg3 ++ (core2 none none 100 0x3FE0000000000000).regs.arg2) =
      some (1 / 2) ∧ (0 : ℚ) < 1 / 2 ∧ (1 / 2 : ℚ) < 1 := by decide +kernel

theorem witness_BitcountRejectsInvalidOperands :
    (core2 none none 0 1).regs.arg0 = 0 ∧ ((core2 none none 1 0).regs.arg3 ++ (core2 none none 1 0).regs.arg2).toNat = 0 ∧
    0x3FEFFFFFFFFFFFFF < ((core2 none none 1 0x3FF0000000000000).regs.arg3 ++
      (core2 none none 1 0x3FF0000000000000).regs.arg2).toNat := by decide +kernel

theorem witness_HashcountIsTheExactCeiling :
    (sized 9 0).regs.arg0 = 0 ∧ (sized 0 5).regs.arg0 ≠ 0 ∧ (sized 0 5).regs.arg1 = 0 ∧
    (sized 4294967295 1).regs.arg0 ≠ 0 ∧ (sized 4294967295 1).regs.arg1 ≠ 0 := by decide

theorem witness_HashCountRange : (0 : ℕ) ≤ 2 ^ 32 - 1 ∧ (4294967295 : ℕ) ≤ 2 ^ 32 - 1 ∧ 1 ≤ (1 : ℕ) := by decide

/-- Accumulator 0 holds the stream `"ab"`; 2 is the last accumulator. -/
def sAcc (run : Option AccRun) (j : Word) : State := core2 (some (accFilter run)) none j

def runAb : AccRun := { h := 0, length := 2, tail := [0x61, 0x62] }

theorem runAb_holds : runAb.Holds 0 [0x61, 0x62] := ⟨rfl, rfl, rfl⟩

/-- Each clause at its edge: slot 15, slot 2 of two, the empty slot 1, index `k`, and the last index. -/
theorem witness_HresetResetsOneAccumulator :
    15 < 16 ∧ (sAcc none 3).nslots ≤ 2 ∧ 1 < (sAcc none 3).nslots ∧ (sAcc none 3).slot 1 = none ∧
    (sAcc none 3).slot 0 = some (accFilter none) ∧ (accFilter none).k.toNat ≤ (sAcc none 3).regs.arg0.toNat ∧
    (sAcc none 2).slot 0 = some (accFilter none) ∧ (sAcc none 2).regs.arg0.toNat < (accFilter none).k.toNat ∧
    (accFilter none).acc[(sAcc none 2).regs.arg0.toNat]? = some (Acc.fresh 2) := by decide +kernel

/-- And a filter that is well-formed beside it. -/
theorem witness_HresetResetsOneAccumulator_wf : (filterOf 12 3 []).wf (sAcc none 2).cfg :=
  filterOf_wf _ (by decide) (by decide) (by decide) (by decide)

theorem witness_HfeedAppendsTheKey :
    ((sAcc (some runAb) 0).withKeyBuf [0x63]).ports.keys = [[0x63]] ∧
    ((sAcc (some runAb) 0).withKeyBuf [0x63]).slot 0 = some (accFilter (some runAb)) ∧
    ((sAcc (some runAb) 0).withKeyBuf [0x63]).regs.arg0.toNat < (accFilter (some runAb)).k.toNat ∧
    (accFilter (some runAb)).acc[0]? = some { seed := 0, run := some runAb } ∧ runAb.Holds 0 [0x61, 0x62] :=
  ⟨by decide, by decide, by decide, by decide, runAb_holds⟩

/-- The clauses that fail: slot 2 of two, the empty slot 1, index `k`, the closed accumulator 0. -/
theorem witness_HfeedAppendsTheKey_errors :
    ((sAcc none 3).withKeyBuf [0x78]).ports.keys = [[0x78]] ∧ ((sAcc none 3).withKeyBuf [0x78]).nslots ≤ 2 ∧
    1 < ((sAcc none 3).withKeyBuf [0x78]).nslots ∧ ((sAcc none 3).withKeyBuf [0x78]).slot 1 = none ∧
    ((sAcc none 3).withKeyBuf [0x78]).slot 0 = some (accFilter none) ∧
    (accFilter none).k.toNat ≤ ((sAcc none 3).withKeyBuf [0x78]).regs.arg0.toNat ∧
    (accFilter none).acc[0]? = some { seed := 0, run := none } := by decide +kernel

theorem witness_HfinalAnswersTheDigest :
    (sAcc (some runAb) 0).slot 0 = some (accFilter (some runAb)) ∧
    (sAcc (some runAb) 0).regs.arg0.toNat < (accFilter (some runAb)).k.toNat ∧
    (accFilter (some runAb)).acc[0]? = some { seed := 0, run := some runAb } ∧ runAb.Holds 0 [0x61, 0x62] ∧
    (sAcc none 0).regs.arg0.toNat < (accFilter none).k.toNat ∧
    (accFilter none).acc[(sAcc none 0).regs.arg0.toNat]? = some { seed := 0, run := none } :=
  ⟨by decide, by decide, by decide, runAb_holds, by decide, by decide⟩

theorem witness_ClosedAccumulatorRefusesHfinal :
    sB.slot 0 = some fB ∧ fB.wf sB.cfg ∧ sB.regs.arg0.toNat < fB.k.toNat ∧
    (∃ t, exec (.hfinal 0) sB = .next t ∧ t.regs.status = 0x000#32) ∧
    (∃ t, exec (.add 0) sB = .next t ∧ t.regs.status = 0x000#32) ∧
    (∃ t, exec (.contains 0) sB = .next t ∧ t.regs.status = 0x000#32) :=
  ⟨rfl, fB_wf, by decide, ⟨_, rfl, by decide⟩, ⟨_, rfl, by decide⟩, ⟨_, rfl, by decide⟩⟩

/-- `NEW s0, 1, 0.5`: `m = 2` (V-Z3) and `k = 2` (V-Z32). -/
theorem witness_NewConstructsAZeroFilter :
    0 < (core2 none none 1 0x3FE0000000000000).nslots ∧ (core2 none none 1 0x3FE0000000000000).slot 0 = none ∧
    pval ((core2 none none 1 0x3FE0000000000000).regs.arg3 ++ (core2 none none 1 0x3FE0000000000000).regs.arg2) =
      some (1 / 2) ∧ (2 : ℕ) ≤ Config.default.mMax ∧ (2 : ℕ) ≤ Config.default.kMax := by decide +kernel

theorem witness_NewConstructsAZeroFilter_sizes :
    2 = ⌈-((1 : ℕ) : ℝ) * Real.log ((1 / 2 : ℚ) : ℝ) / Real.log 2 ^ 2⌉₊ ∧
    2 = ⌈Real.log 2 * ((2 : ℕ) : ℝ) / ((1 : ℕ) : ℝ)⌉₊ := by
  obtain ⟨h1, h2⟩ := log_two_range
  constructor
  · rw [bitCountReal_half, eq_comm, Nat.ceil_eq_iff (by norm_num), lt_div_iff₀ (by linarith), div_le_iff₀ (by linarith)]
    constructor <;> norm_num <;> linarith
  · rw [eq_comm, Nat.ceil_eq_iff (by norm_num)]
    constructor <;> norm_num <;> linarith

/-- Slot 2 of two; an occupied slot; `n = 0`; and an empty slot with `p = 0.5`, where the ceiling 2 of `n = 1` is above
`M_MAX = 1`. -/
theorem witness_NewErrors :
    sB.nslots ≤ 2 ∧ sB.slot 0 = some fB ∧ 1 < sB.nslots ∧ sB.slot 1 = none ∧ sB.regs.arg0 = 0 ∧
    (core2 none none 1 0x3FE0000000000000).regs.arg0 ≠ 0 ∧
    ({ Config.default with mMax := 1 } : Config).mMax < 2 := by decide +kernel

/-- And a `k` above `K_MAX = 1`: `(m, n) = (2, 1)`. -/
theorem witness_NewErrors_k : ({ Config.default with kMax := 1 } : Config).kMax <
    ⌈Real.log 2 * ((2 : ℕ) : ℝ) / ((1 : ℕ) : ℝ)⌉₊ := by
  obtain ⟨h1, h2⟩ := log_two_range
  show 1 < _
  rw [Nat.lt_ceil]
  norm_num
  linarith

theorem witness_DropEmptiesTheSlot : 1 < sB.nslots ∧ sB.nslots ≤ 2 := by decide

theorem witness_AddSetsTheIndexSet : sB.ports.keys = [[0x62]] ∧ sB.slot 0 = some fB ∧ fB.wf sB.cfg ∧ sB.nslots ≤ 2 ∧
    1 < sB.nslots ∧ sB.slot 1 = none :=
  ⟨rfl, rfl, fB_wf, by decide, by decide, by decide⟩

/-- `fB` has `"b"`, and a new filter has not. -/
theorem witness_ContainsAnswersTheConjunction :
    sB.ports.keys = [[0x62]] ∧ sB.slot 0 = some fB ∧ fB.wf sB.cfg ∧ fB.Has [0x62] ∧
    ¬ (filterOf 12 2 []).Has [0x62] := by
  refine ⟨rfl, rfl, fB_wf, ?_, ?_⟩
  · exact (Filter.hasKey_iff fB_wf _).mp (by decide +kernel)
  · rw [← Filter.hasKey_iff (filterOf_wf [] (by decide) (by decide) (by decide) (by decide))]
    decide +kernel

/-- An ADD of `"b"`, then one more step (the host presents `"b"` again), after which the slot still holds a filter. -/
theorem witness_NoFalseNegatives :
    ∃ t u, exec (.add 0) { sB with host := [.presentKey [0x62]] } = .next t ∧ StepsHolding 0 t u ∧
      u.ports.keys = [[0x62]] :=
  ⟨_, _, rfl, .tail (.refl _) rfl ⟨_, rfl⟩, rfl⟩

theorem witness_NoFalseNegatives_inv : ({ sB with host := [.presentKey [0x62]] } : State).Inv :=
  inv_of rfl legal_idle (.inr rfl) fB_wf fB_wf (.inr (.inl rfl))

/-- A step that runs an ADD: the slot holds a filter before and after it. -/
theorem witness_BitsOnlyRise :
    (waitingOn (.add 0) [] sB).Inv ∧ (waitingOn (.add 0) [] sB).slot 0 = some fB ∧
    ∃ t g, step (waitingOn (.add 0) [] sB) = .next t ∧ t.slot 0 = some g := by
  refine ⟨inv_of rfl ⟨true, .inl rfl⟩ (.inr rfl) fB_wf fB_wf (.inr (.inl rfl)), rfl, ?_⟩
  exact ⟨_, _, rfl, rfl⟩

/-- A new filter in slot 0, and a KEY buffer `"b"`. -/
def sNew : State := (core2 (some (filterOf 12 2 [])) none 0).withKeyBuf [0x62]

theorem sNew_inv : sNew.Inv :=
  have h : (filterOf 12 2 []).wf Config.default := filterOf_wf _ (by decide) (by decide) (by decide) (by decide)
  inv_of rfl legal_idle (.inr rfl) h h (.inr (.inl rfl))

/-- A filter kept, one that ADD changes, one created, one removed. -/
theorem witness_WhoWritesABitArray :
    sB.Inv ∧ sB.slot 0 = some fB ∧ sB.slot 1 = none ∧ (∃ t g, exec (.contains 0) sB = .next t ∧ t.slot 0 = some g) ∧
    (sNew.Inv ∧ sNew.slot 0 = some (filterOf 12 2 []) ∧
      ends (exec (.add 0) sNew) (fun t => decide (bits0 t = some (bitsOf 12 [3, 11]))) = true) ∧
    (sNew.slot 1 = none ∧ ends (exec (.deserialize 1) (sNew.withSource [9, 0, 0, 0, 1, 0, 0, 0, 0, 0]))
      (fun t => (t.slot 1).isSome) = true) ∧
    ∃ t, exec (.drop 0) sB = .next t ∧ t.slot 0 = none :=
  ⟨sB_inv, rfl, rfl, ⟨_, _, rfl, rfl⟩, ⟨sNew_inv, rfl, by decide +kernel⟩, ⟨rfl, by decide +kernel⟩, _, rfl, rfl⟩

theorem witness_BodyLengthIsTheCeiling : 1 ≤ (1#32).toNat ∧ 1 ≤ (4294967295#32).toNat := by decide

theorem witness_BodyBitsAreMsbFirst : 1 < cdiv8 9 ∧ 7 < 8 := by decide

theorem witness_UnpackInvertsPack : (bitsOf 9 [0, 8]).length = (9#32).toNat ∧ 8 < 9 := by decide

/-- A sink with no limit, and one that takes exactly the 10 bytes. -/
theorem witness_SerializeWritesThePack :
    sB.slot 0 = some fB ∧ sB.ports.snkReady = true ∧ sB.ports.accept = none ∧
    (sB.withSink (some 10)).ports.accept = some 10 ∧ 8 + cdiv8 fB.m ≤ 10 ∧
    sB.nslots ≤ 2 ∧ 1 < sB.nslots ∧ sB.slot 1 = none := by decide +kernel

/-- The two sides of the header's end, and one byte short. -/
theorem witness_SerializeWritesThePack_short :
    (sB.withSink (some 7)).slot 0 = some fB ∧ (sB.withSink (some 7)).ports.snkReady = true ∧
    (sB.withSink (some 7)).ports.accept = some 7 ∧ (sB.withSink (some 8)).ports.accept = some 8 ∧
    (sB.withSink (some 9)).ports.accept = some 9 ∧ 9 < 8 + cdiv8 fB.m := by decide +kernel

/-- Source and slot of a DESERIALIZE into slot 1. -/
def sSrc (src : List Byte) : State := (core2 (some fB) none 0).withSource src

theorem witness_DeserializeCreatesTheFilter :
    1 < (sSrc []).nslots ∧ (sSrc []).slot 1 = none ∧
    (sSrc (headerBytes 9 1 ++ [0x80, 0x80, 0xAA])).ports.src = headerBytes 9 1 ++ [0x80, 0x80, 0xAA] ∧
    9#32 ≠ 0 ∧ 1#32 ≠ 0 ∧ cdiv8 9 ≤ [0x80, 0x80, 0xAA].length ∧ (9#32).toNat ≤ (sSrc []).cfg.mMax ∧
    (1#32).toNat ≤ (sSrc []).cfg.kMax := by decide +kernel

/-- A header one byte short; a header of 0 bits, one of 0 hashers, one above `M_MAX = 8`; a body one byte short. -/
theorem witness_DeserializeCreatesTheFilter_errors :
    (sSrc []).nslots ≤ 2 ∧ (sSrc []).slot 0 = some fB ∧ 1 < (sSrc []).nslots ∧ (sSrc []).slot 1 = none ∧
    (sSrc ((headerBytes 9 1).take 7)).ports.srcEnded = true ∧ (sSrc ((headerBytes 9 1).take 7)).ports.src.length < 8 ∧
    (sSrc (headerBytes 0 1)).ports.src = headerBytes 0 1 ++ [] ∧
    (sSrc (headerBytes 9 0)).ports.src = headerBytes 9 0 ++ [] ∧
    ({ Config.default with mMax := 8 } : Config).mMax < (9#32).toNat ∧
    (sSrc (headerBytes 9 1 ++ [0x80])).ports.src = headerBytes 9 1 ++ [0x80] ∧ [0x80].length < cdiv8 9 := by
  decide +kernel

/-- Slot 0 is written out and read back into slot 1 of the same core. -/
theorem witness_SerializeDeserializeRoundTrip :
    sB.Inv ∧ sB.slot 0 = some fB ∧
    ∃ t w, exec (.serialize 0) sB = .next t ∧ t.regs.status = 0x000#32 ∧ t.ports.snk = sB.ports.snk ++ w ∧
      (sSrc (w ++ [0xAA])).cfg = sB.cfg ∧ 1 < (sSrc (w ++ [0xAA])).nslots ∧ (sSrc (w ++ [0xAA])).slot 1 = none ∧
      (sSrc (w ++ [0xAA])).ports.src = w ++ [0xAA] :=
  ⟨sB_inv, rfl, _, pack fB.m fB.k fB.bits, rfl, rfl, rfl, rfl, by decide, rfl, rfl⟩

theorem witness_ProperPrefixesAreRejected :
    fB.wf (sSrc []).cfg ∧ 1 < (sSrc []).nslots ∧ (sSrc []).slot 1 = none ∧ (sSrc []).ports.srcEnded = true ∧
    (sSrc ((pack fB.m fB.k fB.bits).take 9)).ports.src = (pack fB.m fB.k fB.bits).take 9 ∧ 9 < 8 + cdiv8 fB.m :=
  ⟨fB_wf, by decide, by decide, rfl, rfl, by decide⟩

/-- Two filters of one shape. -/
def s2 : State := core2 (some fB) (some (filterOf 12 2 [7])) 0

theorem f7_wf : (filterOf 12 2 [7]).wf Config.default := filterOf_wf _ (by decide) (by decide) (by decide) (by decide)

theorem s2_inv : s2.Inv := inv_of rfl legal_idle (.inl rfl) fB_wf f7_wf (.inl rfl)

theorem witness_UnionOrsTheBits :
    s2.Inv ∧ s2.slot 0 = some fB ∧ s2.slot 1 = some (filterOf 12 2 [7]) ∧ fB.m = (filterOf 12 2 [7]).m ∧
    fB.k = (filterOf 12 2 [7]).k := ⟨s2_inv, rfl, rfl, rfl, rfl⟩

/-- One slot out of range, one empty, and two shapes. -/
theorem witness_UnionOrsTheBits_errors :
    s2.nslots ≤ 2 ∧ 0 < sB.nslots ∧ 1 < sB.nslots ∧ sB.slot 1 = none ∧
    (core2 (some fB) (some (filterOf 12 3 [])) 0).slot 1 = some (filterOf 12 3 []) ∧
    fB.k ≠ (filterOf 12 3 []).k ∧ fB.m ≠ (filterOf 16 2 []).m := by decide +kernel

theorem witness_UnionIsIdempotent :
    s2.slot 0 = some fB ∧ s2.Inv ∧ ∃ t, exec (.union 0 1) s2 = .next t ∧ t.regs.status = 0x000#32 :=
  ⟨rfl, s2_inv, _, rfl, rfl⟩

/-- Both orders of two unions with slot 1. -/
theorem witness_UnionsCommute :
    s2.Inv ∧ ∃ t1 u1 t2 u2, exec (.union 0 1) s2 = .next t1 ∧ t1.regs.status = 0x000#32 ∧
      exec (.union 0 1) t1 = .next u1 ∧ u1.regs.status = 0x000#32 ∧ exec (.union 0 1) s2 = .next t2 ∧
      exec (.union 0 1) t2 = .next u2 := ⟨s2_inv, _, _, _, _, rfl, rfl, rfl, rfl, rfl, rfl⟩

/-- Slot 0 has `"b"` before the UNION. -/
theorem witness_UnionKeepsEveryKey :
    s2.Inv ∧ (∃ t, exec (.union 0 1) s2 = .next t ∧ t.regs.status = 0x000#32) ∧
    ∃ v, exec (.contains 0) { s2 with ports := { s2.ports with keys := [[0x62]] } } = .next v ∧
      Reports v 0x000 1 0 0 :=
  ⟨s2_inv, ⟨_, rfl, rfl⟩, _, rfl, by decide +kernel, by decide +kernel, by decide +kernel, by decide +kernel⟩

theorem witness_UnionEqualsAddingBothKeySets : 1 ≤ 4294967295 ∧ 4294967295 ≤ 2 ^ 32 - 1 := by decide

/-- A step of the core (an ADD) and one of the host, from legal states whose open accumulators hold streams. -/
theorem witness_StepKeepsInv :
    (waitingOn (.add 0) [] sB).Inv ∧ (∃ t, step (waitingOn (.add 0) [] sB) = .next t) ∧
    ∃ t, step (waitingOn (.add 0) [.sink none true] sB) = .next t :=
  ⟨inv_of rfl ⟨true, .inl rfl⟩ (.inr rfl) fB_wf fB_wf (.inr (.inl rfl)), ⟨_, rfl⟩, ⟨_, rfl⟩⟩

/-- Steps that run an HRESET and an HFEED of accumulator 0, and one that changes no accumulator. -/
theorem witness_StepCarriesTheStream :
    (waitingOn (.hreset 0) [] sB).Inv ∧ (waitingOn (.hfeed 0) [] sB).Inv ∧ sB.slot 0 = some fB ∧
    fB.acc[0]? = some (Acc.fresh 0) ∧ (waitingOn (.hfeed 0) [] sB).regs.arg0.toNat = 0 ∧
    (∃ t g, step (waitingOn (.hreset 0) [] sB) = .next t ∧ t.slot 0 = some g ∧ Succeeded (.hreset 0) (waitingOn (.hreset 0) [] sB) t ∧
      g.acc[0]? = some (Acc.fresh 0)) ∧
    (∃ t g, step (waitingOn (.hfeed 0) [] sB) = .next t ∧ t.slot 0 = some g ∧ Succeeded (.hfeed 0) (waitingOn (.hfeed 0) [] sB) t ∧
      g.acc[0]? = some { seed := 0, run := some { h := 0, length := 1, tail := [0x62] } }) ∧
    ∃ t, step (waitingOn (.serialize 0) [] sB) = .next t ∧ t.slot 0 = some fB :=
  have h : ∀ i, (waitingOn i [] sB).Inv := fun _ =>
    inv_of rfl ⟨true, .inl rfl⟩ (.inr rfl) fB_wf fB_wf (.inr (.inl rfl))
  ⟨h _, h _, rfl, rfl, rfl, ⟨_, _, rfl, rfl, ⟨rfl, rfl, rfl⟩, rfl⟩, ⟨_, _, rfl, rfl, ⟨rfl, rfl, rfl⟩, by decide +kernel⟩,
    ⟨_, rfl, rfl⟩⟩

/-- NEW puts a filter into an empty slot, its accumulators open. -/
theorem witness_StepCarriesTheStream_new :
    (waitingOn (.new 1) [] (core2 none none 4 0x3FD0000000000000)).slot 1 = none ∧
    ends (step (waitingOn (.new 1) [] (core2 none none 4 0x3FD0000000000000)))
      (fun t => decide ((t.slot 1).bind (·.acc[2]?) = some (Acc.fresh 2))) = true := by decide +kernel

end Sys2Proof.Tests
end

section
/-! PROOFS. The length of a body and of a stream (R17, R114). -/

namespace Sys2Proof.Machine

theorem cdiv8_pos {m : Word} (h : 1 ≤ m.toNat) : 1 ≤ cdiv8 m := by
  rw [cdiv8_eq]
  omega

/-- Settles O41: `cdiv8_eq` is the ceiling, `cdiv8_le` and `cdiv8_pos` bound it, and a stream is eight header bytes
before the body (`pack_length_eq`). -/
theorem bodyLengthIsTheCeiling : Obligations.BodyLengthIsTheCeiling := by
  intro m
  have hle : cdiv8 m ≤ 536870912 := cdiv8_le m
  refine ⟨cdiv8_eq m, hle, fun k bits => ?_⟩
  rw [pack_length_eq]
  exact ⟨rfl, Nat.add_le_add_left hle 8, fun hm => Nat.add_le_add_left (cdiv8_pos hm) 8⟩

end Sys2Proof.Machine
end

section
/-! PROOFS. The slots through a command and through a step (spec/10_state.md R22 to R24, R28). -/

namespace Sys2Proof.Machine

theorem State.slot_congr {s t : State} (h : t.slots = s.slots) (a : Nat) : t.slot a = s.slot a := by
  rw [State.slot, State.slot, h]

/-! How a command ends, from `exec_ends`. -/

/-- What a command leaves: it waits, or it has written its results over a state that only its traffic changed. -/
theorem exec_next_cases {i : Instr} {s t : State} (he : exec i s = .next t) :
    (PortBlocked i s ∧ t = s.waiting) ∨
    (¬ PortBlocked i s ∧ ∃ st r0 r1 r2 s1, t = s1.complete st r0 r1 r2 ∧ Went i s s1 ∧ s1.nslots = s.nslots ∧
      (st = 0 ∨ ∃ e info, (e, info) ∈ errorsOf i ∧ st = statusError e info)) := by
  rcases exec_ends i s with
    ⟨hb, e⟩ | ⟨hb, err, info, n, s1, hm, e, hw, hs, -⟩ | ⟨hb, r0, r1, r2, s1, e, hw, hs⟩
  · rw [e] at he
    cases he
    exact .inl ⟨hb, rfl⟩
  · rw [e, raise_eq] at he
    cases he
    exact .inr ⟨hb, _, _, _, _, s1, rfl, hw, congrArg List.length hs, .inr ⟨err, info, hm, rfl⟩⟩
  · rw [e, succeed_eq] at he
    cases he
    refine .inr ⟨hb, _, _, _, _, s1, rfl, hw, ?_, .inl rfl⟩
    rcases hs with hs | ⟨sa, o, -, -, hs⟩ <;> simp [State.nslots, hs]

/-- R83, R266: a slot that a command does not name, or of a command that does not succeed, is as it was. -/
theorem exec_slot_kept {i : Instr} {s t : State} (he : exec i s = .next t) {a : Nat}
    (h : ¬ (t.regs.status = 0 ∧ writtenSlot i = some a)) : t.slot a = s.slot a := by
  rcases exec_ends i s with ⟨-, e⟩ | ⟨-, err, info, n, s1, -, e, -, hs, -⟩ | ⟨-, r0, r1, r2, s1, e, -, hs⟩
  · rw [e] at he
    cases he
    rfl
  · rw [e, raise_eq] at he
    cases he
    exact State.slot_congr hs a
  · rw [e, succeed_eq] at he
    cases he
    rcases hs with hs | ⟨sa, o, hi, -, hs⟩
    · exact State.slot_congr hs a
    · rcases State.slot_of_set (s := s) (t := s1) (a := a) hs with hs | ⟨rfl, -⟩
      · exact hs
      · exact absurd ⟨rfl, hi⟩ h

/-! The operand checks of a command that succeeds (R256 to R258): each has been passed. -/

section
variable {sa : Nat} {s t : State} (ht : t.regs.status = 0)
include ht

/-- A command that has raised an error has not succeeded. -/
theorem raise_ne_of_ok {e : ErrKind} {info n : Nat} {s1 : State} : raise e info n s1 ≠ .next t := by
  intro h
  cases h
  exact statusError_ne_zero e info ht

theorem withFilter_ok {go : Filter → Result} (h : withFilter sa s go = .next t) :
    ∃ f, s.slot sa = some f ∧ go f = .next t := by
  rcases withFilter_cases sa s go with ⟨-, e⟩ | ⟨-, -, e⟩ | ⟨f, hf, e⟩
  · exact absurd (e.symm.trans h) (raise_ne_of_ok ht)
  · exact absurd (e.symm.trans h) (raise_ne_of_ok ht)
  · exact ⟨f, hf, e.symm.trans h⟩

theorem withAcc_ok {go : Filter → Acc → Result} (h : withAcc sa s go = .next t) :
    ∃ f x, s.slot sa = some f ∧ f.acc[s.opJ]? = some x ∧ go f x = .next t := by
  rcases withAcc_cases sa s go with ⟨-, e⟩ | ⟨-, -, e⟩ | ⟨f, -, -, e⟩ | ⟨f, x, hf, -, hx, e⟩
  · exact absurd (e.symm.trans h) (raise_ne_of_ok ht)
  · exact absurd (e.symm.trans h) (raise_ne_of_ok ht)
  · exact absurd (e.symm.trans h) (raise_ne_of_ok ht)
  · exact ⟨f, x, hf, hx, e.symm.trans h⟩

theorem withOpenAcc_ok {go : Filter → Acc → AccRun → Result} (h : withOpenAcc sa s go = .next t) :
    ∃ f x r, s.slot sa = some f ∧ f.acc[s.opJ]? = some x ∧ x.run = some r ∧ go f x r = .next t := by
  obtain ⟨f, x, hf, hx, h⟩ := withAcc_ok ht h
  cases hr : x.run with
  | none => rw [hr] at h; exact absurd h (raise_ne_of_ok ht)
  | some r => rw [hr] at h; exact ⟨f, x, r, hf, hx, hr, h⟩

theorem withKey_ok {go : List Byte → State → Result} (h : withKey s go = .next t) :
    ∃ key rest, s.ports.keys = key :: rest ∧ go key s.takeKey = .next t := by
  cases hk : s.ports.keys with
  | nil =>
    rw [withKey_of_none hk] at h
    cases h
    exact absurd ht (State.waiting_status_ne_zero s)
  | cons key rest => exact ⟨key, rest, rfl, (withKey_of_key hk go).symm.trans h⟩

end

/-! What each command that succeeds makes of the slot it names. -/

/-- `Wrote s a i o o'`: the command `i`, run in `s` to success, has put `o'` into slot `a`, which held `o`. -/
inductive Wrote (s : State) (a : Nat) : Instr → Option Filter → Option Filter → Prop where
  /-- R160. -/
  | hreset {f : Filter} {x : Acc} (hx : f.acc[s.opJ]? = some x) :
      Wrote s a (.hreset a) (some f) (some { f with acc := f.acc.set s.opJ x.reset })
  /-- R161. -/
  | hfeed {f : Filter} {x : Acc} {r : AccRun} {key : List Byte} {rest : List (List Byte)}
      (hk : s.ports.keys = key :: rest) (hx : f.acc[s.opJ]? = some x) (hr : x.run = some r) :
      Wrote s a (.hfeed a) (some f) (some { f with acc := f.acc.set s.opJ { x with run := some (r.feed key) } })
  /-- R162. -/
  | hfinal {f : Filter} {x : Acc} (hx : f.acc[s.opJ]? = some x) :
      Wrote s a (.hfinal a) (some f) (some { f with acc := f.acc.set s.opJ x.close })
  /-- R181. -/
  | new (mm kk : Nat) : Wrote s a (.new a) none (some (Filter.construct mm kk (List.replicate mm false)))
  /-- R183. -/
  | drop (o : Option Filter) : Wrote s a (.drop a) o none
  /-- R185. -/
  | add (f : Filter) (key : List Byte) : Wrote s a (.add a) (some f) (some (f.addKey key))
  /-- R187. -/
  | contains (f : Filter) : Wrote s a (.contains a) (some f) (some f.closeAll)
  /-- R220. -/
  | deserialize (mm kk : Nat) (bits : List Bool) :
      Wrote s a (.deserialize a) none (some (Filter.construct mm kk bits))
  /-- R241. -/
  | union (b : Nat) (f g : Filter) :
      Wrote s a (.union a b) (some f) (some { f with bits := orBits f.bits g.bits })

/-- A slot after a command has written it and succeeded. -/
theorem slot_of_succeed_setSlot {s t : State} {a : Nat} {o : Option Filter} {r0 r1 r2 : Word}
    (h : succeed r0 r1 r2 (s.setSlot a o) = .next t) (ha : a < s.nslots) : t.slot a = o := by
  cases h
  exact State.complete_setSlot_slot o ha _ _ _ _

theorem exec_wrote {i : Instr} {s t : State} {a : Nat} (he : exec i s = .next t) (ht : t.regs.status = 0)
    (hi : writtenSlot i = some a) : Wrote s a i (s.slot a) (t.slot a) := by
  have ok {e : ErrKind} {info n : Nat} {s1 : State} (h : exec i s = raise e info n s1) : False :=
    raise_ne_of_ok ht (h.symm.trans he)
  cases i with
  | bitcount => cases hi
  | hashcount => cases hi
  | serialize sa => cases hi
  | hreset sa =>
    cases hi
    obtain ⟨f, x, hf, hx, h⟩ := withAcc_ok ht he
    rw [slot_of_succeed_setSlot h (State.slot_lt hf), hf]
    exact .hreset hx
  | hfeed sa =>
    cases hi
    rw [exec, execHfeed] at he
    obtain ⟨key, rest, hk, h⟩ := withKey_ok ht he
    obtain ⟨f, x, r, hf, hx, hr, h⟩ := withOpenAcc_ok ht h
    rw [slot_of_succeed_setSlot h (State.slot_lt hf), show s.slot a = some f from hf]
    exact .hfeed hk hx hr
  | hfinal sa =>
    cases hi
    obtain ⟨f, x, r, hf, hx, -, h⟩ := withOpenAcc_ok ht he
    rw [slot_of_succeed_setSlot h (State.slot_lt hf), hf]
    exact .hfinal hx
  | new sa =>
    cases hi
    rcases execNew_cases a s with ⟨-, e⟩ | ⟨f, -, e⟩ |
      ⟨hl, hf, ⟨-, e⟩ | ⟨-, -, ⟨-, e⟩ | ⟨-, -, ⟨-, e⟩ | ⟨-, e⟩⟩⟩⟩
    · exact (ok e).elim
    · exact (ok e).elim
    · exact (ok e).elim
    · exact (ok e).elim
    · exact (ok e).elim
    · rw [slot_of_succeed_setSlot (e.symm.trans he) hl, hf]
      exact .new _ _
  | drop sa =>
    cases hi
    rcases execDrop_cases a s with ⟨-, e⟩ | ⟨hl, e⟩
    · exact (ok e).elim
    · rw [slot_of_succeed_setSlot (e.symm.trans he) hl]
      exact .drop _
  | add sa =>
    cases hi
    rw [exec, execAdd] at he
    obtain ⟨key, rest, -, h⟩ := withKey_ok ht he
    obtain ⟨f, hf, h⟩ := withFilter_ok ht h
    rw [slot_of_succeed_setSlot h (State.slot_lt hf), show s.slot a = some f from hf]
    exact .add f key
  | contains sa =>
    cases hi
    rw [exec, execContains] at he
    obtain ⟨key, rest, -, h⟩ := withKey_ok ht he
    obtain ⟨f, hf, h⟩ := withFilter_ok ht h
    rw [slot_of_succeed_setSlot h (State.slot_lt hf), show s.slot a = some f from hf]
    exact .contains f
  | deserialize sa =>
    cases hi
    have wait : execDeserialize a s ≠ .next s.waiting := by
      intro e
      cases e.symm.trans he
      exact State.waiting_status_ne_zero s ht
    rcases execDeserialize_cases a s with ⟨-, e⟩ | ⟨f, -, e⟩ | ⟨hl, hf, ⟨-, -, e⟩ | ⟨-, -, e⟩ |
      ⟨-, m, k, -, -, ⟨-, e⟩ | ⟨-, ⟨-, -, e⟩ | ⟨-, -, e⟩ | ⟨-, e⟩⟩⟩⟩
    · exact (ok e).elim
    · exact (ok e).elim
    · exact absurd e wait
    · exact (ok e).elim
    · exact (ok e).elim
    · exact absurd e wait
    · exact (ok e).elim
    · rw [slot_of_succeed_setSlot (e.symm.trans he) hl, hf]
      exact .deserialize _ _ _
  | union sa sb =>
    cases hi
    rcases execUnion_cases a sb s with ⟨-, e⟩ | ⟨-, -, -, e⟩ | ⟨f, g, hf, -, ⟨-, e⟩ | ⟨-, -, e⟩⟩
    · exact (ok e).elim
    · exact (ok e).elim
    · exact (ok e).elim
    · rw [slot_of_succeed_setSlot (e.symm.trans he) (State.slot_lt hf), hf]
      exact .union sb f g

end Sys2Proof.Machine
end

section
/-! PROOFS. The machine invariant and the bit arrays through a step (spec/10_state.md R22, R23, R32). -/

namespace Sys2Proof.Machine

/-- R24: the hardware reset leaves every slot empty. -/
theorem State.slot_of_replicate {t : State} {n : Nat} (h : t.slots = List.replicate n none) (a : Nat) :
    t.slot a = none := by
  rw [State.slot_congr (t := t) (s := State.resetOf t.cfg n) h, State.resetOf_slot]

/-- From `s` to `t`, slot `a` is as it was, is emptied, or receives one of the filters a command can make of it. -/
def SlotKeptOrMade (s t : State) (a : Nat) : Prop :=
  t.slot a = s.slot a ∨ t.slot a = none ∨ ∃ g, t.slot a = some g ∧ Made s (s.slot a) g

theorem exec_slotKeptOrMade {i : Instr} {s t : State} (he : exec i s = .next t) (a : Nat) : SlotKeptOrMade s t a := by
  rcases exec_slot_cases he a with h | ⟨-, h⟩ | ⟨g, hg, hM, -⟩
  · exact .inl h
  · exact .inr (.inl h)
  · exact .inr (.inr ⟨g, hg, hM⟩)

theorem step_slotKeptOrMade {s t : State} (h : step s = .next t) (a : Nat) : SlotKeptOrMade s t a := by
  rcases step_cases h with ⟨-, i, -, he⟩ | ⟨-, e, -, rfl⟩ | ⟨-, -, rfl⟩ | ⟨-, mv, rest, -, hm⟩
  · exact exec_slotKeptOrMade he a
  · exact .inl rfl
  · exact .inl rfl
  · obtain ⟨-, -, -, ⟨hs, -⟩ | ⟨-, hs, -⟩⟩ := hostMove_cases hm
    · exact .inl (State.slot_congr hs a)
    · exact .inr (.inl (State.slot_of_replicate hs a))

/-- R22: the filter that the slot then holds. -/
theorem SlotKeptOrMade.wf {s t : State} {a : Nat} {g : Filter} (h : SlotKeptOrMade s t a) (hI : s.Inv)
    (hg : t.slot a = some g) : g.wf s.cfg := by
  rcases h with h | h | ⟨g', h, hM⟩
  · exact hI.filter_wf (h.symm.trans hg)
  · cases hg.symm.trans h
  · cases hg.symm.trans h
    exact hM.wf hI

/-- R22, R23: what a filter that stays in its slot keeps. -/
theorem SlotKeptOrMade.rises {s t : State} {a : Nat} {f g : Filter} (h : SlotKeptOrMade s t a) (hI : s.Inv)
    (hf : s.slot a = some f) (hg : t.slot a = some g) :
    g.m = f.m ∧ g.k = f.k ∧ ∀ i, bitRead f.bits i = true → bitRead g.bits i = true := by
  rcases h with h | h | ⟨g', h, hM⟩
  · cases hf.symm.trans (h.symm.trans hg)
    exact ⟨rfl, rfl, fun _ h => h⟩
  · cases hg.symm.trans h
  · cases hg.symm.trans h
    exact hM.rises hI hf

/-- Settles O39: the slot is as it was or holds what a command has made of it (`step_slotKeptOrMade`), and that only
sets bits. -/
theorem bitsOnlyRise : Obligations.BitsOnlyRise :=
  fun _ _ a _ _ hI h hf hg => (step_slotKeptOrMade h a).rises hI hf hg

/-! R23: which commands write a bit array. -/

/-- A slot that a command has changed is the one it names, and the command has succeeded. -/
theorem exec_slot_written {i : Instr} {s t : State} (he : exec i s = .next t) {a : Nat} (h : t.slot a ≠ s.slot a) :
    Wrote s a i (s.slot a) (t.slot a) := by
  by_cases hw : t.regs.status = 0 ∧ writtenSlot i = some a
  · exact exec_wrote he hw.1 hw.2
  · exact absurd (exec_slot_kept he hw) h

/-- R23: the commands that write a bit array. -/
theorem Wrote.bits {s : State} {a : Nat} {i : Instr} {f g : Filter} (h : Wrote s a i (some f) (some g)) :
    g.bits = f.bits ∨ i = .add a ∨ ∃ b, i = .union a b := by
  cases h with
  | hreset => exact .inl rfl
  | hfeed => exact .inl rfl
  | hfinal => exact .inl rfl
  | contains => exact .inl rfl
  | add => exact .inr (.inl rfl)
  | union b => exact .inr (.inr ⟨b, rfl⟩)

/-- R23: the commands that fill an empty slot. -/
theorem Wrote.creates {s : State} {a : Nat} {i : Instr} {g : Filter} (h : Wrote s a i none (some g)) :
    i = .new a ∨ i = .deserialize a := by
  cases h with
  | new => exact .inl rfl
  | deserialize => exact .inr rfl

/-- R23: the command that empties a slot. -/
theorem Wrote.removes {s : State} {a : Nat} {i : Instr} {f : Filter} (h : Wrote s a i (some f) none) : i = .drop a := by
  cases h
  rfl

/-- Settles O40: a slot that differs after a command has been written by it (`exec_slot_written`), and `Wrote` lists
what each command writes; that only sets bits (`SlotKeptOrMade.rises`). -/
theorem whoWritesABitArray : Obligations.WhoWritesABitArray := by
  intro i s t a hI he
  have wrote {o o' : Option Filter} (hs : s.slot a = o) (ht : t.slot a = o') (hne : o' ≠ o) : Wrote s a i o o' := by
    subst hs ht
    exact exec_slot_written he hne
  refine ⟨fun f g hf hg => ⟨((exec_slotKeptOrMade he a).rises hI hf hg).2.2, fun hb => ?_⟩, fun g hf hg => ?_,
    fun f hf hg => ?_⟩
  · exact (wrote hf hg fun h => hb (congrArg Filter.bits (Option.some.inj h))).bits.resolve_left hb
  · exact (wrote hf hg (by simp)).creates
  · exact (wrote hf hg (by simp)).removes

/-! The machine invariant. -/

theorem statusLegal_zero : statusLegal 0 := ⟨false, .inl (by decide)⟩

theorem statusLegal_statusError {e : ErrKind} {info : Nat} (h : info < e.infos) : statusLegal (statusError e info) :=
  ⟨false, .inr ⟨e, info, h, rfl⟩⟩

/-- R300: setting `BUSY` keeps R32. -/
theorem statusLegal.setBusy {w : Word} (h : statusLegal w) : statusLegal (statusSetBusy w) := by
  obtain ⟨b, rfl | ⟨e, info, hi, rfl⟩⟩ := h <;> rw [statusSetBusy_statusWord]
  · exact ⟨true, .inl rfl⟩
  · exact ⟨true, .inr ⟨e, info, hi, rfl⟩⟩

/-- R275, R252: the sub-causes of every command are in the table. -/
theorem info_lt_of_mem_errorsOf {i : Instr} {e : ErrKind} {info : Nat} (h : (e, info) ∈ errorsOf i) :
    info < e.infos := by
  have all : ∀ p ∈ errorsOf i, p.2 < p.1.infos := by cases i <;> simp only [errorsOf] <;> decide
  exact all _ h

/-- What a transition has to keep of the invariant, R22 set apart. -/
structure KeepsRest (s t : State) : Prop where
  cfg : t.cfg = s.cfg
  nslots : t.nslots = s.nslots
  status : statusLegal s.regs.status → statusLegal t.regs.status
  keys : ∀ key ∈ t.ports.keys, key ∈ s.ports.keys ∨ key.length ≤ s.cfg.keyMax

theorem exec_keepsRest {i : Instr} {s t : State} (he : exec i s = .next t) : KeepsRest s t := by
  rcases exec_next_cases he with ⟨-, rfl⟩ | ⟨-, st, r0, r1, r2, s1, rfl, hw, hn, hst⟩
  · exact ⟨rfl, rfl, statusLegal.setBusy, fun _ h => .inl h⟩
  · refine ⟨hw.cfg, hn, fun _ => ?_, fun key hk => .inl ?_⟩
    · rcases hst with rfl | ⟨e, info, hm, rfl⟩
      · exact statusLegal_zero
      · exact statusLegal_statusError (info_lt_of_mem_errorsOf hm)
    · rw [State.complete_ports, hw.keys] at hk
      split at hk
      · exact List.mem_of_mem_tail hk
      · exact hk

theorem hostMove_keepsRest {mv : HostMove} {s t : State} (h : hostMove mv s = .next t) : KeepsRest s t := by
  obtain ⟨hc, -, hk, ⟨hs, hst⟩ | ⟨-, hs, hr⟩⟩ := hostMove_cases h
  · refine ⟨hc, congrArg List.length hs, fun hl => ?_, hk⟩
    rcases hst with hst | hst <;> rw [hst]
    · exact hl
    · exact hl.setBusy
  · exact ⟨hc, by simp [State.nslots, hs], fun _ => by rw [hr]; exact statusLegal_zero, hk⟩

theorem step_keepsRest {s t : State} (h : step s = .next t) : KeepsRest s t := by
  rcases step_cases h with ⟨-, i, -, he⟩ | ⟨-, e, -, rfl⟩ | ⟨-, -, rfl⟩ | ⟨-, mv, rest, -, hm⟩
  · exact exec_keepsRest he
  · exact ⟨rfl, rfl, fun _ => statusLegal_statusError (by decide), fun _ h => .inl h⟩
  · exact ⟨rfl, rfl, id, fun _ h => .inl h⟩
  · obtain ⟨hcfg, hn, hst, hkeys⟩ := hostMove_keepsRest hm
    exact ⟨hcfg, hn, hst, hkeys⟩

/-- Settles O54: R22 is `SlotKeptOrMade.wf`, the rest `step_keepsRest`. -/
theorem stepKeepsInv : Obligations.StepKeepsInv := by
  intro s t hI h
  obtain ⟨hcfg, hn, hst, hkeys⟩ := step_keepsRest h
  refine ⟨hcfg ▸ hI.cfgRange, hn ▸ hI.slotCount, ?_, hst hI.status, fun key hk => ?_⟩
  · rintro o ho f rfl
    obtain ⟨a, ha⟩ := State.mem_slots_iff.mp ho
    exact hcfg ▸ (step_slotKeptOrMade h a).wf hI ha
  · rw [hcfg]
    exact (hkeys key hk).elim (hI.keyFits key) id

/-- Settles O53: every slot is empty, `STATUS` is 0, no KEY buffer is pending. -/
theorem resetIsLegal : Obligations.ResetIsLegal := by
  refine ⟨⟨by decide, by decide, ?_, statusLegal_zero, ?_⟩, fun a f hf => ?_⟩
  · rintro o ho f rfl
    cases List.eq_of_mem_replicate ho
  · rintro key ⟨⟩
  · cases (State.resetOf_slot _ _ a).symm.trans hf

end Sys2Proof.Machine
end

section
/-! PROOFS. The stream of an accumulator through a step (spec/10_state.md R28). -/

namespace Sys2Proof.Machine

theorem Succeeded.unique {i i' : Instr} {s t : State} (h : Succeeded i s t) (h' : Succeeded i' s t) : i = i' := by
  obtain ⟨-, hd, -⟩ := h
  obtain ⟨-, hd', -⟩ := h'
  exact Except.ok.inj (hd.symm.trans hd')

/-- A slot after a step: a command that succeeded has written it, or none has and it is as it was or has been emptied
(by the hardware reset). -/
theorem step_slot_written {s t : State} (h : step s = .next t) (a : Nat) :
    (∃ i, Succeeded i s t ∧ Wrote s a i (s.slot a) (t.slot a)) ∨
    ((∀ i, Succeeded i s t → writtenSlot i ≠ some a) ∧ (t.slot a = s.slot a ∨ t.slot a = none)) := by
  have host (hc : s.coreTurn = false) : ∀ i, Succeeded i s t → writtenSlot i ≠ some a := by
    rintro i ⟨hc', -⟩
    rw [hc] at hc'
    cases hc'
  rcases step_cases h with ⟨hc, i, hd, he⟩ | ⟨-, e, hd, rfl⟩ | ⟨hc, -, rfl⟩ | ⟨hc, mv, rest, -, hm⟩
  · by_cases hw : t.regs.status = 0 ∧ writtenSlot i = some a
    · obtain ⟨ht, hi⟩ := hw
      exact .inl ⟨i, ⟨hc, hd, ht⟩, exec_wrote he ht hi⟩
    · refine .inr ⟨fun i' hs hi => hw ?_, .inl (exec_slot_kept he hw)⟩
      obtain ⟨-, hd', ht⟩ := hs
      cases hd.symm.trans hd'
      exact ⟨ht, hi⟩
  · refine .inr ⟨?_, .inl rfl⟩
    rintro i ⟨-, hd', -⟩
    cases hd.symm.trans hd'
  · exact .inr ⟨host hc, .inl rfl⟩
  · obtain ⟨-, -, -, ⟨hs, -⟩ | ⟨-, hs, -⟩⟩ := hostMove_cases hm
    · exact .inr ⟨host hc, .inl (State.slot_congr hs a)⟩
    · exact .inr ⟨host hc, .inr (State.slot_of_replicate hs a)⟩

/-- R180: the accumulators of a new filter are open and reset. -/
theorem Filter.construct_acc_fresh {mm kk : Nat} {bits : List Bool} {j : Nat} {y : Acc}
    (h : (Filter.construct mm kk bits).acc[j]? = some y) : y = Acc.fresh j := by
  have hj : j < kk := by simpa [Filter.construct] using (List.getElem?_eq_some_iff.mp h).1
  rw [Filter.construct_acc_getElem mm kk bits hj] at h
  exact (Option.some.inj h).symm

theorem Wrote.acc_of_empty {s : State} {a j : Nat} {i : Instr} {g : Filter} {y : Acc}
    (h : Wrote s a i none (some g)) (hy : g.acc[j]? = some y) : y = Acc.fresh j := by
  cases h with
  | new => exact Filter.construct_acc_fresh hy
  | deserialize => exact Filter.construct_acc_fresh hy

/-- Accumulator `j` after accumulator `n` has been replaced. -/
theorem acc_of_set {acc : List Acc} {n j : Nat} {b x y : Acc} (hx : acc[j]? = some x)
    (hy : (acc.set n b)[j]? = some y) : (n = j ∧ y = b) ∨ (n ≠ j ∧ y = x) := by
  rw [List.getElem?_set] at hy
  split at hy
  · split at hy <;> cases hy
    exact .inl ⟨‹_›, rfl⟩
  · exact .inr ⟨‹_›, Option.some.inj (hy.symm.trans hx)⟩

/-- R27: no accumulator is open after all have been closed. -/
theorem run_of_map_close {acc : List Acc} {j : Nat} {y : Acc} (hy : (acc.map Acc.close)[j]? = some y) :
    y.run = none := by
  obtain ⟨x, -, rfl⟩ : ∃ x, acc[j]? = some x ∧ x.close = y := by simpa using hy
  rfl

/-- R160 to R162: an accumulator that is open after a command has written its slot has been reset or fed by that
command, or is as it was. -/
theorem Wrote.acc_of_open {s : State} {a j : Nat} {i : Instr} {f g : Filter} {x y : Acc}
    (h : Wrote s a i (some f) (some g)) (hx : f.acc[j]? = some x) (hy : g.acc[j]? = some y) (ho : y.run ≠ none) :
    (i = .hreset a ∧ s.opJ = j ∧ y = x.reset) ∨
    (i = .hfeed a ∧ s.opJ = j ∧ ∃ key later r, s.ports.keys = key :: later ∧ x.run = some r ∧
      y = { x with run := some (r.feed key) }) ∨
    (¬ ((i = .hreset a ∨ i = .hfeed a) ∧ s.opJ = j) ∧ y = x) := by
  cases h with
  | hreset hx' =>
    rcases acc_of_set hx hy with ⟨hj, rfl⟩ | ⟨hj, rfl⟩
    · cases hx'.symm.trans (hj ▸ hx)
      exact .inl ⟨rfl, hj, rfl⟩
    · exact .inr (.inr ⟨fun h => hj h.2, rfl⟩)
  | hfeed hk hx' hr =>
    rcases acc_of_set hx hy with ⟨hj, rfl⟩ | ⟨hj, rfl⟩
    · cases hx'.symm.trans (hj ▸ hx)
      exact .inr (.inl ⟨rfl, hj, _, _, _, hk, hr, rfl⟩)
    · exact .inr (.inr ⟨fun h => hj h.2, rfl⟩)
  | hfinal hx' =>
    rcases acc_of_set hx hy with ⟨-, rfl⟩ | ⟨-, rfl⟩
    · exact absurd rfl ho
    · exact .inr (.inr ⟨by simp, rfl⟩)
  | add => exact absurd (run_of_map_close hy) ho
  | contains => exact absurd (run_of_map_close hy) ho
  | union => exact .inr (.inr ⟨by simp, Option.some.inj (hy.symm.trans hx)⟩)

/-- Settles O55: by `step_slot_written` and `Wrote.acc_of_open`; a feed appends to the stream (`AccRun.feed_holds`). -/
theorem stepCarriesTheStream : Obligations.StepCarriesTheStream := by
  intro s t a j g y r hI h hg hy hr
  rcases step_slot_written h a with ⟨i, hi, hw⟩ | ⟨hn, ht⟩
  · rw [hg] at hw
    refine ⟨fun hs => ?_, fun f x hf hx => ?_⟩
    · rw [hs] at hw
      cases hw.acc_of_empty hy
      cases hr
      exact AccRun.start_holds _
    · rw [hf] at hw
      rcases hw.acc_of_open hx hy (by simp [hr]) with
        ⟨rfl, hj, rfl⟩ | ⟨rfl, hj, key, later, r', hk, hx', rfl⟩ | ⟨hne, rfl⟩
      · cases hr
        exact ⟨rfl, fun _ _ => AccRun.start_holds _, fun h _ => Instr.noConfusion (hi.unique h),
          fun h => (h ⟨.inl hi, hj⟩).elim⟩
      · cases hr
        exact ⟨rfl, fun h _ => Instr.noConfusion (hi.unique h),
          fun _ _ => ⟨key, later, r', hk, hx', fun T hT => AccRun.feed_holds hT key⟩,
          fun h => (h ⟨.inr hi, hj⟩).elim⟩
      · exact ⟨rfl, fun h hj => (hne ⟨.inl (hi.unique h), hj⟩).elim,
          fun h hj => (hne ⟨.inr (hi.unique h), hj⟩).elim, fun _ => hr⟩
  · have hts : s.slot a = some g := by
      rcases ht with ht | ht <;> rw [hg] at ht
      · exact ht.symm
      · cases ht
    refine ⟨fun hs => ?_, fun f x hf hx => ?_⟩
    · cases hs.symm.trans hts
    · cases hf.symm.trans hts
      cases hx.symm.trans hy
      exact ⟨rfl, fun h _ => (hn _ h rfl).elim, fun h _ => (hn _ h rfl).elim, fun _ => hr⟩

end Sys2Proof.Machine
end

section
/-! PROOFS. The registers through a command (spec/10_state.md R31, R33). -/

namespace Sys2Proof.Machine

theorem exec_sameOperands {i : Instr} {s t : State} (he : exec i s = .next t) : SameOperands s t := by
  rcases exec_next_cases he with ⟨-, rfl⟩ | ⟨-, st, r0, r1, r2, s1, rfl, hw, -⟩
  · exact ⟨rfl, rfl, rfl, rfl, rfl⟩
  · constructor <;> simp [hw.regs]

theorem exec_sameOutside {i : Instr} {s t : State} (he : exec i s = .next t) : SameOutside s t := by
  rcases exec_next_cases he with ⟨-, rfl⟩ | ⟨-, st, r0, r1, r2, s1, rfl, hw, -⟩
  · exact ⟨rfl, rfl, rfl, rfl⟩
  · exact ⟨hw.cfg, hw.host, hw.lastRead, hw.draws⟩

/-- A command that ends without an error has ended with the status of R250. -/
theorem status_of_no_error {i : Instr} {s t : State} (he : exec i s = .next t) (hb : ¬ PortBlocked i s)
    (h : statusErr t.regs.status = false) : t.regs.status = 0 := by
  rcases exec_next_cases he with ⟨hb', -⟩ | ⟨-, st, r0, r1, r2, s1, rfl, -, -, hst⟩
  · exact absurd hb' hb
  · rcases hst with hst | ⟨e, info, -, rfl⟩
    · exact hst
    · cases (statusErr_statusError e info).symm.trans h

/-- R65: a read of the source waits exactly when it is short and may still grow. -/
theorem State.srcWaits_iff {s : State} {n : Nat} :
    s.srcWaits n = true ↔ s.ports.src.length < n ∧ s.ports.srcEnded = false := by
  rw [State.srcWaits, Bool.and_eq_true, decide_eq_true_iff, Bool.not_eq_true']

/-! The operand checks of a command read no result of an earlier one. -/

section
variable {s : State} {st r0 r1 r2 : Word}

theorem withKey_complete {go : List Byte → State → Result} (hk : s.ports.keys ≠ [])
    (h : ∀ key, go key (s.complete st r0 r1 r2).takeKey = go key s.takeKey) :
    withKey (s.complete st r0 r1 r2) go = withKey s go := by
  obtain ⟨key, rest, hk⟩ := List.exists_cons_of_ne_nil hk
  rw [withKey_of_key hk, withKey_of_key (s := s.complete st r0 r1 r2) hk, h]

theorem withFilter_complete {sa : Nat} {go go' : Filter → Result} (h : ∀ f, s.slot sa = some f → go' f = go f) :
    withFilter sa (s.complete st r0 r1 r2) go' = withFilter sa s go := by
  rcases withFilter_cases sa s go with ⟨hl, e⟩ | ⟨hl, hf, e⟩ | ⟨f, hf, e⟩ <;> rw [e]
  · exact withFilter_of_range (s := s.complete st r0 r1 r2) hl go'
  · exact withFilter_of_empty (s := s.complete st r0 r1 r2) hl hf go'
  · exact (withFilter_of_slot (s := s.complete st r0 r1 r2) hf go').trans (h f hf)

theorem withEmpty_complete {sa : Nat} {go go' : Result} (h : sa < s.nslots → s.slot sa = none → go' = go) :
    withEmpty sa (s.complete st r0 r1 r2) go' = withEmpty sa s go := by
  rcases withEmpty_cases sa s go with ⟨hl, e⟩ | ⟨f, hf, e⟩ | ⟨hl, hf, e⟩ <;> rw [e]
  · exact withEmpty_of_range (s := s.complete st r0 r1 r2) hl go'
  · exact withEmpty_of_slot (s := s.complete st r0 r1 r2) hf go'
  · exact (withEmpty_of_empty (s := s.complete st r0 r1 r2) hl hf go').trans (h hl hf)

/-- A command that finds its port ready. -/
theorem ite_waitPort {c : Prop} [Decidable c] (hc : ¬ c) {s' : State} {x y : Result} (h : x = y) :
    (if c then waitPort s' else x) = if c then waitPort s else y := by
  rw [if_neg hc, if_neg hc, h]

end

/-- R31: a command that does not wait reads neither `STATUS` nor a result register: what it ends in is the same whatever
an earlier command has left in them. -/
theorem exec_complete {i : Instr} {s : State} (hb : ¬ PortBlocked i s) (st r0 r1 r2 : Word) :
    exec i (s.complete st r0 r1 r2) = exec i s := by
  cases i with
  | bitcount => rfl
  | hashcount => rfl
  | hreset sa => rfl
  | hfeed sa =>
    rw [exec, exec]
    exact withKey_complete hb fun _ => rfl
  | hfinal sa => rfl
  | new sa => rfl
  | drop sa => rfl
  | add sa =>
    rw [exec, exec]
    exact withKey_complete hb fun _ => rfl
  | contains sa =>
    rw [exec, exec]
    exact withKey_complete hb fun _ => rfl
  | serialize sa => exact withFilter_complete fun f hf => ite_waitPort (fun h => hb ⟨⟨f, hf⟩, h⟩) rfl
  | deserialize sa =>
    refine withEmpty_complete fun hl hf => ite_waitPort (fun h => hb ?_) ?_
    · obtain ⟨h8, he⟩ := State.srcWaits_iff.mp h
      exact ⟨hl, hf, he, .inl h8⟩
    · refine ite_congr rfl (fun _ => rfl) fun h8 => ite_congr rfl (fun _ => rfl) fun ho =>
        ite_waitPort (fun h => hb ?_) rfl
      obtain ⟨hb, he⟩ := State.srcWaits_iff.mp h
      have hlen : (s.ports.src.drop 8).length < cdiv8 (headerM (s.ports.src.take 8)) := hb
      rw [List.length_drop] at hlen
      exact ⟨hl, hf, he, .inr ⟨Bool.eq_true_of_not_eq_false ho, by omega⟩⟩
  | union sa sb => rfl

/-- R31: the result registers that the rule of a command does not name are 0. -/
def UnnamedResultsZero (g : HostRegs) : Instr → Prop
  | .bitcount => g.res0 = 0 ∧ g.res2 = 0
  | .hashcount => g.res0 = 0 ∧ g.res1 = 0
  | .hfinal _ => g.res1 = 0 ∧ g.res2 = 0
  | .new _ => g.res0 = 0
  | .contains _ => g.res1 = 0 ∧ g.res2 = 0
  | .serialize _ => True
  | .deserialize _ => True
  | _ => g.res0 = 0 ∧ g.res1 = 0 ∧ g.res2 = 0

theorem results_of_succeed {r0 r1 r2 : Word} {s t : State} (h : succeed r0 r1 r2 s = .next t) :
    t.regs.res0 = r0 ∧ t.regs.res1 = r1 ∧ t.regs.res2 = r2 := by
  cases h
  exact ⟨rfl, rfl, rfl⟩

theorem exec_unnamedResultsZero {i : Instr} {s t : State} (he : exec i s = .next t) (ht : t.regs.status = 0) :
    UnnamedResultsZero t.regs i := by
  have ok {e : ErrKind} {info n : Nat} {s1 : State} (h : exec i s = raise e info n s1) : False :=
    raise_ne_of_ok ht (h.symm.trans he)
  cases i with
  | bitcount =>
    rcases execBitcount_cases s with ⟨-, e⟩ | ⟨-, -, -, e⟩ | ⟨-, -, -, e⟩
    · exact (ok e).elim
    · exact (ok e).elim
    · obtain ⟨h0, -, h2⟩ := results_of_succeed (e.symm.trans he)
      exact ⟨h0, h2⟩
  | hashcount =>
    rcases execHashcount_cases s with ⟨-, e⟩ | ⟨-, -, e⟩ | ⟨-, -, e⟩
    · exact (ok e).elim
    · exact (ok e).elim
    · obtain ⟨h0, h1, -⟩ := results_of_succeed (e.symm.trans he)
      exact ⟨h0, h1⟩
  | hreset sa =>
    obtain ⟨f, x, -, -, h⟩ := withAcc_ok ht he
    exact results_of_succeed h
  | hfeed sa =>
    rw [exec, execHfeed] at he
    obtain ⟨key, rest, -, h⟩ := withKey_ok ht he
    obtain ⟨f, x, r, -, -, -, h⟩ := withOpenAcc_ok ht h
    exact results_of_succeed h
  | hfinal sa =>
    obtain ⟨f, x, r, -, -, -, h⟩ := withOpenAcc_ok ht he
    exact (results_of_succeed h).2
  | new sa =>
    rcases execNew_cases sa s with ⟨-, e⟩ | ⟨f, -, e⟩ |
      ⟨-, -, ⟨-, e⟩ | ⟨-, -, ⟨-, e⟩ | ⟨-, -, ⟨-, e⟩ | ⟨-, e⟩⟩⟩⟩
    · exact (ok e).elim
    · exact (ok e).elim
    · exact (ok e).elim
    · exact (ok e).elim
    · exact (ok e).elim
    · exact (results_of_succeed (e.symm.trans he)).1
  | drop sa =>
    rcases execDrop_cases sa s with ⟨-, e⟩ | ⟨-, e⟩
    · exact (ok e).elim
    · exact results_of_succeed (e.symm.trans he)
  | add sa =>
    rw [exec, execAdd] at he
    obtain ⟨key, rest, -, h⟩ := withKey_ok ht he
    obtain ⟨f, -, h⟩ := withFilter_ok ht h
    exact results_of_succeed h
  | contains sa =>
    rw [exec, execContains] at he
    obtain ⟨key, rest, -, h⟩ := withKey_ok ht he
    obtain ⟨f, -, h⟩ := withFilter_ok ht h
    exact (results_of_succeed h).2
  | serialize sa => trivial
  | deserialize sa => trivial
  | union sa sb =>
    rcases execUnion_cases sa sb s with ⟨-, e⟩ | ⟨-, -, -, e⟩ | ⟨f, g, -, -, ⟨-, e⟩ | ⟨-, -, e⟩⟩
    · exact (ok e).elim
    · exact (ok e).elim
    · exact (ok e).elim
    · exact results_of_succeed (e.symm.trans he)

/-- Settles O19: the frame is `exec_sameOperands` and `exec_sameOutside`, the independence `exec_complete`, the zeros
`exec_unnamedResultsZero`. -/
theorem commandsKeepOperandsAndWriteResults : Obligations.CommandsKeepOperandsAndWriteResults := by
  intro i s t he
  refine ⟨exec_sameOperands he, exec_sameOutside he, fun hb st r0 r1 r2 => (exec_complete hb st r0 r1 r2).trans he,
    fun hb h => ?_⟩
  have hz := exec_unnamedResultsZero he (status_of_no_error he hb h)
  cases i <;> exact hz

end Sys2Proof.Machine
end
section
/-! PROOFS. The turns of the core and of the host (spec/10_state.md R30, R33). -/

namespace Sys2Proof.Machine

/-! The encoding of a command decodes to it (R90 to R93). -/

/-- The commands with these slot fields. -/
def commandsOn (sa sb : Nat) : List Instr :=
  [.bitcount, .hashcount, .hreset sa, .hfeed sa, .hfinal sa, .new sa, .drop sa, .add sa, .contains sa, .serialize sa,
    .deserialize sa, .union sa sb]

theorem decode_encode_commandsOn :
    ∀ sa sb : Fin 16, ∀ i ∈ commandsOn sa sb, decode (encode i) = .ok i := by decide +kernel

/-- R94: a well-formed command is one of those with slot fields below 16. -/
theorem mem_commandsOn_of_wf {i : Instr} (h : i.wf = true) : ∃ sa sb : Fin 16, i ∈ commandsOn sa sb := by
  have field {a : Nat} (h : slotFieldOk a = true) : ∃ n : Fin 16, a = n := ⟨⟨a, of_decide_eq_true h⟩, rfl⟩
  cases i with
  | bitcount => exact ⟨0, 0, by simp [commandsOn]⟩
  | hashcount => exact ⟨0, 0, by simp [commandsOn]⟩
  | union sa sb =>
    obtain ⟨ha, hb⟩ := Bool.and_eq_true_iff.mp h
    obtain ⟨⟨na, rfl⟩, ⟨nb, rfl⟩⟩ := And.intro (field ha) (field hb)
    exact ⟨na, nb, by simp [commandsOn]⟩
  | _ sa =>
    obtain ⟨n, rfl⟩ := field h
    exact ⟨n, 0, by simp [commandsOn]⟩

theorem decode_encode {i : Instr} (h : i.wf = true) : decode (encode i) = .ok i := by
  obtain ⟨sa, sb, hi⟩ := mem_commandsOn_of_wf h
  exact decode_encode_commandsOn sa sb i hi

/-! Whose turn it is, and what it does. -/

theorem State.coreTurn_of_await {s : State} {rest : List HostMove} (hb : s.busy = true) (hh : s.host = .await :: rest) :
    s.coreTurn = true := by
  rw [State.coreTurn, hb, hh]
  rfl

theorem step_eq_exec {s : State} {i : Instr} (hc : s.coreTurn = true) (hd : decode s.regs.cmd = .ok i) :
    step s = exec i s := by
  rw [step, if_pos hc, issue, hd]

/-- R255. -/
theorem step_eq_illegal {s : State} {e : Illegal} (hc : s.coreTurn = true) (hd : decode s.regs.cmd = .error e) :
    step s = .next (s.complete (statusError .illegal 0) 0 0 0) := by
  rw [step, if_pos hc, issue, hd]
  rfl

/-- The state after the host has written `w` to `r` and has `rest` left to do. -/
def State.afterWrite (s : State) (r : HostReg) (w : Word) (rest : List HostMove) : State :=
  { s with host := rest, regs := s.regs.hostSet r w }

/-- R30, R300: a write that the host has listed is made before the command in flight runs; one to a read-only register
is always allowed, and any while no command is in flight. -/
theorem step_eq_afterWrite {s : State} {r : HostReg} {w : Word} {rest : List HostMove}
    (hh : s.host = .write r w :: rest) (h : s.busy = false ∨ r.writable = false) :
    step s = .next (s.afterWrite r w rest) := by
  have hc : s.coreTurn = false := by rw [State.coreTurn, hh, Bool.and_false]
  have hw : ¬ (s.busy && r.writable) = true := by rcases h with h | h <;> simp [h]
  rw [step, hc, if_neg Bool.noConfusion, hostTurn, hh]
  exact if_neg hw

/-- Settles O6: the step is the core's (`step_eq_exec`), and the word written decodes to its command
(`decode_encode`). -/
theorem stepRunsTheDecodedCommand : Obligations.StepRunsTheDecodedCommand := by
  refine ⟨fun s i => step_eq_exec, fun s i hi => step_eq_exec ?_ ?_⟩
  · exact State.coreTurn_of_await (statusBusy_setBusy _) rfl
  · have hw : BitVec.ofNat 32 ((encode i).toNat % 2 ^ 32) = encode i := by
      rw [Nat.mod_eq_of_lt (encode i).isLt, BitVec.ofNat_toNat, BitVec.setWidth_eq]
    show decode (BitVec.ofNat 32 ((encode i).toNat % 2 ^ 32)) = .ok i
    rw [hw, decode_encode hi]

/-- Settles O8: the host's write is made (`step_eq_afterWrite`), and the step after it is the core's. -/
theorem writeToCmdIssuesACommand : Obligations.WriteToCmdIssuesACommand := by
  intro s w rest hb hh
  obtain ⟨hbusy, herr, hecode, heinfo⟩ := statusSetBusy_fields s.regs.status
  have hc : (s.afterWrite .cmd w (.await :: rest)).coreTurn = true := State.coreTurn_of_await hbusy rfl
  refine ⟨_, step_eq_afterWrite hh (.inl hb), rfl, hbusy, herr, hecode, heinfo,
    rfl, rfl, rfl, rfl, rfl, rfl, rfl, rfl, rfl, rfl, rfl, fun i hi hw => ?_, fun e he => ?_⟩
  · exact step_eq_exec hc (hw ▸ decode_encode hi)
  · exact ⟨_, step_eq_illegal hc he,
      ⟨(by decide : statusError .illegal 0 = 0x012), rfl, rfl, rfl⟩, rfl, rfl,
      ⟨rfl, rfl, rfl, rfl, rfl⟩, ⟨rfl, rfl, rfl, rfl⟩⟩

/-- R30: a host write to a read-only register changes no register. -/
theorem HostRegs.hostSet_of_readOnly {r : HostReg} (h : r.writable = false) (g : HostRegs) (w : Word) :
    g.hostSet r w = g := by
  cases r with
  | status => rfl
  | res0 => rfl
  | res1 => rfl
  | res2 => rfl
  | _ => cases h

/-- R30, R31: a host write to an operand register changes that register alone. -/
theorem HostRegs.get_hostSet_arg {r : HostReg} (h : r = .arg0 ∨ r = .arg1 ∨ r = .arg2 ∨ r = .arg3) (g : HostRegs)
    (w : Word) (q : HostReg) : (g.hostSet r w).get q = if q = r then w else g.get q := by
  rcases h with rfl | rfl | rfl | rfl <;> cases q <;> rfl

/-- Settles O9: by `step_eq_afterWrite` and what `hostSet` does to the registers. -/
theorem hostWritesRespectAccess : Obligations.HostWritesRespectAccess := by
  intro s r w rest hh
  refine ⟨fun hr => ?_, fun hr hb => ?_⟩
  · have hro : r.writable = false := by rcases hr with rfl | rfl | rfl | rfl <;> rfl
    rw [step_eq_afterWrite hh (.inr hro), State.afterWrite, HostRegs.hostSet_of_readOnly hro]
  · exact ⟨_, step_eq_afterWrite hh (.inl hb), HostRegs.get_hostSet_arg hr s.regs w, rfl⟩

/-- Settles O15: by evaluation; no slot of a reset core holds a filter (`State.resetOf_slot`). -/
theorem resetValues : Obligations.ResetValues :=
  ⟨State.resetOf_slot _ _, rfl, rfl, rfl, rfl, rfl, rfl, rfl, rfl, rfl, by decide, rfl⟩

end Sys2Proof.Machine
end

section
/-! PROOFS. The slots that a command does not name, and the moves of the host at the registers and ports
(spec/20_memory.md R64 to R66, R74, R83). -/

namespace Sys2Proof.Machine

/-- R83: the two operands of a UNION may be one slot; their shapes then agree. -/
theorem exec_union_self {s : State} {sa : Nat} {f : Filter} (hf : s.slot sa = some f) :
    exec (.union sa sa) s = succeed 0 0 0 (s.setSlot sa (some { f with bits := orBits f.bits f.bits })) := by
  have hl : ¬ (s.nslots ≤ sa ∨ s.nslots ≤ sa) := by simpa using State.slot_lt hf
  rw [exec, execUnion, if_neg hl, hf]
  exact if_neg (by simp)

/-- Settles O20: a slot that changes is the `writtenSlot` of the command (`exec_slot_kept`), which is no other than the
one its `SA` names. -/
theorem onlyTheNamedSlotChanges : Obligations.OnlyTheNamedSlotChanges := by
  refine ⟨fun i s t he => ⟨(exec_keepsRest he).nslots, fun b hb => exec_slot_kept he fun ⟨_, hi⟩ => ?_⟩,
    fun s sa f hf => ?_⟩
  · cases i with
    | bitcount => cases hi
    | hashcount => cases hi
    | serialize sa => cases hi
    | union sa sb => exact hb (Option.some.inj hi).symm
    | _ sa => exact hb (Option.some.inj hi).symm
  · exact ⟨_, exec_union_self hf, statusOk_eq_zero⟩

/-! The host's turn. -/

/-- A move that the host has listed is made before the command in flight runs, unless it is to wait for that. -/
theorem step_eq_hostMove {s : State} {mv : HostMove} {rest : List HostMove} (hh : s.host = mv :: rest)
    (hmv : mv ≠ .await) : step s = hostMove mv { s with host := rest } := by
  have hc : s.coreTurn = false := by
    rw [State.coreTurn, hh]
    cases mv with
    | await => exact absurd rfl hmv
    | _ => exact Bool.and_false _
  rw [step, hc, if_neg Bool.noConfusion, hostTurn, hh]

/-- R74, R300: a read never fails; all it changes is on the host's side, and it is free only for a `RES` register while
`BUSY = 1`. -/
theorem hostRead_spec (r : HostReg) (s : State) : ∃ w d, hostRead r s = .next { s with lastRead := w, draws := d } ∧
    (s.busy = false ∨ r.isResult = false → w = s.regs.get r) := by
  by_cases hf : (s.busy && r.isResult) = true
  · refine ⟨_, _, if_pos hf, fun h => ?_⟩
    rcases h with h | h <;> simp [h] at hf
  · exact ⟨_, _, if_neg hf, fun _ => rfl⟩

/-- Settles O10: by `hostRead_spec`; the registers named in the statement are those that are no `RES` register. -/
theorem hostReadsHaveNoSideEffect : Obligations.HostReadsHaveNoSideEffect := by
  intro s r rest hh
  obtain ⟨w, d, e, hw⟩ := hostRead_spec r { s with host := rest }
  refine ⟨_, (step_eq_hostMove hh HostMove.noConfusion).trans e, rfl, rfl, rfl, rfl, rfl, fun h => hw ?_⟩
  exact h.imp_right fun hr => by rcases hr with rfl | rfl | rfl | rfl | rfl | rfl <;> rfl

theorem State.wantsKey_of_takesKey {s : State} {i : Instr} (hk : s.ports.keys = []) (hd : decode s.regs.cmd = .ok i)
    (hi : takesKey i = true) : s.wantsKey = true := by
  rw [State.wantsKey, hd, hk]
  exact Bool.and_eq_true_iff.mpr ⟨hi, rfl⟩

/-- R64, R302: when the host may present a KEY buffer, only its length decides. -/
theorem hostPresent_of_allowed {s : State} (h : s.busy = false ∨ s.wantsKey = true) (key : List Byte) :
    hostPresent key s = if s.cfg.keyMax < key.length then .refused .keyTooLong
      else .next { s with ports := { s.ports with keys := s.ports.keys ++ [key] } } :=
  if_neg (by rcases h with h | h <;> simp [h])

/-- Settles O12: each is the host's turn (`step_eq_hostMove`); for a KEY buffer, `hostPresent_of_allowed` splits at
`KEY_MAX`. -/
theorem portMovesReachThePorts : Obligations.PortMovesReachThePorts := by
  refine fun s rest => ⟨fun key hh h => ?_, fun bytes ended hh => step_eq_hostMove hh HostMove.noConfusion,
    fun accept ready hh => step_eq_hostMove hh HostMove.noConfusion⟩
  have allowed : s.busy = false ∨ s.wantsKey = true :=
    h.imp_right fun ⟨hk, i, hd, hi⟩ => State.wantsKey_of_takesKey hk hd hi
  have e := (step_eq_hostMove hh HostMove.noConfusion).trans
    (hostPresent_of_allowed (s := { s with host := rest }) allowed key)
  exact ⟨fun hl => e.trans (if_neg (Nat.not_lt.mpr hl)), fun hl => e.trans (if_pos hl)⟩

end Sys2Proof.Machine
end

section
/-! PROOFS. The command encoding (spec/30_encoding.md R90 to R93). -/

namespace Sys2Proof

open Machine

/-- Settles O2: `decode_encode` goes over the commands of each pair of slot fields. -/
theorem decodeOfEncode : Obligations.DecodeOfEncode := fun _ => decode_encode

/-- Settles O1: each word is decoded by evaluation. -/
theorem sampleWordsDecode : Obligations.SampleWordsDecode := by
  unfold Obligations.SampleWordsDecode
  decide +kernel

/-! The fields of a word (R90), and the bits that a format requires to be zero (R91). -/

theorem fieldOPC_eq (w : Word) : fieldOPC w = w.toNat % 256 := by
  simp [fieldOPC, BitVec.extractLsb'_toNat]

theorem fieldSA_eq (w : Word) : fieldSA w = w.toNat / 256 % 16 := by
  simp [fieldSA, BitVec.extractLsb'_toNat, Nat.shiftRight_eq_div_pow]

theorem fieldSB_eq (w : Word) : fieldSB w = w.toNat / 4096 % 16 := by
  simp [fieldSB, BitVec.extractLsb'_toNat, Nat.shiftRight_eq_div_pow]

/-- R90: below bit 16 a word is its three fields. -/
theorem toNat_eq_fields {w : Word} (h : w.toNat < 2 ^ 16) :
    w.toNat = fieldOPC w + 256 * fieldSA w + 4096 * fieldSB w := by
  rw [fieldOPC_eq, fieldSA_eq, fieldSB_eq]
  omega

/-- R91: how many low bits of a word a format uses; the ones above must be zero. -/
def Format.width : Format → Nat
  | .f0 => 8
  | .f1 => 12
  | .f2 => 16

theorem Format.width_bounds (fmt : Format) : 8 ≤ fmt.width ∧ fmt.width ≤ 16 := by
  cases fmt <;> decide

/-- R91: a format fixes the bits of `OPC` and those above the fields it uses. -/
theorem Format.getLsbD_mask (fmt : Format) : ∀ i < 32,
    fmt.mask.getLsbD i = (decide (i < 8) || decide (fmt.width ≤ i)) := by
  cases fmt <;> decide

/-- R91: the fixed bits of a word are those of its opcode exactly when no must-be-zero bit is 1. -/
theorem and_mask_eq_iff (w : Word) (fmt : Format) :
    w &&& fmt.mask = BitVec.ofNat 32 (fieldOPC w) ↔ w.toNat < 2 ^ fmt.width := by
  have opc (i : Nat) (hi : i < 32) : (BitVec.ofNat 32 (fieldOPC w)).getLsbD i = (decide (i < 8) && w.getLsbD i) := by
    rw [BitVec.getLsbD_ofNat, fieldOPC_eq, decide_eq_true hi, Bool.true_and]
    exact Nat.testBit_mod_two_pow w.toNat 8 i
  constructor
  · intro h
    refine Nat.lt_pow_two_of_testBit _ fun i hi => ?_
    by_cases h32 : i < 32
    · have h8 : ¬ i < 8 := Nat.not_lt.mpr (fmt.width_bounds.1.trans hi)
      have hb := congrArg (·.getLsbD i) h
      simpa [opc i h32, fmt.getLsbD_mask i h32, h8, hi, BitVec.testBit_toNat] using hb
    · exact BitVec.getLsbD_of_ge w i (Nat.le_of_not_lt h32)
  · intro h
    refine BitVec.eq_of_getLsbD_eq fun i h32 => ?_
    rw [BitVec.getLsbD_and, fmt.getLsbD_mask i h32, opc i h32]
    by_cases hi : fmt.width ≤ i
    · have hz : w.getLsbD i = false :=
        Nat.testBit_lt_two_pow (h.trans_le (Nat.pow_le_pow_right (by decide) hi))
      rw [hz, Bool.false_and, Bool.and_false]
    · rw [decide_eq_false hi, Bool.or_false, Bool.and_comm]

/-! What decoding a word can come to (R92, R93). -/

/-- R91: the row of a command matches the words of its opcode in which no must-be-zero bit is 1. -/
theorem matchRow_eq {w : Word} {i : Instr} (h : i.opcode = fieldOPC w) :
    matchRow i.format (BitVec.ofNat 32 i.opcode) w i =
      if w.toNat < 2 ^ i.format.width then .ok i else .error .mustBeZero := by
  simp only [matchRow, h, and_mask_eq_iff]

/-- R92, R93: no command has the opcode of the word, or the word is the one that has it, on the slot fields of the
word, unless a must-be-zero bit is 1. -/
theorem decode_cases (w : Word) :
    ((fieldOPC w = 0 ∨ 12 < fieldOPC w) ∧ decode w = .error .opcode) ∨
    ∃ i ∈ commandsOn (fieldSA w) (fieldSB w), i.opcode = fieldOPC w ∧
      decode w = if w.toNat < 2 ^ i.format.width then .ok i else .error .mustBeZero := by
  have row (i : Instr) (ho : fieldOPC w = i.opcode)
      (hi : i ∈ commandsOn (fieldSA w) (fieldSB w) := by simp [commandsOn]) :
      ∃ j ∈ commandsOn (fieldSA w) (fieldSB w), j.opcode = fieldOPC w ∧
        matchRow i.format (BitVec.ofNat 32 i.opcode) w i =
          if w.toNat < 2 ^ j.format.width then .ok j else .error .mustBeZero :=
    ⟨i, hi, ho.symm, matchRow_eq ho.symm⟩
  rw [decode]
  split
  case h_1 h => exact .inr (row .bitcount h)
  case h_2 h => exact .inr (row .hashcount h)
  case h_3 h => exact .inr (row (.hreset (fieldSA w)) h)
  case h_4 h => exact .inr (row (.hfeed (fieldSA w)) h)
  case h_5 h => exact .inr (row (.hfinal (fieldSA w)) h)
  case h_6 h => exact .inr (row (.new (fieldSA w)) h)
  case h_7 h => exact .inr (row (.drop (fieldSA w)) h)
  case h_8 h => exact .inr (row (.add (fieldSA w)) h)
  case h_9 h => exact .inr (row (.contains (fieldSA w)) h)
  case h_10 h => exact .inr (row (.serialize (fieldSA w)) h)
  case h_11 h => exact .inr (row (.deserialize (fieldSA w)) h)
  case h_12 h => exact .inr (row (.union (fieldSA w) (fieldSB w)) h)
  case h_13 h1 h2 h3 h4 h5 h6 h7 h8 h9 h10 h11 h12 =>
    simp only [imp_false] at h1 h2 h3 h4 h5 h6 h7 h8 h9 h10 h11 h12
    exact .inl ⟨by omega, rfl⟩

theorem opcode_bounds (i : Instr) : 1 ≤ i.opcode ∧ i.opcode ≤ 12 := by
  cases i <;> simp [Instr.opcode]

/-- R92: which opcodes are of which format. -/
theorem format_width (i : Instr) :
    i.format.width = if i.opcode ≤ 2 then 8 else if i.opcode ≤ 11 then 12 else 16 := by
  cases i <;> rfl

/-- R93: the words that are illegal, by their opcode and their size. -/
def IllegalBits (w : Nat) : Prop :=
  w % 256 = 0 ∨ 12 < w % 256 ∨ (w % 256 ≤ 2 ∧ 256 ≤ w) ∨ (w % 256 ≤ 11 ∧ 4096 ≤ w) ∨ 65536 ≤ w

/-- R93: with the opcode of a command, only a must-be-zero bit makes a word illegal. -/
theorem two_pow_width_le_iff {w : Word} {i : Instr} (h : i.opcode = fieldOPC w) :
    2 ^ i.format.width ≤ w.toNat ↔ IllegalBits w.toNat := by
  obtain ⟨h1, h12⟩ := opcode_bounds i
  rw [h, fieldOPC_eq] at h1 h12
  rw [format_width, h, fieldOPC_eq, IllegalBits]
  split
  · omega
  · split <;> omega

theorem decode_of_illegalBits {w : Word} (h : IllegalBits w.toNat) : ∃ e, decode w = .error e := by
  obtain ⟨-, hd⟩ | ⟨i, -, ho, hd⟩ := decode_cases w
  · exact ⟨_, hd⟩
  · exact ⟨_, hd.trans (if_neg (Nat.not_lt.mpr ((two_pow_width_le_iff ho).mpr h)))⟩

theorem decode_of_not_illegalBits {w : Word} (h : ¬ IllegalBits w.toNat) :
    ∃ i ∈ commandsOn (fieldSA w) (fieldSB w), i.opcode = fieldOPC w ∧ decode w = .ok i := by
  obtain ⟨ho, -⟩ | ⟨i, hi, ho, hd⟩ := decode_cases w
  · rw [fieldOPC_eq] at ho
    exact absurd (ho.imp_right .inl) h
  · exact ⟨i, hi, ho, hd.trans (if_pos (Nat.lt_of_not_le (mt (two_pow_width_le_iff ho).mp h)))⟩

/-- R92: no two commands on the same slot fields have one opcode. -/
theorem lookup_opcode_of_mem {sa sb : Nat} {i : Instr} (hi : i ∈ commandsOn sa sb) :
    ((commandsOn sa sb).map fun i => (i.opcode, i)).lookup i.opcode = some i := by
  fin_cases hi <;> rfl

/-- Settles O4: the illegal words are those of `IllegalBits`, and any other is the command of `commandsOn` that its
opcode finds. -/
theorem decodingFollowsTheOpcodeMap : Obligations.DecodingFollowsTheOpcodeMap := by
  intro w opc sa sb hopc hsa hsb
  subst hopc hsa hsb
  refine ⟨decode_of_illegalBits, fun h => ?_⟩
  obtain ⟨i, hi, ho, hd⟩ := decode_of_not_illegalBits h
  rw [← fieldOPC_eq, ← fieldSA_eq, ← fieldSB_eq, ← ho]
  exact ⟨i, hd, lookup_opcode_of_mem hi⟩

/-! A legal word is an encoding (R91, R93). -/

theorem decode_ok {w : Word} {i : Instr} (h : decode w = .ok i) :
    i ∈ commandsOn (fieldSA w) (fieldSB w) ∧ i.opcode = fieldOPC w ∧ w.toNat < 2 ^ i.format.width := by
  obtain ⟨-, hd⟩ | ⟨j, hj, ho, hd⟩ := decode_cases w
  · cases hd.symm.trans h
  · rw [h] at hd
    split at hd
    · rename_i hl
      cases hd
      exact ⟨hj, ho, hl⟩
    · cases hd

/-- R94: slot fields below 16 make a well-formed command. -/
theorem wf_of_mem_commandsOn {sa sb : Nat} (ha : sa < 16) (hb : sb < 16) {i : Instr} (hi : i ∈ commandsOn sa sb) :
    i.wf = true := by
  fin_cases hi <;> simp [Instr.wf, slotFieldOk, ha, hb]

/-- R91: a command has the slot fields of any word within its format: a field that the format does not use is 0. -/
theorem encode_eq_commandWord {sa sb : Nat} {i : Instr} (hi : i ∈ commandsOn sa sb)
    (hl : i.opcode + 256 * sa + 4096 * sb < 2 ^ i.format.width) : encode i = commandWord i.opcode sa sb := by
  have hsa (h : i.format.width ≤ 8) : sa = 0 := by
    have := hl.trans_le (Nat.pow_le_pow_right (by decide) h)
    omega
  have hsb (h : i.format.width ≤ 12) : sb = 0 := by
    have := hl.trans_le (Nat.pow_le_pow_right (by decide) h)
    omega
  clear hl
  fin_cases hi
  iterate 2
    · rw [hsa (Nat.le_refl 8), hsb (by decide : 8 ≤ 12)]
      rfl
  iterate 9
    · rw [hsb (Nat.le_refl 12)]
      rfl
  · rfl

/-- Settles O3: the word is its fields (`toNat_eq_fields`), and they are those of the encoding
(`encode_eq_commandWord`). -/
theorem legalWordsAreEncodings : Obligations.LegalWordsAreEncodings := by
  intro w i h
  obtain ⟨hi, ho, hl⟩ := decode_ok h
  have hw := toNat_eq_fields (hl.trans_le (Nat.pow_le_pow_right (by decide) i.format.width_bounds.2))
  refine ⟨wf_of_mem_commandsOn (BitVec.isLt _) (BitVec.isLt _) hi, ?_⟩
  rw [encode_eq_commandWord hi (by rwa [ho, ← hw]), commandWord, ho, ← hw, BitVec.ofNat_toNat, BitVec.setWidth_eq]

/-! How many legal opcodes and words there are (R93). -/

theorem exists_decode_ok_iff (w : Word) : (∃ i, decode w = .ok i) ↔ ¬ IllegalBits w.toNat := by
  refine ⟨fun ⟨i, h⟩ hn => ?_, fun h => ?_⟩
  · obtain ⟨e, he⟩ := decode_of_illegalBits hn
    cases he.symm.trans h
  · obtain ⟨i, -, -, hd⟩ := decode_of_not_illegalBits h
    exact ⟨i, hd⟩

/-- R91, R92: the words of the two commands without a slot field, of the nine with one, and of UNION, which has two. -/
def legalBits : Fin 2 ⊕ Fin 9 × Fin 16 ⊕ Fin 16 × Fin 16 → Nat
  | .inl c => 1 + c
  | .inr (.inl (c, sa)) => 3 + c + 256 * sa
  | .inr (.inr (sa, sb)) => 12 + 256 * sa + 4096 * sb

theorem legalBits_injective : Function.Injective legalBits := by
  rintro (a | ⟨a, b⟩ | ⟨a, b⟩) (c | ⟨c, d⟩ | ⟨c, d⟩) h <;> simp [legalBits, Fin.ext_iff] at h ⊢ <;> omega

theorem mem_range_legalBits_iff (w : Nat) : w ∈ Set.range legalBits ↔ ¬ IllegalBits w := by
  unfold IllegalBits
  constructor
  · rintro ⟨c | ⟨c, sa⟩ | ⟨sa, sb⟩, rfl⟩ <;> simp only [legalBits] <;> omega
  · intro h
    by_cases h2 : w % 256 ≤ 2
    · exact ⟨.inl ⟨w - 1, by omega⟩, by simp only [legalBits]; omega⟩
    by_cases h11 : w % 256 ≤ 11
    · exact ⟨.inr (.inl (⟨w % 256 - 3, by omega⟩, ⟨w / 256, by omega⟩)), by simp only [legalBits]; omega⟩
    · exact ⟨.inr (.inr (⟨w / 256 % 16, by omega⟩, ⟨w / 4096, by omega⟩)), by simp only [legalBits]; omega⟩

theorem legalWords_eq : { w : Word | ∃ i : Instr, decode w = .ok i } = BitVec.toNat ⁻¹' Set.range legalBits := by
  ext w
  exact (exists_decode_ok_iff w).trans (mem_range_legalBits_iff w.toNat).symm

theorem range_legalBits_subset : Set.range legalBits ⊆ Set.range (BitVec.toNat (w := 32)) := by
  intro w h
  rw [mem_range_legalBits_iff, IllegalBits] at h
  exact ⟨BitVec.ofNat 32 w, (BitVec.toNat_ofNat w 32).trans (Nat.mod_eq_of_lt (by omega))⟩

theorem legalOpcodes_eq :
    { o : Nat | ∃ (w : Word) (i : Instr), decode w = .ok i ∧ fieldOPC w = o } = Finset.Icc 1 12 := by
  ext o
  rw [Finset.mem_coe, Finset.mem_Icc]
  constructor
  · rintro ⟨w, i, hd, rfl⟩
    obtain ⟨-, ho, -⟩ := decode_ok hd
    exact ho ▸ opcode_bounds i
  · rintro ⟨h1, h12⟩
    have hw : (BitVec.ofNat 32 o).toNat = o := (BitVec.toNat_ofNat o 32).trans (Nat.mod_eq_of_lt (by omega))
    obtain ⟨i, hd⟩ := (exists_decode_ok_iff (BitVec.ofNat 32 o)).mpr (by rw [hw, IllegalBits]; omega)
    exact ⟨_, i, hd, by rw [fieldOPC_eq, hw]; omega⟩

/-- Settles O5: the opcodes are 1 to 12 (`legalOpcodes_eq`), and the words are in bijection with the
2 + 9 * 16 + 16 * 16 commands (`legalWords_eq`, `legalBits_injective`). -/
theorem fourHundredTwoLegalWords : Obligations.FourHundredTwoLegalWords := by
  constructor
  · rw [legalOpcodes_eq, Set.ncard_coe_finset, Nat.card_Icc]
  · rw [legalWords_eq,
      Set.ncard_preimage_of_injective_subset_range (fun _ _ => BitVec.eq_of_toNat_eq) range_legalBits_subset,
      Set.ncard_range_of_injective legalBits_injective]
    simp

end Sys2Proof
end

section
/-! PROOFS. The valid patterns of `p` (spec/30_encoding.md R98). -/

namespace Sys2Proof.Machine

/-- R98: a pattern with the sign bit has no positive value. -/
theorem pval_nonpos {P : DWord} {q : ℚ} (hP : 2 ^ 63 ≤ P.toNat) (hq : pval P = some q) : q ≤ 0 := by
  have hs : P.getLsbD 63 = true := (pattern_fields P).2.2.mpr hP
  unfold pval at hq
  simp only [hs, if_true] at hq
  split at hq
  · cases hq
  · split at hq <;> cases hq <;> rw [neg_one_mul, neg_mul] <;> exact neg_nonpos.mpr (by positivity)

/-- R98: a pattern of no sign bit and an exponent of at least 1023 has a value of at least 1. -/
theorem one_le_pval {P : DWord} {q : ℚ} (h1 : 0x3FF0000000000000 ≤ P.toNat) (h2 : P.toNat < 2 ^ 63)
    (hq : pval P = some q) : 1 ≤ q := by
  obtain ⟨he, -, hs⟩ := pattern_fields P
  have hs : P.getLsbD 63 = false := Bool.eq_false_of_not_eq_true (mt hs.mp (Nat.not_le.mpr h2))
  have he : 1023 ≤ expField P := by rw [he]; omega
  unfold pval at hq
  simp only [hs, Bool.false_eq_true, if_false, one_mul, if_neg (show expField P ≠ 0 by omega)] at hq
  split at hq
  · cases hq
  · cases hq
    have hf : (0 : ℚ) ≤ fracField P / 2 ^ 52 := by positivity
    exact one_le_mul_of_one_le_of_one_le (one_le_zpow₀ (by norm_num) (by omega)) (by linarith)

/-- R98: the value of a valid pattern, by `pMant_bounds`. -/
theorem exists_pval_of_valid {P : DWord} (h1 : 1 ≤ P.toNat) (h2 : P.toNat ≤ 0x3FEFFFFFFFFFFFFF) :
    ∃ q : ℚ, pval P = some q ∧ 0 < q ∧ q < 1 := by
  obtain ⟨hpos, hlt⟩ := pMant_bounds h1 h2
  have hm : (0 : ℚ) < pMant P := by exact_mod_cast hpos
  have he : expField P ≤ 1075 := by
    rw [(pattern_fields P).1]
    omega
  refine ⟨_, pval_eq (by omega) he, by positivity, ?_⟩
  rw [div_lt_one (by positivity)]
  exact_mod_cast hlt

theorem pval_zero : pval 0#64 = some 0 := by
  have he : expField 0#64 = 0 := rfl
  have hf : fracField 0#64 = 0 := rfl
  simp [pval, he, hf]

/-- Settles O21: a valid pattern has such a value (`exists_pval_of_valid`); the pattern 0 has the value 0, one above
the range a value of at least 1 (`one_le_pval`), one with the sign bit none above 0 (`pval_nonpos`). -/
theorem validPatternsAreTheOpenUnitInterval : Obligations.ValidPatternsAreTheOpenUnitInterval := by
  refine fun P => ⟨fun ⟨h1, h2⟩ => exists_pval_of_valid h1 h2, fun ⟨q, hq, h0, h1⟩ => ⟨?_, ?_⟩⟩
  · refine Nat.pos_of_ne_zero fun hz => ?_
    rw [BitVec.eq_of_toNat_eq (y := 0#64) hz, pval_zero] at hq
    cases hq
    exact lt_irrefl 0 h0
  · have hs : P.toNat < 2 ^ 63 := Nat.lt_of_not_le fun h => absurd (pval_nonpos h hq) (not_le.mpr h0)
    have he : P.toNat < 0x3FF0000000000000 := Nat.lt_of_not_le fun h => absurd (one_le_pval h hs hq) (not_le.mpr h1)
    omega

end Sys2Proof.Machine
end

section
/-! PROOFS. Wire format WF1: packing and unpacking (spec/30_encoding.md R111 to R115). -/

namespace Sys2Proof.Machine

/-- R112: the weights `2^(7-j)` put bit `j` of eight in place `7 - j`. -/
theorem sum_msbFirst (c : Nat → Bool) :
    ((List.range 8).map fun j => (c j).toNat * 2 ^ (7 - j)).sum = Nat.ofBits fun t : Fin 8 => c (7 - t) := by
  simp [List.range_succ, Nat.ofBits_succ, Function.comp_def]
  ring

/-- R112, R113: bit `8b + j` of the array, in place `7 - j` of body byte `b`. -/
theorem bodyByte_getLsbD (m : Nat) (bits : List Bool) (b : Nat) {j : Nat} (hj : j < 8) :
    (bodyByte m bits b).getLsbD (7 - j) = (decide (8 * b + j < m) && bitRead bits (8 * b + j)) := by
  have term (j : Nat) : (if 8 * b + j < m then (bitRead bits (8 * b + j)).toNat * 2 ^ (7 - j) else 0) =
      (decide (8 * b + j < m) && bitRead bits (8 * b + j)).toNat * 2 ^ (7 - j) := by
    by_cases h : 8 * b + j < m <;> simp [h]
  have hlt : 7 - j < 8 := by omega
  have h7 : 7 - (7 - j) = j := by omega
  simp only [bodyByte, term]
  rw [sum_msbFirst fun j => decide (8 * b + j < m) && bitRead bits (8 * b + j), BitVec.getLsbD_ofNat,
    Nat.testBit_ofBits_lt _ _ hlt, decide_eq_true hlt, Bool.true_and, h7]

theorem pack_drop (m k : Word) (bits : List Bool) : (pack m k bits).drop 8 = bodyBytes m bits := by
  rw [pack, drop_headerBytes]

theorem pack_take (m k : Word) (bits : List Bool) : (pack m k bits).take 8 = headerBytes m k := by
  rw [pack, take_headerBytes]

theorem bodyBytes_getLsbD {m : Word} (bits : List Bool) {b j : Nat} (hb : b < cdiv8 m) (hj : j < 8) :
    ((bodyBytes m bits).getD b 0).getLsbD (7 - j) = (decide (8 * b + j < m.toNat) && bitRead bits (8 * b + j)) := by
  rw [bodyBytes, List.getD_eq_getElem _ _ (by simpa using hb), List.getElem_map, List.getElem_range,
    bodyByte_getLsbD _ _ _ hj]

/-- Settles O42: each body byte holds its eight bits (`bodyBytes_getLsbD`). -/
theorem bodyBitsAreMsbFirst : Obligations.BodyBitsAreMsbFirst := fun m k bits =>
  ⟨bodyBytes_length m bits, pack_drop m k bits, fun _ _ => bodyBytes_getLsbD bits⟩

/-- R15: the bytes of a word, the least significant first. -/
theorem le32Bytes_eq (v : Word) : le32Bytes v =
    [BitVec.ofNat 8 v.toNat, BitVec.ofNat 8 (v.toNat / 256), BitVec.ofNat 8 (v.toNat / 65536),
      BitVec.ofNat 8 (v.toNat / 16777216)] := by
  simp [le32Bytes, BitVec.extractLsb', Nat.shiftRight_eq_div_pow]

/-- R115: a bit of the array is found where it was packed. -/
theorem bodyBit_bodyBytes {m : Word} (bits : List Bool) {i : Nat} (hi : i < m.toNat) :
    bodyBit (bodyBytes m bits) i = bitRead bits i := by
  have hb : i / 8 < cdiv8 m := by rw [cdiv8_eq]; omega
  rw [bodyBit, bodyBytes_getLsbD bits hb (Nat.mod_lt i (by decide)), Nat.div_add_mod, decide_eq_true hi, Bool.true_and]

theorem unpackBits_bodyBytes {m : Word} {bits : List Bool} (hl : bits.length = m.toNat) :
    unpackBits m.toNat (bodyBytes m bits) = bits := by
  refine bits_ext (by rw [unpackBits_length, hl]) fun i => ?_
  rw [bitRead_unpackBits]
  by_cases hi : i < m.toNat
  · rw [bodyBit_bodyBytes bits hi, decide_eq_true hi, Bool.true_and]
  · rw [decide_eq_false hi, Bool.false_and, bitRead_of_le (by omega)]

/-- Settles O43: the header bytes are written out (`le32Bytes_eq`), and the header and the bits are read back
(`headerM_headerBytes`, `headerK_headerBytes`, `unpackBits_bodyBytes`). -/
theorem unpackInvertsPack : Obligations.UnpackInvertsPack := by
  refine ⟨fun m k bits => ?_, fun m body => ⟨unpackBits_length m body, fun i hi => ?_⟩, fun m k bits hl => ?_⟩
  · rw [pack, headerBytes, le32Bytes_eq, le32Bytes_eq]
    rfl
  · rw [bitRead_unpackBits, decide_eq_true hi, Bool.true_and, bodyBit]
  · rw [pack_take, pack_drop]
    exact ⟨headerM_headerBytes m k, headerK_headerBytes m k, unpackBits_bodyBytes hl⟩

end Sys2Proof.Machine
end

section
/-! PROOFS. The sizing functions against the exact ceilings (spec/40_sizing.md R131, R133, R134, R136; log 5). -/

namespace Sys2Proof.Machine

theorem ceilDiv_le_iff {a b j : Nat} (hb : 0 < b) : ceilDiv a b ≤ j ↔ a ≤ j * b := by
  rw [ceilDiv, ← Nat.lt_add_one_iff, Nat.div_lt_iff_lt_mul hb, Nat.add_mul]
  omega

/-! HASHCOUNT. -/

/-- R134 (b). -/
theorem hashCount_eq_zero_iff {m n : Nat} (hn : 1 ≤ n) : hashCount m n = 0 ↔ m = 0 := by
  rw [← Nat.le_zero, hashCount, ceilDiv_le_iff (by omega)]
  omega

/-- Between the two fractions around `ln 2`, whose cross difference `497083768 * 4141294769 - 2870526793 * 717140287` is
1, there is none with a denominator below `2^32`. -/
theorem le_of_fraction_above {m p : Nat} (hm : m ≤ 2 ^ 32 - 1) (h : 2870526793 * m < 4141294769 * p) :
    497083768 * m ≤ 717140287 * p := by
  omega

/-- R133, R136: `hashCount` is the exact real ceiling. -/
theorem hashCount_eq {m n : Nat} (hm : m ≤ 2 ^ 32 - 1) (hn : 1 ≤ n) :
    hashCount m n = ⌈Real.log 2 * (m : ℝ) / (n : ℝ)⌉₊ := by
  have hn' : (0 : ℝ) < n := by exact_mod_cast hn
  obtain ⟨hlo, hhi⟩ := log_two_bounds
  rcases Nat.eq_zero_or_pos m with rfl | hpos
  · simp [(hashCount_eq_zero_iff hn).mpr]
  have hm' : (0 : ℝ) < m := by exact_mod_cast hpos
  apply le_antisymm
  · rw [hashCount, ceilDiv_le_iff (by omega), Nat.mul_left_comm]
    refine le_of_fraction_above hm ?_
    have hj : Real.log 2 * m ≤ ⌈Real.log 2 * (m : ℝ) / n⌉₊ * n := (div_le_iff₀ hn').mp (Nat.le_ceil _)
    have hlt : (2870526793 : ℝ) / 4141294769 * m < ⌈Real.log 2 * (m : ℝ) / n⌉₊ * n :=
      (mul_lt_mul_of_pos_right hlo hm').trans_le hj
    rw [div_mul_eq_mul_div, div_lt_iff₀ (by norm_num), mul_comm _ (4141294769 : ℝ)] at hlt
    exact_mod_cast hlt
  · rw [hashCount, ceilDiv_eq _ (by omega)]
    refine Nat.ceil_mono ?_
    push_cast
    rw [mul_div_mul_comm, mul_div_assoc]
    exact mul_le_mul_of_nonneg_right hhi.le (by positivity)

/-- R134 (d): it fits a `u32`. -/
theorem hashCount_le {m n : Nat} (hm : m ≤ 2 ^ 32 - 1) (hn : 1 ≤ n) : hashCount m n ≤ 2977044472 := by
  rw [hashCount, ceilDiv_le_iff (by omega)]
  omega

/-- Settles O26: `hashCount` is the exact ceiling (`hashCount_eq`), so its zero and its bound are those of the
ceiling. -/
theorem hashCountRange : Obligations.HashCountRange := by
  intro m n hm hn
  refine ⟨?_, hashCount_eq hm hn, hashCount_le hm hn⟩
  rw [← hashCount_eq hm hn]
  exact hashCount_eq_zero_iff hn

/-! How far apart the two ceilings of BITCOUNT are. -/

/-- Two ceilings are at most 1 apart when the quotients are. -/
theorem ceilDiv_le_ceilDiv_add_one {a b a' b' : Nat} (hb : 0 < b) (hb' : 0 < b')
    (h : a' * b ≤ (a + b) * b') : ceilDiv a' b' ≤ ceilDiv a b + 1 := by
  rw [ceilDiv_le_iff hb']
  have ha : a ≤ ceilDiv a b * b := (ceilDiv_le_iff hb).mp (Nat.le_refl _)
  refine Nat.le_of_mul_le_mul_right ?_ hb
  calc a' * b ≤ (a + b) * b' := h
    _ ≤ (ceilDiv a b * b + b) * b' := Nat.mul_le_mul_right _ (Nat.add_le_add_right ha b)
    _ = (ceilDiv a b + 1) * b' * b := by ring

theorem ln2Hi_le : ln2Hi ≤ ln2Lo + 458 := lnRatio_gap (by decide) (by decide) (by decide)

/-- `ln 2` is above a half, and its bound is large beside the gaps. -/
theorem ln2Lo_large : fixedOne ≤ 2 * ln2Lo ∧ 2 ^ 56 ≤ ln2Lo := by decide +kernel

theorem ln2Lo_le_ln2Hi : ln2Lo ≤ ln2Hi := by
  have h := ln2_bounds.1.trans ln2_bounds.2
  exact_mod_cast h

/-- `−ln p` is at most `1075 ln 2`. -/
theorem negLnLo_le (P : DWord) : negLnLo P ≤ 1075 * ln2Lo := by
  have hk : pHalvings P ≤ 1075 := by unfold pHalvings pShift; omega
  exact (Nat.sub_le _ _).trans (Nat.mul_le_mul_right _ hk)

/-- With `y` and `z` the bounds of `ln 2`, `a` and `b` those of `−ln p`, and `c` the scale: the two quotients of
`bitCountLo` and `bitCountHi`, cross multiplied, are at most 1 apart. -/
theorem bitCount_quotient_gap {n a b c y z : Nat} (hn : n < 2 ^ 32) (hz : z ≤ y + 458) (hyz : y ≤ z)
    (hb : b ≤ a + 2 ^ 20) (ha : a ≤ 1075 * y) (hc : c ≤ 2 * y) (hy : 2 ^ 56 ≤ y) :
    n * b * c * (z * z) ≤ (n * a * c + z * z) * (y * y) := by
  have hsq : z * z ≤ y * y + 1374 * y := by nlinarith
  have hsq2 : z * z ≤ 2 * (y * y) := by nlinarith
  have hb2 : b * (z * z) ≤ a * (y * y) + 2 ^ 22 * (y * y) := by
    calc b * (z * z) ≤ (a + 2 ^ 20) * (z * z) := Nat.mul_le_mul_right _ hb
      _ = a * (z * z) + 2 ^ 20 * (z * z) := by ring
      _ ≤ a * (y * y + 1374 * y) + 2 ^ 20 * (2 * (y * y)) := by gcongr
      _ = a * (y * y) + 1374 * y * a + 2 ^ 21 * (y * y) := by ring
      _ ≤ a * (y * y) + 1374 * y * (1075 * y) + 2 ^ 21 * (y * y) := by gcongr
      _ ≤ a * (y * y) + 2 ^ 22 * (y * y) := by nlinarith
  calc n * b * c * (z * z) = n * c * (b * (z * z)) := by ring
    _ ≤ n * c * (a * (y * y) + 2 ^ 22 * (y * y)) := by gcongr
    _ = n * a * c * (y * y) + 2 ^ 22 * n * c * (y * y) := by ring
    _ ≤ n * a * c * (y * y) + 2 ^ 22 * 2 ^ 32 * (2 * y) * (y * y) := by gcongr
    _ = n * a * c * (y * y) + 2 ^ 55 * y * (y * y) := by ring
    _ ≤ n * a * c * (y * y) + z * z * (y * y) := by
      gcongr
      omega
    _ = (n * a * c + z * z) * (y * y) := by ring

/-- Log 5: the two numbers are at most 1 apart. -/
theorem bitCountHi_le {P : DWord} (h1 : 1 ≤ P.toNat) (h2 : P.toNat ≤ 0x3FEFFFFFFFFFFFFF) {n : Nat}
    (hn : n < 2 ^ 32) : bitCountHi n P ≤ bitCountLo n P + 1 := by
  obtain ⟨hc, hy⟩ := ln2Lo_large
  have hLo := ln2Lo_pos
  have hHi := hLo.trans_le ln2Lo_le_ln2Hi
  have h := ceilDiv_le_ceilDiv_add_one (Nat.mul_pos hHi hHi) (Nat.mul_pos hLo hLo)
    (bitCount_quotient_gap hn ln2Hi_le ln2Lo_le_ln2Hi (negLn_gap h1 h2) (negLnLo_le P) hc hy)
  rw [bitCountHi, bitCountLo]
  omega

end Sys2Proof.Machine
end

section
/-! PROOFS. BITCOUNT and HASHCOUNT (spec/40_sizing.md R132, R135). -/

namespace Sys2Proof.Machine

/-- R130: the command `i` ends in `s` with these results and writes nothing else. -/
def EndsCleanly (i : Instr) (s : State) (status res0 res1 res2 : Word) : Prop :=
  ∃ t, exec i s = .next t ∧ Reports t status res0 res1 res2 ∧ t.slots = s.slots ∧ t.ports = s.ports ∧
    SameOperands s t ∧ SameOutside s t

theorem endsCleanly_of_exec {i : Instr} {s : State} {st r0 r1 r2 : Word}
    (h : exec i s = .next (s.complete st r0 r1 r2)) : EndsCleanly i s st r0 r1 r2 :=
  ⟨_, h, ⟨rfl, rfl, rfl, rfl⟩, rfl, rfl, ⟨rfl, rfl, rfl, rfl, rfl⟩, ⟨rfl, rfl, rfl, rfl⟩⟩

theorem endsCleanly_of_succeed {i : Instr} {s : State} {r0 r1 r2 : Word} (h : exec i s = succeed r0 r1 r2 s) :
    EndsCleanly i s 0x000 r0 r1 r2 := endsCleanly_of_exec (h.trans (succeed_eq r0 r1 r2 s))

theorem failsCleanly_of_raise {i : Instr} {s : State} {e : ErrKind} {info : Nat}
    (h : exec i s = raise e info 0 s) : FailsCleanly i s (statusError e info) := endsCleanly_of_exec h

theorem State.opN_ne_zero {s : State} (h : s.regs.arg0 ≠ 0) : s.opN ≠ 0 := fun h0 => h (BitVec.eq_of_toNat_eq h0)

theorem validP_iff (P : DWord) : validP P = true ↔ 1 ≤ P.toNat ∧ P.toNat ≤ 0x3FEFFFFFFFFFFFFF := by
  rw [validP, Bool.and_eq_true, decide_eq_true_iff, decide_eq_true_iff]

/-- R132: how BITCOUNT of valid operands ends. -/
theorem bitcount_ends {s : State} (hn : s.opN ≠ 0) (hP : validP s.opP = true) :
    (bitCount s.opN s.opP ≤ 2 ^ 32 - 1 →
      EndsCleanly .bitcount s 0x000 0 (BitVec.ofNat 32 (bitCount s.opN s.opP)) 0) ∧
    (2 ^ 32 - 1 < bitCount s.opN s.opP → FailsCleanly .bitcount s 0x152) := by
  rcases execBitcount_cases s with ⟨h, -⟩ | ⟨-, -, hm, e⟩ | ⟨-, -, hm, e⟩
  · simp [hn, hP] at h
  · exact ⟨fun h => absurd hm (Nat.not_lt.mpr h), fun _ => failsCleanly_of_raise (i := .bitcount) e⟩
  · exact ⟨fun _ => endsCleanly_of_succeed (i := .bitcount) e, fun h => absurd h (Nat.not_lt.mpr hm)⟩

/-- Settles O24: of the cases of `execBitcount_cases` only the first has an invalid operand. -/
theorem bitcountRejectsInvalidOperands : Obligations.BitcountRejectsInvalidOperands := by
  intro s h
  have hbad : ¬ (s.opN ≠ 0 ∧ validP s.opP = true) := by
    rw [validP_iff, s.opP_eq]
    rintro ⟨hn, hP⟩
    rcases h with h | h
    · exact hn (congrArg BitVec.toNat h)
    · omega
  rcases execBitcount_cases s with ⟨-, e⟩ | ⟨hn, hP, -⟩ | ⟨hn, hP, -⟩
  · exact failsCleanly_of_raise (i := .bitcount) e
  · exact absurd ⟨hn, hP⟩ hbad
  · exact absurd ⟨hn, hP⟩ hbad

section
variable {s : State} {q : ℚ} (hq : pval (s.regs.arg3 ++ s.regs.arg2) = some q) (h0 : 0 < q) (h1 : q < 1)
include hq h0 h1

/-- R98: the operand pattern of a `p` in `(0,1)` is valid. -/
theorem operand_pattern_valid :
    1 ≤ (s.regs.arg3 ++ s.regs.arg2).toNat ∧ (s.regs.arg3 ++ s.regs.arg2).toNat ≤ 0x3FEFFFFFFFFFFFFF :=
  (validPatternsAreTheOpenUnitInterval _).mpr ⟨q, hq, h0, h1⟩

/-- R132, R136: BITCOUNT ends with the exact ceiling, by `bitCount_eq`. -/
theorem bitcount_ends_exactly (hn : s.regs.arg0 ≠ 0) {m : Nat}
    (hm : m = ⌈-(s.regs.arg0.toNat : ℝ) * Real.log q / Real.log 2 ^ 2⌉₊) :
    (m ≤ 2 ^ 32 - 1 → EndsCleanly .bitcount s 0x000 0 (BitVec.ofNat 32 m) 0) ∧
    (2 ^ 32 - 1 < m → FailsCleanly .bitcount s 0x152) := by
  obtain ⟨hlo, hhi⟩ := operand_pattern_valid hq h0 h1
  have hP : validP s.opP = true := (validP_iff _).mpr (by rw [s.opP_eq]; exact ⟨hlo, hhi⟩)
  have hb : bitCount s.opN s.opP = m := by
    rw [s.opP_eq, hm]
    exact bitCount_eq hlo hhi (State.opN_ne_zero hn) hq
  exact hb ▸ bitcount_ends (State.opN_ne_zero hn) hP

end

/-- Settles O22: BITCOUNT ends with the exact ceiling (`bitcount_ends_exactly`), which is no less than the lower bound of
`bitCount_bounds`, and that is at least 1. -/
theorem bitcountIsTheExactCeiling : Obligations.BitcountIsTheExactCeiling := by
  refine ⟨by decide, fun s q m hn hq h0 h1 hm => ⟨?_, bitcount_ends_exactly hq h0 h1 hn hm⟩⟩
  obtain ⟨hlo, hhi⟩ := operand_pattern_valid hq h0 h1
  obtain ⟨hone, hle, -⟩ := bitCount_bounds hlo hhi (State.opN_ne_zero hn) hq
  exact hm ▸ hone.trans hle

/-- Settles O23: with `m` the exact ceiling; the bounds enclose it (`bitCount_bounds`) and are at most 1 apart
(`bitCountHi_le`). -/
theorem bitcountCompletesWithinItsBounds : Obligations.BitcountCompletesWithinItsBounds := by
  intro s q hn hq h0 h1
  obtain ⟨hlo, hhi⟩ := operand_pattern_valid hq h0 h1
  obtain ⟨hone, hle, hge⟩ := bitCount_bounds hlo hhi (State.opN_ne_zero hn) hq
  exact ⟨_, _, _, rfl, rfl, hone, bitCountHi_le hlo hhi s.regs.arg0.isLt, hle, hge, hle, hge,
    bitcount_ends_exactly hq h0 h1 hn rfl⟩

/-- Settles O25: of the cases of `execHashcount_cases` the operands choose one (`hashCount_eq_zero_iff`), and the count
is the exact ceiling (`hashCount_eq`). -/
theorem hashcountIsTheExactCeiling : Obligations.HashcountIsTheExactCeiling := by
  refine ⟨by decide, fun s => ?_⟩
  have hm : s.regs.arg1.toNat ≤ 2 ^ 32 - 1 := Nat.le_pred_of_lt s.regs.arg1.isLt
  rcases execHashcount_cases s with ⟨hn, e⟩ | ⟨hn, hk, e⟩ | ⟨hn, hk, e⟩
  · have h0 : s.regs.arg0 = 0 := BitVec.eq_of_toNat_eq hn
    exact ⟨fun _ => failsCleanly_of_raise (i := .hashcount) e, fun h => absurd h0 h, fun h => absurd h0 h⟩
  · have hz : s.regs.arg1 = 0 :=
      BitVec.eq_of_toNat_eq ((hashCount_eq_zero_iff (Nat.pos_of_ne_zero hn)).mp hk)
    exact ⟨fun h => absurd (congrArg BitVec.toNat h) hn, fun _ _ => failsCleanly_of_raise (i := .hashcount) e,
      fun _ h => absurd hz h⟩
  · have hpos : 1 ≤ s.opN := Nat.pos_of_ne_zero hn
    have hz : s.regs.arg1 ≠ 0 := fun h => hk ((hashCount_eq_zero_iff hpos).mpr (congrArg BitVec.toNat h))
    have hle := hashCount_le hm hpos
    rw [hashCount_eq hm hpos] at e hk hle
    obtain ⟨t, he, hr, hframe⟩ := endsCleanly_of_succeed (i := .hashcount) e
    exact ⟨fun h => absurd (congrArg BitVec.toNat h) hn, fun _ h => absurd h hz,
      fun _ _ => ⟨t, he, hr, Nat.pos_of_ne_zero hk, hle, hframe⟩⟩

end Sys2Proof.Machine
end

section
/-! PROOFS. The digest of a stream fed in chunks (spec/41_hash.md R154 to R158). -/

namespace Sys2Proof.Machine

/-- R154: feeding chunks one after the other appends their concatenation to the stream of R28. -/
theorem AccRun.foldl_feed_holds {seed : Word} (chunks : List (List Byte)) :
    ∀ {T : List Byte} {r : AccRun}, r.Holds seed T →
      (chunks.foldl AccRun.feed r).Holds seed (T ++ chunks.flatten) := by
  induction chunks with
  | nil =>
    intro T r h
    rwa [List.flatten_nil, List.append_nil]
  | cons chunk chunks ih =>
    intro T r h
    rw [List.foldl_cons, List.flatten_cons, ← List.append_assoc]
    exact ih (AccRun.feed_holds h chunk)

/-- Settles O28: a reset accumulator holds the empty stream, the chunks append to it (`AccRun.foldl_feed_holds`), and
finalizing gives the digest of what it holds. -/
theorem streamingEquivalence : Obligations.StreamingEquivalence := fun seed chunks =>
  AccRun.finalize_of_holds (AccRun.foldl_feed_holds chunks (AccRun.start_holds seed))

/-- Settles O27: each digest is computed. -/
theorem digestVectors : Obligations.DigestVectors := by
  unfold Obligations.DigestVectors
  decide +kernel

end Sys2Proof.Machine
end

section
/-! PROOFS. HRESET, HFEED and HFINAL on one accumulator of a slot (spec/41_hash.md R160 to R163, spec/60_exceptions.md
R256 to R258). -/

namespace Sys2Proof.Machine

/-- R91: the word of a command of format F1. -/
theorem commandWord_oneSlot (opc sa : Nat) : commandWord opc sa 0 = BitVec.ofNat 32 (opc + sa * 256) := by
  rw [commandWord, Nat.mul_zero, Nat.add_zero, Nat.mul_comm]

/-- A command that has taken the KEY buffer and then raises an error. -/
theorem FailsTakingKey.of_raise {i : Instr} {s : State} {e : ErrKind} {info : Nat} {st : Word}
    (h : exec i s = raise e info 0 s.takeKey) (hs : statusError e info = st) : FailsTakingKey i s st :=
  ⟨_, h, ⟨hs, rfl, rfl, rfl⟩, rfl, ⟨rfl, rfl, rfl, rfl, rfl, rfl⟩, ⟨rfl, rfl, rfl, rfl, rfl⟩, ⟨rfl, rfl, rfl, rfl⟩⟩

/-- R256, R257, R263: the errors of a command on accumulator `ARG0` of slot `sa`, in their order: `x` is what it answers,
and `P` says with which status it fails. -/
theorem withAcc_errors {sa : Nat} {s : State} {go : Filter → Acc → Result} {x : Result} {P : Word → Prop}
    (hx : x = withAcc sa s go)
    (hP : ∀ {e : ErrKind} {info : Nat} {st : Word}, x = raise e info 0 s → statusError e info = st → P st) :
    (s.nslots ≤ sa → P 0x022) ∧ (sa < s.nslots → s.slot sa = none → P 0x122) ∧
    (∀ f, s.slot sa = some f → f.k.toNat ≤ s.opJ → P 0x032) :=
  ⟨fun hl => hP (hx.trans (withFilter_of_range hl _)) (by decide),
    fun hl hf => hP (hx.trans (withFilter_of_empty hl hf _)) (by decide),
    fun _ hf hk => hP (hx.trans (withAcc_of_index hf hk go)) (by decide)⟩

/-- R163: a command that has put `b` in accumulator `j` of the filter `f` in slot `sa` has changed nothing else of that
slot, and no other slot. -/
theorem slot_of_complete_setAcc {s : State} {sa j : Nat} {f : Filter} {a : Acc} (hf : s.slot sa = some f)
    (ha : f.acc[j]? = some a) (b : Acc) (st r0 r1 r2 : Word) :
    ∃ g, ((s.setAcc sa f j b).complete st r0 r1 r2).slot sa = some g ∧ SameBits f g ∧ g.acc[j]? = some b ∧
      (∀ n, n ≠ j → g.acc[n]? = f.acc[n]?) ∧ SameSlotsBut sa s ((s.setAcc sa f j b).complete st r0 r1 r2) :=
  ⟨_, State.complete_setSlot_slot _ (State.slot_lt hf) _ _ _ _, ⟨rfl, rfl, rfl⟩, Filter.getElem?_set_acc ha b,
    fun _ hn => List.getElem?_set_ne (Ne.symm hn), sameSlotsBut_complete_setSlot _ _ _ _ _ _ _⟩

/-- R22: accumulator `j` has seed `j`. -/
theorem Filter.wf.seed_eq {c : Config} {f : Filter} (hf : f.wf c) {j : Nat} {a : Acc} (ha : f.acc[j]? = some a) :
    a.seed = BitVec.ofNat 32 j := by
  have hj : j < f.acc.length := (List.getElem?_eq_some_iff.mp ha).1
  have hs : (f.acc.map Acc.seed)[j]? = ((List.range f.acc.length).map (BitVec.ofNat 32))[j]? :=
    congrArg (·[j]?) hf.seeds
  rw [List.getElem?_map, ha, List.getElem?_map, List.getElem?_range hj] at hs
  exact Option.some.inj hs

/-- Settles O29: the errors are those of `withAcc_errors`; otherwise accumulator `ARG0` alone is written
(`slot_of_complete_setAcc`). -/
theorem hresetResetsOneAccumulator : Obligations.HresetResetsOneAccumulator := by
  intro s sa
  obtain ⟨hrange, hempty, hindex⟩ := withAcc_errors (x := exec (.hreset sa) s) rfl FailsCleanly.of_raise
  refine ⟨fun _ => commandWord_oneSlot 3 sa, hrange, hempty, hindex, fun f a hf hk ha => ?_⟩
  have he : exec (.hreset sa) s = .next ((s.setAcc sa f s.opJ a.reset).complete 0 0 0 0) :=
    (withAcc_of_acc hf hk ha _).trans (succeed_eq _ _ _ _)
  obtain ⟨g, hg, hbits, hj, hother, hslots⟩ := slot_of_complete_setAcc hf ha a.reset 0 0 0 0
  refine ⟨_, g, he, ⟨rfl, rfl, rfl, rfl⟩, hg, hbits, hj, fun hw => ?_, hother, hslots, rfl, exec_sameOperands he,
    exec_sameOutside he⟩
  rw [hw.seed_eq ha, BitVec.ofNat_toNat, BitVec.setWidth_eq]

/-- Settles O30: the KEY buffer is taken before any check (`withKey_of_key`); a feed appends to the stream
(`AccRun.feed_holds`). -/
theorem hfeedAppendsTheKey : Obligations.HfeedAppendsTheKey := by
  intro s sa key later hkey
  have hx : exec (.hfeed sa) s = withOpenAcc sa s.takeKey fun f a r =>
      succeed 0 0 0 (s.takeKey.setAcc sa f s.opJ { a with run := some (r.feed key) }) := by
    rw [exec, execHfeed, withKey_of_key hkey]
    rfl
  obtain ⟨hrange, hempty, hindex⟩ := withAcc_errors hx FailsTakingKey.of_raise
  refine ⟨fun _ => commandWord_oneSlot 4 sa, hrange, hempty, hindex, fun f a hf hk ha => ⟨fun hr => ?_,
    fun r T hr hT => ?_⟩⟩
  · exact .of_raise (hx.trans (withOpenAcc_of_closed (s := s.takeKey) hf hk ha hr _)) (by decide)
  · have he := hx.trans ((withOpenAcc_of_run (s := s.takeKey) hf hk ha hr _).trans (succeed_eq _ _ _ _))
    obtain ⟨g, hg, hbits, hj, hother, hslots⟩ :=
      slot_of_complete_setAcc (s := s.takeKey) hf ha { a with run := some (r.feed key) } 0 0 0 0
    exact ⟨_, g, r.feed key, he, ⟨rfl, rfl, rfl, rfl⟩, hg, hbits, hj, AccRun.feed_holds hT key, hother,
      ⟨hslots.count, hslots.other⟩, ⟨rfl, rfl, rfl, rfl, rfl, rfl⟩, exec_sameOperands he, exec_sameOutside he⟩

/-- R162, R258: HFINAL of a closed accumulator. -/
theorem hfinal_failsCleanly_of_closed {s : State} {sa : Nat} {f : Filter} {a : Acc} (hf : s.slot sa = some f)
    (hk : s.opJ < f.k.toNat) (ha : f.acc[s.opJ]? = some a) (hr : a.run = none) : FailsCleanly (.hfinal sa) s 0x042 :=
  .of_raise (withOpenAcc_of_closed hf hk ha hr _) (by decide)

/-- Settles O31: finalizing gives the digest of the stream (`AccRun.finalize_of_holds`). -/
theorem hfinalAnswersTheDigest : Obligations.HfinalAnswersTheDigest := by
  intro s sa
  obtain ⟨hrange, hempty, hindex⟩ := withAcc_errors (x := exec (.hfinal sa) s) rfl FailsCleanly.of_raise
  refine ⟨fun _ => commandWord_oneSlot 5 sa, hrange, hempty, hindex, fun f a hf hk ha =>
    ⟨hfinal_failsCleanly_of_closed hf hk ha, fun r T hr hT => ?_⟩⟩
  have he : exec (.hfinal sa) s = .next ((s.setAcc sa f s.opJ a.close).complete 0 (digest32 a.seed T) 0 0) := by
    rw [← AccRun.finalize_of_holds hT]
    exact (withOpenAcc_of_run hf hk ha hr _).trans (succeed_eq _ _ _ _)
  obtain ⟨g, hg, hbits, hj, hother, hslots⟩ := slot_of_complete_setAcc hf ha a.close 0 (digest32 a.seed T) 0 0
  exact ⟨_, g, he, ⟨rfl, rfl, rfl, rfl⟩, hg, hbits, hj, hother, hslots, rfl, exec_sameOperands he,
    exec_sameOutside he⟩

/-! After an HFINAL, ADD or CONTAINS (R27, R304). -/

/-- R162, R185, R187: what those commands leave of accumulator `ARG0` of the slot they have written. -/
theorem Wrote.acc_closed {s : State} {a : Nat} {i : Instr} {f : Filter} {o : Option Filter} {x : Acc}
    (h : Wrote s a i (some f) o) (hi : i = .hfinal a ∨ i = .add a ∨ i = .contains a) (hx : f.acc[s.opJ]? = some x) :
    ∃ g, o = some g ∧ g.k = f.k ∧ g.acc[s.opJ]? = some x.close := by
  rcases hi with rfl | rfl | rfl <;> cases h
  case hfinal y hy =>
    cases hy.symm.trans hx
    exact ⟨_, rfl, rfl, Filter.getElem?_set_acc hx _⟩
  case add key => exact ⟨_, rfl, rfl, by rw [Filter.addKey_acc, List.getElem?_map, hx]; rfl⟩
  case contains => exact ⟨_, rfl, rfl, by rw [Filter.closeAll_acc, List.getElem?_map, hx]; rfl⟩

/-- Settles O32: the command has closed accumulator `ARG0` (`Wrote.acc_closed`) and kept `ARG0`
(`exec_sameOperands`). -/
theorem closedAccumulatorRefusesHfinal : Obligations.ClosedAccumulatorRefusesHfinal := by
  intro i s t sa f hi hf hw hk he ht
  have hx := List.getElem?_eq_getElem (hw.accLength.symm ▸ hk)
  have hsa : writtenSlot i = some sa := by rcases hi with rfl | rfl | rfl <;> rfl
  obtain ⟨g, hg, hgk, hga⟩ := (hf ▸ exec_wrote he ht hsa).acc_closed hi hx
  have hJ : t.opJ = s.opJ := congrArg BitVec.toNat (exec_sameOperands he).arg0
  exact hfinal_failsCleanly_of_closed hg (by rw [hJ, hgk]; exact hk) (by rw [hJ]; exact hga) rfl

end Sys2Proof.Machine
end

section
/-! PROOFS. NEW, DROP, ADD and CONTAINS (spec/42_filter.md R180 to R188). -/

namespace Sys2Proof.Machine

/-- Settles O35: in range, DROP writes the empty slot (`State.complete_setSlot_slot`). -/
theorem dropEmptiesTheSlot : Obligations.DropEmptiesTheSlot := by
  refine fun s sa => ⟨fun _ => commandWord_oneSlot 7 sa, fun hl => .of_raise (if_pos hl) (by decide), fun hl => ?_⟩
  have he : exec (.drop sa) s = .next ((s.setSlot sa none).complete 0 0 0 0) :=
    (if_neg (Nat.not_le.mpr hl)).trans (succeed_eq _ _ _ _)
  exact ⟨_, he, ⟨rfl, rfl, rfl, rfl⟩, State.complete_setSlot_slot none hl _ _ _ _,
    sameSlotsBut_complete_setSlot _ _ _ _ _ _ _, rfl, exec_sameOperands he, exec_sameOutside he⟩

/-! NEW (R180, R181). -/

section
variable {s : State} {sa : Nat} (hl : sa < s.nslots) (hf : s.slot sa = none)
include hl hf

/-- R181: the first check on the operands of a NEW that has found its slot empty. -/
theorem new_failsCleanly_of_invalid (h : s.opN = 0 ∨ validP s.opP = false) : FailsCleanly (.new sa) s 0x052 := by
  have e : exec (.new sa) s = _ := withEmpty_of_empty hl hf _
  by_cases hn : s.opN = 0
  · exact .of_raise (e.trans (if_pos hn)) (by decide)
  · exact .of_raise (e.trans ((if_neg hn).trans (if_pos (h.resolve_left hn)))) (by decide)

/-- R181: how a NEW of valid operands ends, `m` and `k` being its sizes. -/
theorem new_ends (hn : s.opN ≠ 0) (hP : validP s.opP = true) {m k : Nat} (hm : bitCount s.opN s.opP = m)
    (hk : hashCount m s.opN = k) :
    (2 ^ 32 - 1 < m ∨ s.cfg.mMax < m → FailsCleanly (.new sa) s 0x152) ∧
    (m ≤ 2 ^ 32 - 1 → m ≤ s.cfg.mMax → s.cfg.kMax < k → FailsCleanly (.new sa) s 0x252) ∧
    (m ≤ 2 ^ 32 - 1 → m ≤ s.cfg.mMax → k ≤ s.cfg.kMax → exec (.new sa) s = .next
      ((s.setSlot sa (some (Filter.construct m k (List.replicate m false)))).complete 0 0 (BitVec.ofNat 32 m)
        (BitVec.ofNat 32 k))) := by
  subst hm hk
  have e : exec (.new sa) s = _ := (withEmpty_of_empty hl hf _).trans
    ((if_neg hn).trans (if_neg (by rw [hP]; exact Bool.noConfusion)))
  have fits {n : Nat} (h1 : n ≤ 2 ^ 32 - 1) (h2 : n ≤ s.cfg.mMax) : ¬ (2 ^ 32 - 1 < n ∨ s.cfg.mMax < n) :=
    not_or.mpr ⟨Nat.not_lt.mpr h1, Nat.not_lt.mpr h2⟩
  refine ⟨fun h => .of_raise (e.trans (if_pos h)) (by decide), fun h1 h2 h3 => ?_, fun h1 h2 h3 => ?_⟩
  · exact .of_raise (e.trans ((if_neg (fits h1 h2)).trans (if_pos h3))) (by decide)
  · exact e.trans ((if_neg (fits h1 h2)).trans ((if_neg (Nat.not_lt.mpr h3)).trans (succeed_eq _ _ _ _)))

end

/-- R136: the operand pattern of a `p` in `(0,1)` is valid, and the model sizes with the exact ceiling. -/
theorem bitCount_of_operands {s : State} {q : ℚ} {m : Nat} (hn : s.regs.arg0 ≠ 0)
    (hq : pval (s.regs.arg3 ++ s.regs.arg2) = some q) (h0 : 0 < q) (h1 : q < 1)
    (hm : m = ⌈-(s.regs.arg0.toNat : ℝ) * Real.log q / Real.log 2 ^ 2⌉₊) :
    validP s.opP = true ∧ bitCount s.opN s.opP = m := by
  obtain ⟨hlo, hhi⟩ := operand_pattern_valid hq h0 h1
  rw [s.opP_eq, hm]
  exact ⟨(validP_iff _).mpr ⟨hlo, hhi⟩, bitCount_eq hlo hhi (State.opN_ne_zero hn) hq⟩

/-- Settles O34: `new_ends` with the exact ceilings (`bitCount_of_operands`, `hashCount_eq`). -/
theorem newErrors : Obligations.NewErrors := by
  refine fun s sa => ⟨fun hl => .of_raise (withEmpty_of_range hl _) (by decide),
    fun f hf => .of_raise (withEmpty_of_slot hf _) (by decide), fun hl hf => ⟨fun h => ?_, ?_⟩⟩
  · refine new_failsCleanly_of_invalid hl hf (h.imp (congrArg BitVec.toNat) fun hP => ?_)
    rw [s.opP_eq, ← Bool.not_eq_true, validP_iff]
    omega
  · intro q m hn hq h0 h1 hm
    obtain ⟨hP, hb⟩ := bitCount_of_operands hn hq h0 h1 hm
    have hn' := State.opN_ne_zero hn
    obtain ⟨hbits, hhashes, -⟩ := new_ends hl hf hn' hP hb rfl
    refine ⟨hbits, fun hm32 hmc hk => hhashes hm32 hmc ?_⟩
    rw [hashCount_eq hm32 (Nat.pos_of_ne_zero hn')]
    exact hk

/-- Settles O33: `new_ends` with the exact ceilings; the sizes fit their words (`hashCount_le`). -/
theorem newConstructsAZeroFilter : Obligations.NewConstructsAZeroFilter := by
  intro s sa m k q hl hf hn hq h0 h1 hm hk hm32 hmc hkc
  obtain ⟨hP, hb⟩ := bitCount_of_operands hn hq h0 h1 hm
  have hpos : 1 ≤ s.opN := Nat.pos_of_ne_zero (State.opN_ne_zero hn)
  have hh : hashCount m s.opN = k := (hashCount_eq hm32 hpos).trans hk.symm
  have hk32 : k ≤ 2977044472 := hh ▸ hashCount_le hm32 hpos
  obtain ⟨-, -, hend⟩ := new_ends hl hf (State.opN_ne_zero hn) hP hb hh
  have he := hend hm32 hmc hkc
  exact ⟨fun _ => commandWord_oneSlot 6 sa, _, _, he, ⟨rfl, rfl, rfl, rfl⟩,
    State.complete_setSlot_slot _ hl _ _ _ _, Nat.mod_eq_of_lt (by omega), Nat.mod_eq_of_lt (by omega),
    List.length_replicate, bitRead_replicate m, by simp [Filter.construct],
    fun _ hj => Filter.construct_acc_getElem m k _ hj, sameSlotsBut_complete_setSlot _ _ _ _ _ _ _, rfl,
    exec_sameOperands he, exec_sameOutside he⟩

/-! ADD and CONTAINS (R185, R187). -/

/-- R27: closing every accumulator keeps the seeds and leaves none open. -/
theorem map_close_spec (acc : List Acc) :
    (acc.map Acc.close).map Acc.seed = acc.map Acc.seed ∧ ∀ a ∈ acc.map Acc.close, a.isOpen = false := by
  refine ⟨List.map_map, fun a ha => ?_⟩
  obtain ⟨x, -, rfl⟩ := List.mem_map.mp ha
  exact x.close_isOpen

section
variable {s : State} {key : List Byte} {later : List (List Byte)} (hk : s.ports.keys = key :: later) (sa : Nat)
include hk

theorem exec_add_of_key : exec (.add sa) s = withFilter sa s.takeKey fun f =>
    succeed 0 0 0 (s.takeKey.setSlot sa (some (f.addKey key))) :=
  show execAdd sa s = _ from withKey_of_key hk _

theorem exec_contains_of_key : exec (.contains sa) s = withFilter sa s.takeKey fun f =>
    succeed (if f.hasKey key then 1 else 0) 0 0 (s.takeKey.setSlot sa (some f.closeAll)) :=
  show execContains sa s = _ from withKey_of_key hk _

end

/-- R256, R264: the errors of a command that takes the KEY buffer and then needs a filter in slot `sa`. -/
theorem withFilter_errors_takingKey {i : Instr} {s : State} {sa : Nat} {go : Filter → Result}
    (hx : exec i s = withFilter sa s.takeKey go) :
    (s.nslots ≤ sa → FailsTakingKey i s 0x022) ∧ (sa < s.nslots → s.slot sa = none → FailsTakingKey i s 0x122) :=
  ⟨fun hl => .of_raise (hx.trans (withFilter_of_range (s := s.takeKey) hl go)) (by decide),
    fun hl hf => .of_raise (hx.trans (withFilter_of_empty (s := s.takeKey) hl hf go)) (by decide)⟩

/-- R83, R250: a command that takes the KEY buffer and then makes `g` of the filter `f` in slot `sa`. -/
theorem ends_takingKey {i : Instr} {s : State} {sa : Nat} {go : Filter → Result} {f g : Filter} {r0 r1 r2 : Word}
    (hx : exec i s = withFilter sa s.takeKey go) (hf : s.slot sa = some f)
    (hgo : go f = succeed r0 r1 r2 (s.takeKey.setSlot sa (some g))) :
    ∃ t, exec i s = .next t ∧ Reports t 0x000 r0 r1 r2 ∧ t.slot sa = some g ∧ SameSlotsBut sa s t ∧ KeyTaken s t ∧
      SameOperands s t ∧ SameOutside s t := by
  have he := hx.trans ((withFilter_of_slot (s := s.takeKey) hf go).trans (hgo.trans (succeed_eq _ _ _ _)))
  exact ⟨_, he, ⟨rfl, rfl, rfl, rfl⟩, State.complete_setSlot_slot (s := s.takeKey) _ (State.slot_lt hf) _ _ _ _,
    sameSlotsBut_complete_setSlot_takeKey _ _ _ _ _ _ _, ⟨rfl, rfl, rfl, rfl, rfl, rfl⟩, exec_sameOperands he,
    exec_sameOutside he⟩

/-- Settles O36: which bits are set is `Filter.addKey_bits`. -/
theorem addSetsTheIndexSet : Obligations.AddSetsTheIndexSet := by
  intro s sa key later hkey
  have hx := exec_add_of_key hkey sa
  obtain ⟨hrange, hempty⟩ := withFilter_errors_takingKey hx
  refine ⟨fun _ => commandWord_oneSlot 8 sa, hrange, hempty, fun f hf hw => ?_⟩
  obtain ⟨t, he, hr, hg, hframe⟩ := ends_takingKey hx hf rfl
  obtain ⟨hseeds, hclosed⟩ := map_close_spec f.acc
  exact ⟨t, f.addKey key, he, hr, hg, rfl, rfl, f.addKey_bits_length key, Filter.addKey_bits hw key, hseeds, hclosed,
    hframe⟩

/-- Settles O37: the answer is `Filter.hasKey_iff`. -/
theorem containsAnswersTheConjunction : Obligations.ContainsAnswersTheConjunction := by
  intro s sa key later hkey
  have hx := exec_contains_of_key hkey sa
  obtain ⟨hrange, hempty⟩ := withFilter_errors_takingKey hx
  refine ⟨fun _ => commandWord_oneSlot 9 sa, hrange, hempty, fun f hf hw => ?_⟩
  obtain ⟨t, he, hr, hg, hframe⟩ := ends_takingKey hx hf rfl
  obtain ⟨hseeds, hclosed⟩ := map_close_spec f.acc
  refine ⟨t, f.closeAll, he, fun h => ?_, fun h => ?_, hg, ⟨rfl, rfl, rfl⟩, hseeds, hclosed, hframe⟩
  · rwa [if_pos ((Filter.hasKey_iff hw key).mpr h)] at hr
  · rwa [if_neg (mt (Filter.hasKey_iff hw key).mp h)] at hr

/-! No false negatives (R188). -/

/-- A command keeps the machine invariant: R22 is `SlotKeptOrMade.wf`, the rest `exec_keepsRest`. -/
theorem exec_keepsInv {i : Instr} {s t : State} (hI : s.Inv) (he : exec i s = .next t) : t.Inv := by
  obtain ⟨hcfg, hn, hst, hkeys⟩ := exec_keepsRest he
  refine ⟨hcfg ▸ hI.cfgRange, hn ▸ hI.slotCount, ?_, hst hI.status, fun key hk => ?_⟩
  · rintro o ho f rfl
    obtain ⟨a, ha⟩ := State.mem_slots_iff.mp ho
    exact hcfg ▸ (exec_slotKeptOrMade he a).wf hI ha
  · rw [hcfg]
    exact (hkeys key hk).elim (hI.keyFits key) id

/-- Slot `a` holds a filter with every bit of the key's index set set. -/
def State.SlotHas (s : State) (a : Nat) (key : List Byte) : Prop := ∃ f, s.slot a = some f ∧ f.Has key

/-- R185: a key that has been added is there. -/
theorem add_slotHas {s t : State} {sa : Nat} {f : Filter} {key : List Byte} {later : List (List Byte)} (hI : s.Inv)
    (hk : s.ports.keys = key :: later) (hf : s.slot sa = some f) (he : exec (.add sa) s = .next t) :
    t.SlotHas sa key := by
  obtain ⟨-, -, -, hadd⟩ := addSetsTheIndexSet s sa key later hk
  obtain ⟨t', g, he', -, hg, hgm, hgk, -, hbits, -⟩ := hadd f hf (hI.filter_wf hf)
  cases he.symm.trans he'
  refine ⟨g, hg, fun j hj => (hbits _).mpr (.inr ⟨j, ?_, ?_⟩)⟩
  · rwa [← hgk]
  · rw [hgm]

/-- R188: a step after which the slot still holds a filter takes no key from it, since bits only rise. -/
theorem step_slotHas {s t : State} {a : Nat} {g : Filter} {key : List Byte} (hI : s.Inv) (h : step s = .next t)
    (hg : t.slot a = some g) (hs : s.SlotHas a key) : t.SlotHas a key := by
  obtain ⟨f, hf, hhas⟩ := hs
  obtain ⟨hm, hk, hrise⟩ := bitsOnlyRise s t a f g hI h hf hg
  refine ⟨g, hg, fun j hj => ?_⟩
  rw [hm]
  exact hrise _ (hhas j (hk ▸ hj))

theorem StepsHolding.slotHas {a : Nat} {s t : State} {key : List Byte} (h : StepsHolding a s t) (hI : s.Inv)
    (hs : s.SlotHas a key) : t.Inv ∧ t.SlotHas a key := by
  induction h with
  | refl => exact ⟨hI, hs⟩
  | tail _ hstep hheld ih =>
    obtain ⟨hI, hs⟩ := ih
    obtain ⟨g, hg⟩ := hheld
    exact ⟨stepKeepsInv _ _ hI hstep, step_slotHas hI hstep hg hs⟩

/-- Settles O38: the ADD puts the key there (`add_slotHas`), the steps keep it (`StepsHolding.slotHas`), and CONTAINS
answers accordingly (O37). -/
theorem noFalseNegatives : Obligations.NoFalseNegatives := by
  intro s t u sa f key later later' hI hk hf he hsteps hk'
  obtain ⟨hIu, g, hg, hhas⟩ := hsteps.slotHas (exec_keepsInv hI he) (add_slotHas hI hk hf he)
  obtain ⟨-, -, -, hcontains⟩ := containsAnswersTheConjunction u sa key later' hk'
  obtain ⟨v, -, hv, hone, -⟩ := hcontains g hg (hIu.filter_wf hg)
  exact ⟨v, hv, hone hhas⟩

end Sys2Proof.Machine
end


section
/-! PROOFS. SERIALIZE and DESERIALIZE (spec/43_codec.md R215, R220, R225). -/

namespace Sys2Proof.Machine

/-! SERIALIZE (R215). -/

/-- R66: a sink that has room for `n` bytes takes them all. -/
theorem Ports.takes_of_room {p : Ports} {n : Nat} (h : p.accept = none ∨ ∃ a, p.accept = some a ∧ n ≤ a) :
    p.takes n = n := by
  rcases h with h | ⟨a, h, hn⟩ <;> rw [Ports.takes, h]
  exact Nat.min_eq_right hn

/-- R66: a sink that has room for fewer bytes takes as many as it has room for. -/
theorem Ports.takes_of_short {p : Ports} {a n : Nat} (h : p.accept = some a) (hn : a < n) : p.takes n = a := by
  rw [Ports.takes, h]
  exact Nat.min_eq_left hn.le

theorem Ports.not_room_of_short {p : Ports} {a n : Nat} (h : p.accept = some a) (hn : a < n) :
    ¬ (p.accept = none ∨ ∃ b, p.accept = some b ∧ n ≤ b) := fun hr =>
  hn.ne ((Ports.takes_of_short h hn).symm.trans (Ports.takes_of_room hr))

section
variable {s : State} {sa : Nat} {f : Filter} (hf : s.slot sa = some f)
include hf

/-- R215: how a SERIALIZE whose sink is ready ends, with the stream written as far as the sink has taken it. -/
theorem serialize_ends (hr : s.ports.snkReady = true) :
    ((s.ports.accept = none ∨ ∃ n, s.ports.accept = some n ∧ 8 + cdiv8 f.m ≤ n) →
      exec (.serialize sa) s = .next ((s.snkWrite (pack f.m f.k f.bits)).complete 0x000
        (BitVec.ofNat 32 (8 + cdiv8 f.m)) f.m f.k)) ∧
    (∀ n, s.ports.accept = some n → n < 8 + cdiv8 f.m →
      exec (.serialize sa) s = .next ((s.snkWrite (pack f.m f.k f.bits)).complete (if n < 8 then 0x062 else 0x072)
        (BitVec.ofNat 32 n) 0 0)) := by
  rcases execSerialize_cases sa s with ⟨hl, -⟩ | ⟨-, hn, -⟩ | ⟨g, hg, ⟨hw, -⟩ | ⟨-, h⟩⟩
  · exact absurd (State.slot_lt hf) (Nat.not_lt.mpr hl)
  · cases hn.symm.trans hf
  · cases hw.symm.trans hr
  cases hg.symm.trans hf
  rcases h with ⟨a, ha, h8, e⟩ | ⟨a, ha, h8, hb, e⟩ | ⟨ht, e⟩
  · refine ⟨fun h => absurd h (Ports.not_room_of_short ha (by omega)), fun n hn _ => ?_⟩
    cases ha.symm.trans hn
    rw [if_pos h8]
    exact e
  · refine ⟨fun h => absurd h (Ports.not_room_of_short ha hb), fun n hn _ => ?_⟩
    cases ha.symm.trans hn
    rw [if_neg (Nat.not_lt.mpr h8)]
    exact e
  · exact ⟨fun _ => e.trans (succeed_eq _ _ _ _),
      fun n hn hlt => absurd ((Ports.takes_of_short hn hlt).symm.trans ht) hlt.ne⟩

/-- R215: a SERIALIZE that succeeds has written the whole stream. -/
theorem serialize_ok_snk {t : State} (he : exec (.serialize sa) s = .next t) (ht : t.regs.status = 0) :
    t.ports.snk = s.ports.snk ++ pack f.m f.k f.bits := by
  rcases execSerialize_cases sa s with ⟨-, e⟩ | ⟨-, -, e⟩ |
    ⟨g, hg, ⟨-, e⟩ | ⟨-, ⟨_, -, -, e⟩ | ⟨_, -, -, -, e⟩ | ⟨h, e⟩⟩⟩
  · exact absurd (e.symm.trans he) (raise_ne_of_ok ht)
  · exact absurd (e.symm.trans he) (raise_ne_of_ok ht)
  · cases e.symm.trans he
    exact absurd ht (State.waiting_status_ne_zero s)
  · exact absurd (e.symm.trans he) (raise_ne_of_ok ht)
  · exact absurd (e.symm.trans he) (raise_ne_of_ok ht)
  · cases hg.symm.trans hf
    cases e.symm.trans he
    have hlen := pack_length_eq f.m f.k f.bits
    rw [State.complete_ports, State.snkWrite_ports, Ports.snkWrite_snk, hlen, h, ← hlen, List.take_length]

end

/-- R83, R215: what a command that ends after one write to the sink leaves as it was. -/
theorem ends_writing {i : Instr} {s : State} {w : List Byte} {st r0 r1 r2 : Word}
    (he : exec i s = .next ((s.snkWrite w).complete st r0 r1 r2)) {snk : List Byte} {accept : Option Nat}
    (hs : (s.ports.snkWrite w).snk = snk) (ha : (s.ports.snkWrite w).accept = accept) :
    ∃ t, exec i s = .next t ∧ Reports t st r0 r1 r2 ∧ t.ports.snk = snk ∧ t.ports.accept = accept ∧
      t.slots = s.slots ∧ SamePortsButSink s t ∧ SameOperands s t ∧ SameOutside s t :=
  ⟨_, he, ⟨rfl, rfl, rfl, rfl⟩, hs, ha, rfl, ⟨rfl, rfl, rfl, rfl⟩, exec_sameOperands he, exec_sameOutside he⟩

/-- Settles O44: the ends are those of `serialize_ends`; how much of the stream the sink has taken is
`Ports.takes_of_room` or `Ports.takes_of_short`. -/
theorem serializeWritesThePack : Obligations.SerializeWritesThePack := by
  refine fun s sa => ⟨fun _ => commandWord_oneSlot 10 sa, fun hl => .of_raise (withFilter_of_range hl _) (by decide),
    fun hl hn => .of_raise (withFilter_of_empty hl hn _) (by decide), fun f hf hr => ?_⟩
  obtain ⟨hwhole, hshort⟩ := serialize_ends hf hr
  have hlen := pack_length_eq f.m f.k f.bits
  refine ⟨fun h => ends_writing (hwhole h) ?_ ?_, fun n hn hlt => ends_writing (hshort n hn hlt) ?_ ?_⟩
  · rw [Ports.snkWrite_snk, hlen, Ports.takes_of_room h, ← hlen, List.take_length]
  · rw [Ports.snkWrite_accept, hlen, Ports.takes_of_room h]
  · rw [Ports.snkWrite_snk, hlen, Ports.takes_of_short hn hlt]
  · rw [Ports.snkWrite_accept, hlen, Ports.takes_of_short hn hlt, hn, Option.map_some, Nat.sub_self]

/-! DESERIALIZE (R220). -/

/-- R220: a command that has consumed `c` bytes of the source, or as many as there were, and then raises an error. -/
theorem FailsReading.of_raise {i : Instr} {s : State} {e : ErrKind} {info n c : Nat} {st : Word} {left : List Byte}
    (h : exec i s = raise e info n (s.srcDrop c)) (hs : statusError e info = st) (hleft : s.ports.src.drop c = left) :
    FailsReading i s st n left :=
  ⟨_, h, ⟨hs, rfl, rfl, rfl⟩, rfl, hleft, ⟨rfl, rfl, rfl, rfl, rfl⟩, exec_sameOperands h, exec_sameOutside h⟩

/-- R115: a bit of the array lies within the `cdiv8(m)` body bytes. -/
theorem bodyBit_take_cdiv8 {m : Word} {i : Nat} (hi : i < m.toNat) (bytes : List Byte) :
    bodyBit (bytes.take (cdiv8 m)) i = bodyBit bytes i := by
  have hb : i / 8 < cdiv8 m := by rw [cdiv8_eq]; omega
  rw [bodyBit, bodyBit, List.getD_eq_getElem?_getD, List.getD_eq_getElem?_getD, List.getElem?_take_of_lt hb]

/-- R221: the headers that are rejected. -/
theorem headerOk_eq_false_iff (c : Config) (m k : Word) :
    headerOk c m.toNat k.toNat = false ↔ m = 0 ∨ k = 0 ∨ c.mMax < m.toNat ∨ c.kMax < k.toNat := by
  have hz (w : Word) : w = 0 ↔ w.toNat = 0 := BitVec.toNat_eq
  rw [← Bool.not_eq_true, headerOk_iff, hz, hz]
  omega

/-- R220: the filter that a header of `m` and `k` and the bytes behind it describe. -/
def filterOfStream (m k : Word) (bytes : List Byte) : Filter :=
  Filter.construct m.toNat k.toNat (unpackBits m.toNat (bytes.take (cdiv8 m)))

theorem filterOfStream_m (m k : Word) (bytes : List Byte) : (filterOfStream m k bytes).m = m :=
  (BitVec.ofNat_toNat 32 m).trans (BitVec.setWidth_eq m)

theorem filterOfStream_k (m k : Word) (bytes : List Byte) : (filterOfStream m k bytes).k = k :=
  (BitVec.ofNat_toNat 32 k).trans (BitVec.setWidth_eq k)

theorem bitRead_filterOfStream {m : Word} {i : Nat} (hi : i < m.toNat) (k : Word) (bytes : List Byte) :
    bitRead (filterOfStream m k bytes).bits i = bodyBit bytes i := by
  rw [filterOfStream, Filter.construct_bits, bitRead_unpackBits, decide_eq_true hi, Bool.true_and,
    bodyBit_take_cdiv8 hi]

theorem filterOfStream_acc_getElem {k : Word} {j : Nat} (hj : j < k.toNat) (m : Word) (bytes : List Byte) :
    (filterOfStream m k bytes).acc[j]? = some (Acc.fresh j) := Filter.construct_acc_getElem _ _ _ hj

/-- R225: the stream of a filter describes its bits, whatever follows it. -/
theorem filterOfStream_bodyBytes {f : Filter} (hl : f.bits.length = f.m.toNat) (rest : List Byte) :
    SameBits f (filterOfStream f.m f.k (bodyBytes f.m f.bits ++ rest)) := by
  refine ⟨filterOfStream_m _ _ _, filterOfStream_k _ _ _, ?_⟩
  rw [filterOfStream, Filter.construct_bits, List.take_left' (bodyBytes_length f.m f.bits), unpackBits_bodyBytes hl]

section
variable {s : State} {sa : Nat} (hl : sa < s.nslots) (hf : s.slot sa = none)
include hl hf

/-- R220: a DESERIALIZE of an ended source that holds no whole header. -/
theorem deserialize_failsReading_of_short (he : s.ports.srcEnded = true) (h8 : s.ports.src.length < 8) :
    FailsReading (.deserialize sa) s 0x082 s.ports.src.length [] := by
  have hw : ¬ s.srcWaits 8 = true := fun h => Bool.noConfusion (he.symm.trans (State.srcWaits_iff.mp h).2)
  have ht : s.srcBytes 8 = s.ports.src := List.take_of_length_le h8.le
  have e : exec (.deserialize sa) s = _ := (withEmpty_of_empty hl hf _).trans (if_neg hw)
  rw [ht] at e
  exact .of_raise (e.trans (if_pos h8)) (by decide) (List.drop_of_length_le h8.le)

/-- R220: how a DESERIALIZE of a source that begins with the header of `m` and `k` ends. -/
theorem deserialize_ends {m k : Word} {rest : List Byte} (hs : s.ports.src = headerBytes m k ++ rest) :
    (headerOk s.cfg m.toNat k.toNat = false → exec (.deserialize sa) s = raise .deser 2 8 (s.srcDrop 8)) ∧
    (headerOk s.cfg m.toNat k.toNat = true →
      (s.ports.srcEnded = true → rest.length < cdiv8 m →
        exec (.deserialize sa) s = raise .deser 1 (8 + rest.length) (s.srcDrop (8 + cdiv8 m))) ∧
      (cdiv8 m ≤ rest.length → exec (.deserialize sa) s = .next
        (((s.srcDrop (8 + cdiv8 m)).setSlot sa (some (filterOfStream m k rest))).complete 0
          (BitVec.ofNat 32 (8 + cdiv8 m)) m k))) := by
  have hlen : s.ports.src.length = 8 + rest.length := by rw [hs, List.length_append, headerBytes_length]
  have hcases := execDeserialize_cases sa s
  rw [hs, take_headerBytes, headerM_headerBytes, headerK_headerBytes, drop_headerBytes, ← hs, hlen] at hcases
  rcases hcases with ⟨h, -⟩ | ⟨f, h, -⟩ | ⟨-, -, ⟨h, -⟩ | ⟨h, -⟩ | ⟨-, _, _, rfl, rfl, h⟩⟩
  · omega
  · cases hf.symm.trans h
  · omega
  · omega
  rcases h with ⟨ho, e⟩ | ⟨ho, h⟩
  · exact ⟨fun _ => e, fun h => Bool.noConfusion (ho.symm.trans h)⟩
  · refine ⟨fun h => Bool.noConfusion (ho.symm.trans h), fun _ => ?_⟩
    rcases h with ⟨hb, hend, -⟩ | ⟨hb, -, e⟩ | ⟨hb, e⟩
    · exact ⟨fun he _ => Bool.noConfusion (he.symm.trans hend), fun hle => absurd hle (by omega)⟩
    · exact ⟨fun _ _ => e, fun hle => absurd hle (by omega)⟩
    · exact ⟨fun _ hlt => absurd hlt (by omega), fun _ => e.trans (succeed_eq _ _ _ _)⟩

end

/-- Settles O45: the ends are those of `deserialize_failsReading_of_short` and `deserialize_ends`; what the filter holds
is said by the lemmas on `filterOfStream`. -/
theorem deserializeCreatesTheFilter : Obligations.DeserializeCreatesTheFilter := by
  refine fun s sa => ⟨fun _ => commandWord_oneSlot 11 sa, fun hl => .of_raise (withEmpty_of_range hl _) (by decide),
    fun f hf => .of_raise (withEmpty_of_slot hf _) (by decide),
    fun hl hf => ⟨deserialize_failsReading_of_short hl hf, fun m k rest hs => ?_⟩⟩
  obtain ⟨hbad, hgood⟩ := deserialize_ends hl hf hs
  have hdrop (n : Nat) : s.ports.src.drop (8 + n) = rest.drop n := by rw [hs, ← List.drop_drop, drop_headerBytes]
  refine ⟨fun h => .of_raise (hbad ((headerOk_eq_false_iff _ m k).mpr h)) (by decide) (hdrop 0),
    fun hm hk hmc hkc => ?_⟩
  have hok : headerOk s.cfg m.toNat k.toNat = true := by
    rw [← Bool.not_eq_false, headerOk_eq_false_iff]
    exact not_or.mpr ⟨hm, not_or.mpr ⟨hk, not_or.mpr ⟨hmc.not_gt, hkc.not_gt⟩⟩⟩
  obtain ⟨hshort, hwhole⟩ := hgood hok
  refine ⟨fun he hlt => .of_raise (hshort he hlt) (by decide) ((hdrop _).trans (List.drop_of_length_le hlt.le)),
    fun hle => ?_⟩
  have he := hwhole hle
  exact ⟨_, filterOfStream m k rest, he, ⟨rfl, rfl, rfl, rfl⟩,
    State.complete_setSlot_slot (s := s.srcDrop _) _ hl _ _ _ _, filterOfStream_m m k rest, filterOfStream_k m k rest,
    unpackBits_length _ _, fun _ hi => bitRead_filterOfStream hi k rest, by simp [filterOfStream, Filter.construct],
    fun _ hj => filterOfStream_acc_getElem hj m rest, hdrop _, ⟨rfl, rfl, rfl, rfl, rfl⟩,
    ⟨by simp, fun _ hb => State.setSlot_slot_other (s.srcDrop _) _ hb⟩, exec_sameOperands he, exec_sameOutside he⟩

/-! The round trip (R225). -/

theorem SameBits.has_iff {f g : Filter} (h : SameBits f g) (key : List Byte) : g.Has key ↔ f.Has key := by
  rw [Filter.Has, Filter.Has, h.m, h.k, h.bits]

/-- Settles O46: what was written is the filter's stream (`serialize_ok_snk`), and that stream is read back as the
filter (`deserialize_ends`, `filterOfStream_bodyBytes`). -/
theorem serializeDeserializeRoundTrip : Obligations.SerializeDeserializeRoundTrip := by
  intro s t u a b f w rest hI hf he ht hw hcfg hl hb hsrc
  obtain rfl : w = pack f.m f.k f.bits := List.append_cancel_left (hw.symm.trans (serialize_ok_snk hf he ht))
  have hwf := hI.filter_wf hf
  have hok : headerOk u.cfg f.m.toNat f.k.toNat = true :=
    (headerOk_iff _ _ _).mpr ⟨hwf.mPos.ne', hwf.kPos.ne', hcfg ▸ hwf.mMax, hcfg ▸ hwf.kMax⟩
  have hsame := filterOfStream_bodyBytes hwf.bitsLength rest
  have hlen := pack_length_eq f.m f.k f.bits
  obtain ⟨-, hgood⟩ := deserialize_ends hl hb (hsrc.trans (List.append_assoc _ _ _))
  have hend := (hgood hok).2 (by rw [List.length_append, bodyBytes_length]; omega)
  rw [← hlen] at hend
  refine ⟨_, _, hend, ⟨rfl, rfl, rfl, rfl⟩, hlen, State.complete_setSlot_slot (s := u.srcDrop _) _ hl _ _ _ _, hsame,
    ?_, hsame.has_iff, fun _ hj => filterOfStream_acc_getElem hj _ _⟩
  exact (congrArg (List.drop _) hsrc).trans List.drop_left

end Sys2Proof.Machine
end

section
/-! PROOFS. UNION (spec/44_union.md R241 to R245). -/

namespace Sys2Proof.Machine

/-! The OR of two bit arrays, whatever their lengths. -/

/-- R242: `x | x = x`. -/
theorem orBits_self (a : List Bool) : orBits a a = a := by
  simp [orBits]

/-- R245: what has been merged in adds nothing when it is merged in again. -/
theorem orBits_orBits_self (a b : List Bool) : orBits (orBits a b) b = orBits a b := by
  refine List.ext_getElem (by simp [orBits]) fun i _ _ => ?_
  simp [orBits]

/-- R245: the order in which two arrays are merged into a third does not matter. -/
theorem orBits_right_comm (a b c : List Bool) : orBits (orBits a b) c = orBits (orBits a c) b := by
  refine List.ext_getElem (by simp [orBits, Nat.min_comm b.length]) fun i _ _ => ?_
  simp only [orBits, List.getElem_zipWith]
  exact Bool.or_right_comm _ _ _

/-! The filter that UNION leaves in the receiver. -/

/-- R241: the receiver `f` with the bits of `g` merged in (`exec_union_of_shape`). -/
def Filter.merge (f g : Filter) : Filter := { f with bits := orBits f.bits g.bits }

@[simp] theorem Filter.merge_m (f g : Filter) : (f.merge g).m = f.m := rfl
@[simp] theorem Filter.merge_k (f g : Filter) : (f.merge g).k = f.k := rfl
@[simp] theorem Filter.merge_bits (f g : Filter) : (f.merge g).bits = orBits f.bits g.bits := rfl

theorem Filter.merge_eq_self {f g : Filter} (h : orBits f.bits g.bits = f.bits) : f.merge g = f := by
  rw [Filter.merge, h]

theorem Filter.merge_right_comm (f g h : Filter) : (f.merge g).merge h = (f.merge h).merge g := by
  simp [Filter.merge, orBits_right_comm f.bits]

/-- R22: two filters of one shape have bit arrays of one length. -/
theorem Filter.wf.bits_length_eq {c : Config} {f g : Filter} (hf : f.wf c) (hg : g.wf c) (hm : f.m = g.m) :
    f.bits.length = g.bits.length := by
  rw [hf.bitsLength, hg.bitsLength, hm]

/-- R243: the merged filter has every key that one of the two has. -/
theorem Filter.merge_has {f g : Filter} (hl : f.bits.length = g.bits.length) (hm : f.m = g.m) (hk : f.k = g.k)
    {key : List Byte} (h : f.Has key ∨ g.Has key) : (f.merge g).Has key := by
  intro j hj
  rw [Filter.merge_k] at hj
  rw [Filter.merge_bits, Filter.merge_m, bitRead_orBits hl, Bool.or_eq_true]
  rcases h with h | h
  · exact .inl (h j hj)
  · exact .inr (hm ▸ h j (hk ▸ hj))

/-! How UNION ends. -/

/-- R91: the word of a command of format F2. -/
theorem commandWord_twoSlots (opc sa sb : Nat) :
    commandWord opc sa sb = BitVec.ofNat 32 (opc + sa * 256 + sb * 4096) := by
  rw [commandWord, Nat.mul_comm 256, Nat.mul_comm 4096]

/-- R256: both slots in range, one of them empty. -/
theorem union_failsCleanly_of_empty {s : State} {sa sb : Nat} (ha : sa < s.nslots) (hb : sb < s.nslots)
    (hn : s.slot sa = none ∨ s.slot sb = none) : FailsCleanly (.union sa sb) s 0x122 := by
  rcases execUnion_cases sa sb s with ⟨h, -⟩ | ⟨-, -, -, e⟩ | ⟨f, g, hf, hg, -⟩
  · omega
  · exact .of_raise e (by decide)
  · simp [hf, hg] at hn

section
variable {s : State} {sa sb : Nat} {f g : Filter} (hf : s.slot sa = some f) (hg : s.slot sb = some g)
include hf hg

/-- R241: a UNION of two filters checks their shapes only. -/
theorem exec_union_of_slots : exec (.union sa sb) s =
    if f.m ≠ g.m ∨ f.k ≠ g.k then raise .shape 0 0 s
    else succeed 0 0 0 (s.setSlot sa (some (f.merge g))) := by
  have hl : ¬ (s.nslots ≤ sa ∨ s.nslots ≤ sb) :=
    not_or.mpr ⟨Nat.not_le.mpr (State.slot_lt hf), Nat.not_le.mpr (State.slot_lt hg)⟩
  rw [exec, execUnion, if_neg hl, hf, hg]
  rfl

theorem union_failsCleanly_of_shape (h : f.m ≠ g.m ∨ f.k ≠ g.k) : FailsCleanly (.union sa sb) s 0x092 :=
  .of_raise ((exec_union_of_slots hf hg).trans (if_pos h)) (by decide)

theorem exec_union_of_shape (hm : f.m = g.m) (hk : f.k = g.k) :
    exec (.union sa sb) s = .next ((s.setSlot sa (some (f.merge g))).complete 0 0 0 0) :=
  (exec_union_of_slots hf hg).trans ((if_neg (by simp [hm, hk])).trans (succeed_eq _ _ _ _))

/-- R83, R241: the slots after a UNION of two filters of one shape. -/
theorem union_slots (hm : f.m = g.m) (hk : f.k = g.k) {t : State} (he : exec (.union sa sb) s = .next t) :
    t.slots = s.slots.set sa (some (f.merge g)) ∧ t.slot sa = some (f.merge g) ∧
      ∀ b, b ≠ sa → t.slot b = s.slot b := by
  cases (exec_union_of_shape hf hg hm hk).symm.trans he
  exact ⟨rfl, State.complete_setSlot_slot _ (State.slot_lt hf) _ _ _ _,
    fun _ hb => State.setSlot_slot_other s _ hb⟩

/-- R242: a UNION that has no bit to add changes nothing. -/
theorem union_endsCleanly_of_absorbed (hm : f.m = g.m) (hk : f.k = g.k) (h : orBits f.bits g.bits = f.bits) :
    EndsCleanly (.union sa sb) s 0x000 0 0 0 := by
  have he := exec_union_of_shape hf hg hm hk
  rw [Filter.merge_eq_self h] at he
  exact ⟨_, he, ⟨rfl, rfl, rfl, rfl⟩, State.setSlot_slot_self hf, rfl, exec_sameOperands he, exec_sameOutside he⟩

end

/-- R241: a UNION that succeeds has found two filters of one shape. -/
theorem union_ok {s t : State} {sa sb : Nat} (he : exec (.union sa sb) s = .next t) (ht : t.regs.status = 0) :
    ∃ f g, s.slot sa = some f ∧ s.slot sb = some g ∧ f.m = g.m ∧ f.k = g.k := by
  rcases execUnion_cases sa sb s with ⟨-, e⟩ | ⟨-, -, -, e⟩ | ⟨f, g, hf, hg, ⟨-, e⟩ | ⟨hm, hk, -⟩⟩
  · exact absurd (e.symm.trans he) (raise_ne_of_ok ht)
  · exact absurd (e.symm.trans he) (raise_ne_of_ok ht)
  · exact absurd (e.symm.trans he) (raise_ne_of_ok ht)
  · exact ⟨f, g, hf, hg, hm, hk⟩

/-- Settles O48: the errors are the checks of `execUnion`, in its order; otherwise the receiver holds the merged filter
(`exec_union_of_shape`), whose bits are `bitRead_orBits`. -/
theorem unionOrsTheBits : Obligations.UnionOrsTheBits := by
  refine fun s sa sb hI => ⟨fun _ _ => commandWord_twoSlots 12 sa sb, fun hl => .of_raise (if_pos hl) (by decide),
    union_failsCleanly_of_empty, fun f g hf hg => ⟨union_failsCleanly_of_shape hf hg, fun hm hk => ?_⟩⟩
  have he := exec_union_of_shape hf hg hm hk
  obtain ⟨-, hmerged, hother⟩ := union_slots hf hg hm hk he
  have hl := (hI.filter_wf hf).bits_length_eq (hI.filter_wf hg) hm
  exact ⟨_, f.merge g, he, ⟨rfl, rfl, rfl, rfl⟩, hmerged, rfl, rfl, rfl, orBits_length hl, bitRead_orBits hl,
    ⟨(exec_keepsRest he).nslots, hother⟩, rfl, exec_sameOperands he, exec_sameOutside he⟩

/-! Repeated and reordered unions (R242, R245). -/

/-- R242, R245: after a UNION the second slot has no bit that the first has not, be it the same slot or another. -/
theorem union_ok_absorbed {s t : State} {sa sb : Nat} (he : exec (.union sa sb) s = .next t)
    (ht : t.regs.status = 0) :
    ∃ f g, t.slot sa = some f ∧ t.slot sb = some g ∧ f.m = g.m ∧ f.k = g.k ∧ orBits f.bits g.bits = f.bits := by
  obtain ⟨f, g, hf, hg, hm, hk⟩ := union_ok he ht
  obtain ⟨-, hmerged, hother⟩ := union_slots hf hg hm hk he
  by_cases hab : sb = sa
  · subst hab
    exact ⟨_, _, hmerged, hmerged, rfl, rfl, orBits_self _⟩
  · exact ⟨_, g, hmerged, (hother sb hab).trans hg, hm, hk, orBits_orBits_self f.bits g.bits⟩

/-- Settles O49: a slot has every bit of its own (`orBits_self`), and after a UNION every bit of the other
(`union_ok_absorbed`); a UNION with no bit to add changes nothing. -/
theorem unionIsIdempotent : Obligations.UnionIsIdempotent := by
  refine ⟨fun s sa f hf => union_endsCleanly_of_absorbed hf hf rfl rfl (orBits_self _), fun s t sa sb _ he ht => ?_⟩
  obtain ⟨f, g, hf, hg, hm, hk, h⟩ := union_ok_absorbed he ht
  obtain ⟨u, hu, hr, hslots, -⟩ := union_endsCleanly_of_absorbed hf hg hm hk h
  exact ⟨u, hu, hr, hslots⟩

/-- R245: the slots after two unions of filters of one shape into one receiver. -/
theorem slots_of_two_unions {s t u : State} {sa sb sc : Nat} {f g h : Filter} (hf : s.slot sa = some f)
    (hg : s.slot sb = some g) (hh : s.slot sc = some h) (hc : sc ≠ sa) (hgm : f.m = g.m) (hgk : f.k = g.k)
    (hhm : f.m = h.m) (hhk : f.k = h.k) (he : exec (.union sa sb) s = .next t)
    (he' : exec (.union sa sc) t = .next u) :
    u.slots = s.slots.set sa (some ((f.merge g).merge h)) := by
  obtain ⟨hslots, hmerged, hother⟩ := union_slots hf hg hgm hgk he
  obtain ⟨hslots', -, -⟩ := union_slots hmerged ((hother sc hc).trans hh) hhm hhk he'
  rw [hslots', hslots, List.set_set]

/-- Settles O50: in either order the receiver ends with both merged in (`slots_of_two_unions`), and those filters are
equal (`Filter.merge_right_comm`). -/
theorem unionsCommute : Obligations.UnionsCommute := by
  intro s t1 u1 t2 u2 sa sb sc _ hb hc h1 ht1 h2 hu1 h3 h4
  obtain ⟨f, g, hf, hg, hgm, hgk⟩ := union_ok h1 ht1
  obtain ⟨f', h, hf', hh, hhm, hhk⟩ := union_ok h2 hu1
  obtain ⟨-, hmerged, hother⟩ := union_slots hf hg hgm hgk h1
  cases hmerged.symm.trans hf'
  have hh' : s.slot sc = some h := (hother sc hc).symm.trans hh
  rw [slots_of_two_unions hf hg hh' hc hgm hgk hhm hhk h1 h2, slots_of_two_unions hf hh' hg hb hhm hhk hgm hgk h3 h4,
    Filter.merge_right_comm]

/-! The keys of the merged filter (R243, R244). -/

/-- R187, R243: for which keys CONTAINS would answer 1, were the key at the port. -/
theorem contains_answers_one_iff {s : State} {a : Nat} {f : Filter} (hf : s.slot a = some f) (hw : f.wf s.cfg)
    (key : List Byte) :
    (∃ v, exec (.contains a) { s with ports := { s.ports with keys := [key] } } = .next v ∧
      Reports v 0x000 1 0 0) ↔ f.Has key := by
  obtain ⟨-, -, -, hcontains⟩ :=
    containsAnswersTheConjunction { s with ports := { s.ports with keys := [key] } } a key [] rfl
  obtain ⟨v, -, hv, hone, hzero, -⟩ := hcontains f hf hw
  refine ⟨fun ⟨v', hv', hr⟩ => ?_, fun h => ⟨v, hv, hone h⟩⟩
  cases hv.symm.trans hv'
  by_contra hn
  exact absurd ((hzero hn).res0.symm.trans hr.res0) (by decide)

/-- Settles O51: what CONTAINS answers is whether the filter has the key (`contains_answers_one_iff`), and the merged
filter has every key of either (`Filter.merge_has`). -/
theorem unionKeepsEveryKey : Obligations.UnionKeepsEveryKey := by
  rintro s t sa sb key hI he ht ⟨a, v, ha, hv, hr⟩
  obtain ⟨f, g, hf, hg, hm, hk⟩ := union_ok he ht
  obtain ⟨-, hmerged, -⟩ := union_slots hf hg hm hk he
  have hwf := hI.filter_wf hf
  have hwg := hI.filter_wf hg
  refine (contains_answers_one_iff hmerged ((exec_keepsInv hI he).filter_wf hmerged) key).mpr ?_
  refine Filter.merge_has (hwf.bits_length_eq hwg hm) hm hk ?_
  rcases ha with rfl | rfl
  · exact .inl ((contains_answers_one_iff hf hwf key).mp ⟨v, hv, hr⟩)
  · exact .inr ((contains_answers_one_iff hg hwg key).mp ⟨v, hv, hr⟩)

@[simp] theorem Filter.foldl_addKey_bits_length (keys : List (List Byte)) (f : Filter) :
    (keys.foldl Filter.addKey f).bits.length = f.bits.length := by
  induction keys generalizing f with
  | nil => rfl
  | cons key keys ih => rw [List.foldl_cons, ih, Filter.addKey_bits_length]

/-- R185: which bits are set after a list of keys has been added. -/
theorem Filter.foldl_addKey_bits {c : Config} {f : Filter} (hf : f.wf c) (keys : List (List Byte)) (i : Nat) :
    bitRead (keys.foldl Filter.addKey f).bits i = true ↔
      bitRead f.bits i = true ∨ ∃ key ∈ keys, ∃ j, j < f.k.toNat ∧ keyIndex f.m j key = i := by
  induction keys generalizing f with
  | nil => simp
  | cons key keys ih =>
    rw [List.foldl_cons, ih (Filter.addKey_wf hf key), Filter.addKey_bits hf, Filter.addKey_m, Filter.addKey_k]
    simp only [List.mem_cons, exists_eq_or_imp, or_assoc]

/-- R244: adding two lists of keys to a filter apart and merging sets the bits that adding both to it sets. -/
theorem Filter.orBits_foldl_addKey {c : Config} {f : Filter} (hf : f.wf c) (keys keys' : List (List Byte)) :
    orBits (keys.foldl Filter.addKey f).bits (keys'.foldl Filter.addKey f).bits =
      ((keys ++ keys').foldl Filter.addKey f).bits := by
  have hl : (keys.foldl Filter.addKey f).bits.length = (keys'.foldl Filter.addKey f).bits.length := by simp
  refine bits_ext (by rw [orBits_length hl]; simp) fun i => ?_
  rw [bitRead_orBits hl, Bool.eq_iff_iff, Bool.or_eq_true, Filter.foldl_addKey_bits hf, Filter.foldl_addKey_bits hf,
    Filter.foldl_addKey_bits hf]
  simp only [List.mem_append, or_and_right, exists_or]
  exact or_or_distrib_left.symm

/-- Settles O52: the empty filter of the shape is well-formed (`Filter.construct_wf`), and the bits that a list of keys
sets in it are `Filter.foldl_addKey_bits`. -/
theorem unionEqualsAddingBothKeySets : Obligations.UnionEqualsAddingBothKeySets := by
  intro m k keys keys' hm hm32 hk hk32
  have hw : (Filter.construct m k (List.replicate m false)).wf Config.default :=
    Filter.construct_wf hm hm32 hm32 hk hk32 hk32 List.length_replicate
  exact Filter.orBits_foldl_addKey hw keys keys'

end Sys2Proof.Machine
end

section
/-! PROOFS. How commands end: success, one error, or a wait (spec/60_exceptions.md R250 to R255, R264, R275). -/

namespace Sys2Proof.Machine

/-! An illegal word (R255). -/

/-- R255: a word that does not decode ends the step with `E_ILLEGAL`, and nothing but `STATUS` and the results is
written. -/
theorem step_illegal_touchesNothing {s : State} {e : Illegal} (hc : s.coreTurn = true)
    (hd : decode s.regs.cmd = .error e) :
    ∃ t, step s = .next t ∧ Reports t 0x012 0 0 0 ∧ t.slots = s.slots ∧ t.ports = s.ports ∧ SameOperands s t ∧
      SameOutside s t :=
  ⟨_, step_eq_illegal hc hd, ⟨(by decide : statusError .illegal 0 = 0x012), rfl, rfl, rfl⟩, rfl, rfl,
    ⟨rfl, rfl, rfl, rfl, rfl⟩, ⟨rfl, rfl, rfl, rfl⟩⟩

/-- Settles O7: the words of the statement are those of `IllegalBits`, which do not decode. -/
theorem illegalWordRaisesAndTouchesNothing : Obligations.IllegalWordRaisesAndTouchesNothing := by
  intro s w opc hc hw hopc h
  subst hw hopc
  obtain ⟨e, hd⟩ := decode_of_illegalBits h
  exact step_illegal_touchesNothing hc hd

/-! The `STATUS` a command ends with (R250 to R253, R275). -/

@[simp] theorem statusECode_zero : statusECode 0#32 = 0 := by decide

/-- R252: the sub-cause field of an error of the table is in the table. -/
theorem statusEInfo_statusError_lt {e : ErrKind} {info : Nat} (h : info < e.infos) :
    statusEInfo (statusError e info) < e.infos := by
  rw [statusError, statusEInfo_statusWord]
  exact (Nat.mod_le info 4).trans_lt h

/-- Settles O16: the three ways of `exec_ends`; a waiting command has set `BUSY` alone (`statusSetBusy_fields`), and the
sub-cause of an error is in the table (`info_lt_of_mem_errorsOf`). -/
theorem everyCommandEndsOnceOrWaits : Obligations.EveryCommandEndsOnceOrWaits := by
  intro i s
  rcases exec_ends i s with
    ⟨hb, e⟩ | ⟨hb, err, info, n, s1, hm, e, -⟩ | ⟨hb, r0, r1, r2, s1, e, -⟩
  · obtain ⟨hbusy, herr, hecode, heinfo⟩ := statusSetBusy_fields s.regs.status
    exact ⟨_, e, .inl ⟨hb, hbusy, rfl, herr, hecode, heinfo⟩⟩
  · exact ⟨_, e, .inr ⟨hb, statusBusy_statusError err info, .inr ⟨statusErr_statusError err info, err,
      statusECode_statusError err info, statusEInfo_statusError_lt (info_lt_of_mem_errorsOf hm)⟩⟩⟩
  · exact ⟨_, e, .inr ⟨hb, (congrArg statusBusy statusOk_eq_zero).trans statusBusy_zero, .inl statusOk_eq_zero⟩⟩

/-- R275: the values of `STATUS` that a command can end with. -/
def endStatuses (i : Instr) : List Word := 0 :: (errorsOf i).map fun p => statusError p.1 p.2

theorem exec_status_mem {i : Instr} {s t : State} (hb : ¬ PortBlocked i s) (he : exec i s = .next t) :
    t.regs.status ∈ endStatuses i := by
  rcases exec_next_cases he with ⟨hb', -⟩ | ⟨-, st, r0, r1, r2, s1, rfl, -, -, hst⟩
  · exact absurd hb' hb
  · rcases hst with rfl | ⟨e, info, hm, rfl⟩
    · exact List.mem_cons_self
    · exact List.mem_cons_of_mem _ (List.mem_map_of_mem hm)

/-- Settles O17: by `exec_status_mem`; the lists of the statement are those of `endStatuses`, by evaluation. -/
theorem whichCommandRaisesWhat : Obligations.WhichCommandRaisesWhat := by
  intro i s t hb he
  have h := exec_status_mem hb he
  cases i <;> exact h

/-! What an error leaves (R254, R264). -/

/-- A command that ends with an error has raised one of its own, over a state in which the slots are as they were. -/
theorem exec_error_cases {i : Instr} {s t : State} (hb : ¬ PortBlocked i s) (he : exec i s = .next t)
    (h : statusErr t.regs.status = true) :
    ∃ e info n s1, (e, info) ∈ errorsOf i ∧ t = s1.complete (statusError e info) (BitVec.ofNat 32 n) 0 0 ∧
      Went i s s1 ∧ s1.slots = s.slots ∧ (e.code < 6 ∨ 8 < e.code → n = 0) := by
  rcases exec_ends i s with ⟨hb', -⟩ | ⟨-, e, info, n, s1, hm, e', hw, hs, hn⟩ | ⟨-, r0, r1, r2, s1, e', -⟩
  · exact absurd hb' hb
  · cases e'.symm.trans he
    exact ⟨e, info, n, s1, hm, rfl, hw, hs, hn⟩
  · cases e'.symm.trans he
    cases (congrArg statusErr statusOk_eq_zero).symm.trans h

/-- R260, R275: only SERIALIZE ends with `E_IO_HEADER` or `E_IO_BODY`. -/
theorem serialize_of_sinkError {i : Instr} {e : ErrKind} {info : Nat} (h : (e, info) ∈ errorsOf i)
    (hc : e.code = 6 ∨ e.code = 7) : ∃ sa, i = .serialize sa := by
  have other (hno : ∀ p ∈ errorsOf i, ¬ (p.1.code = 6 ∨ p.1.code = 7)) : False := hno _ h hc
  cases i with
  | serialize sa => exact ⟨sa, rfl⟩
  | _ => exact (other (by simp only [errorsOf]; decide)).elim

/-- R261, R275: only DESERIALIZE ends with `E_DESER`. -/
theorem deserialize_of_sourceError {i : Instr} {e : ErrKind} {info : Nat} (h : (e, info) ∈ errorsOf i)
    (hc : e.code = 8) : ∃ sa, i = .deserialize sa := by
  have other (hno : ∀ p ∈ errorsOf i, p.1.code ≠ 8) : False := hno _ h hc
  cases i with
  | deserialize sa => exact ⟨sa, rfl⟩
  | _ => exact (other (by simp only [errorsOf]; decide)).elim

/-- R17: the length of a stream fits a result register. -/
theorem stream_length_lt (m : Word) : 8 + cdiv8 m < 2 ^ 32 := by
  have := cdiv8_le m
  omega

/-- R66: a sink that has room for `n` bytes, fewer than the stream has, gains `n`. -/
theorem snkWrite_pack_length_of_short {p : Ports} {n : Nat} {m k : Word} {bits : List Bool}
    (ha : p.accept = some n) (hn : n < 8 + cdiv8 m) :
    (p.snkWrite (pack m k bits)).snk.length = p.snk.length + (BitVec.ofNat 32 n).toNat := by
  rw [Ports.snkWrite_snk, List.length_append, List.length_take, pack_length_eq, Ports.takes_of_short ha hn,
    Nat.min_eq_left hn.le, BitVec.toNat_ofNat, Nat.mod_eq_of_lt (hn.trans (stream_length_lt m))]

/-- R65: a read of `c` bytes takes from the source as many of them as are there. -/
theorem length_eq_delivered_add_rest {src : List Byte} {n c : Nat} (hn : n = min c src.length) (h32 : n < 2 ^ 32) :
    src.length = (BitVec.ofNat 32 n).toNat + (src.drop c).length := by
  rw [BitVec.toNat_ofNat, Nat.mod_eq_of_lt h32, List.length_drop]
  omega

/-- R215, R254: a SERIALIZE that ends with an error of the sink reports how many bytes the sink accepted. -/
theorem serialize_error_count {s t : State} {sa : Nat} (hb : ¬ PortBlocked (.serialize sa) s)
    (he : exec (.serialize sa) s = .next t) (hc : statusECode t.regs.status = 6 ∨ statusECode t.regs.status = 7) :
    t.ports.snk.length = s.ports.snk.length + t.regs.res0.toNat := by
  rcases execSerialize_cases sa s with ⟨-, e⟩ | ⟨-, -, e⟩ |
    ⟨f, hf, ⟨hr, -⟩ | ⟨-, ⟨n, ha, h8, e⟩ | ⟨n, ha, -, hn, e⟩ | ⟨-, e⟩⟩⟩
  · cases e.symm.trans he
    simp [ErrKind.code] at hc
  · cases e.symm.trans he
    simp [ErrKind.code] at hc
  · exact absurd ⟨⟨f, hf⟩, hr⟩ hb
  · cases e.symm.trans he
    exact snkWrite_pack_length_of_short ha (by omega)
  · cases e.symm.trans he
    exact snkWrite_pack_length_of_short ha hn
  · cases e.symm.trans he
    simp at hc

/-- R220, R254: a DESERIALIZE that ends with `E_DESER` reports how many bytes the source delivered. -/
theorem deserialize_error_count {s t : State} {sa : Nat} (hb : ¬ PortBlocked (.deserialize sa) s)
    (he : exec (.deserialize sa) s = .next t) (hc : statusECode t.regs.status = 8) :
    s.ports.src.length = t.regs.res0.toNat + t.ports.src.length := by
  rcases execDeserialize_cases sa s with ⟨-, e⟩ | ⟨f, -, e⟩ | ⟨hl, hf, ⟨h8, hend, -⟩ | ⟨h8, -, e⟩ |
    ⟨h8, m, k, rfl, rfl, ⟨-, e⟩ | ⟨ho, ⟨hn, hend, -⟩ | ⟨hn, -, e⟩ | ⟨-, e⟩⟩⟩⟩
  · cases e.symm.trans he
    simp [ErrKind.code] at hc
  · cases e.symm.trans he
    simp [ErrKind.code] at hc
  · exact absurd ⟨hl, hf, hend, .inl h8⟩ hb
  · cases e.symm.trans he
    exact length_eq_delivered_add_rest (by omega) (by omega)
  · cases e.symm.trans he
    exact length_eq_delivered_add_rest (by omega) (by decide)
  · exact absurd ⟨hl, hf, hend, .inr ⟨ho, hn⟩⟩ hb
  · cases e.symm.trans he
    exact length_eq_delivered_add_rest (by omega) (hn.trans (stream_length_lt _))
  · cases e.symm.trans he
    simp at hc

/-- Settles O18: the slots, the keys and the ports are those of `exec_error_cases`, the byte counts
`serialize_error_count` and `deserialize_error_count`; an illegal word is `step_illegal_touchesNothing`. -/
theorem errorsLeaveTheSlots : Obligations.ErrorsLeaveTheSlots := by
  refine ⟨fun i s t hb he herr => ?_, fun s t e hc hd h => ?_⟩
  · obtain ⟨e, info, n, s1, hm, ht, hw, hs, hn⟩ := exec_error_cases hb he herr
    have hcode : statusECode t.regs.status = e.code := ht ▸ statusECode_statusError e info
    have hsink (hc : e.code = 6 ∨ e.code = 7) : t.ports.snk.length = s.ports.snk.length + t.regs.res0.toNat := by
      obtain ⟨sa, rfl⟩ := serialize_of_sinkError hm hc
      exact serialize_error_count hb he (hcode ▸ hc)
    have hsource (hc : e.code = 8) : s.ports.src.length = t.regs.res0.toNat + t.ports.src.length := by
      obtain ⟨sa, rfl⟩ := deserialize_of_sourceError hm hc
      exact deserialize_error_count hb he (hcode.trans hc)
    rw [hcode]
    subst ht
    exact ⟨hs, rfl, rfl, hsink, hsource, fun hc => congrArg (BitVec.ofNat 32) (hn hc),
      fun hk => hw.keys.trans (if_pos hk), fun hk => hw.keys.trans (by rw [hk]; rfl), hw.snk, hw.src⟩
  · obtain ⟨t', h', hr, hslots, hports, -⟩ := step_illegal_touchesNothing hc hd
    cases h'.symm.trans h
    exact ⟨hslots, hports, hr.res0, hr.res1, hr.res2⟩

end Sys2Proof.Machine
end

section
/-! PROOFS. The reset input and the hazards of the command interface (spec/70_reset_and_hazards.md R290, R291, R300,
R305). -/

namespace Sys2Proof.Machine

/-! Accesses that are refused while a command is in flight (R300). -/

theorem hostWrite_of_busy {s : State} {r : HostReg} (hb : s.busy = true) (hr : r.writable = true) (w : Word) :
    hostWrite r w s = .refused .interfaceWhileBusy := if_pos (Bool.and_eq_true_iff.mpr ⟨hb, hr⟩)

theorem hostPresent_of_unwanted {s : State} (hb : s.busy = true) (hk : s.wantsKey = false) (key : List Byte) :
    hostPresent key s = .refused .interfaceWhileBusy := if_pos (by rw [hb, hk]; rfl)

/-- R64, R302: a KEY buffer is wanted only for a command that takes one, and only while none is pending. -/
theorem State.wantsKey_eq_false {s : State}
    (h : s.ports.keys ≠ [] ∨ ∀ i, decode s.regs.cmd = .ok i → takesKey i = false) : s.wantsKey = false := by
  rw [State.wantsKey]
  cases hd : decode s.regs.cmd with
  | error e => rfl
  | ok i =>
    refine Bool.and_eq_false_iff.mpr (h.symm.imp (fun hi => hi i hd) fun hk => ?_)
    rwa [List.isEmpty_eq_false_iff]

/-- Settles O11: each is the host's turn (`step_eq_hostMove`), and the access is one that `hostWrite_of_busy` or
`hostPresent_of_unwanted` refuses. -/
theorem busyInterfaceViolationsAreRefused : Obligations.BusyInterfaceViolationsAreRefused := by
  intro s rest hb
  have writable {r : HostReg} (hr : r = .cmd ∨ r = .arg0 ∨ r = .arg1 ∨ r = .arg2 ∨ r = .arg3) :
      r.writable = true := by
    rcases hr with rfl | rfl | rfl | rfl | rfl <;> rfl
  refine ⟨fun r w hr hh => ?_, fun r hr hh => ?_, fun key hh hk => ?_⟩ <;>
    refine (step_eq_hostMove hh HostMove.noConfusion).trans ?_
  · exact hostWrite_of_busy (s := { s with host := rest }) hb (writable hr) w
  · exact hostWrite_of_busy (s := { s with host := rest }) hb (writable hr) s.lastRead
  · exact hostPresent_of_unwanted (s := { s with host := rest }) hb (State.wantsKey_eq_false hk) key

/-! The reset input (R290). -/

@[simp] theorem HostRegs.get_zero (r : HostReg) : HostRegs.zero.get r = 0 := by cases r <;> rfl

@[simp] theorem State.hardReset_nslots (s : State) : s.hardReset.nslots = s.nslots := List.length_replicate

@[simp] theorem State.hardReset_busy (s : State) : s.hardReset.busy = false := statusBusy_zero

theorem step_eq_reset_idle {s : State} {rest : List HostMove} (hh : s.host = .reset :: rest) (hb : s.busy = false) :
    step s = .next ({ s with host := rest } : State).hardReset :=
  (step_eq_hostMove hh HostMove.noConfusion).trans
    (congrArg Host.Outcome.next (if_neg (fun h => Bool.noConfusion (hb.symm.trans h))))

/-- R291. -/
theorem step_eq_reset_busy {s : State} {rest : List HostMove} (hh : s.host = .reset :: rest) (hb : s.busy = true) :
    step s = .next ({ s with host := rest } : State).abandon.hardReset :=
  (step_eq_hostMove hh HostMove.noConfusion).trans (congrArg Host.Outcome.next (if_pos hb))

/-- Settles O13: the core is reset (`State.hardReset`), after the command in flight, if there is one, has been abandoned
with effect on the ports alone (`State.abandon_spec`). -/
theorem hardResetEmptiesTheCore : Obligations.HardResetEmptiesTheCore := by
  intro s rest hh
  cases hb : s.busy with
  | false =>
    exact ⟨_, step_eq_reset_idle hh hb, State.hardReset_slot _, State.hardReset_nslots _, rfl, rfl, HostRegs.get_zero,
      State.hardReset_busy _, fun _ => rfl⟩
  | true =>
    obtain ⟨hcfg, hslots, hhost, -⟩ := State.abandon_spec { s with host := rest }
    exact ⟨_, step_eq_reset_busy hh hb, State.hardReset_slot _,
      (State.hardReset_nslots _).trans (congrArg List.length hslots), hcfg, hhost, HostRegs.get_zero,
      State.hardReset_busy _, Bool.noConfusion⟩

/-! The ports of an abandoned command (R291). -/

/-- R66: whatever the sink accepts, what it gains is an initial part of what is written. -/
theorem Ports.snkWrite_snk_prefix (p : Ports) (bytes : List Byte) :
    ∃ q, (p.snkWrite bytes).snk = p.snk ++ q ∧ q <+: bytes := ⟨_, rfl, List.take_prefix _ _⟩

theorem Ports.deserLength_le (c : Config) (p : Ports) :
    p.deserLength c ≤ 8 + cdiv8 (headerM (p.src.take 8)) := by
  unfold Ports.deserLength
  split
  · omega
  · split <;> omega

theorem State.abandonPorts_snk (i : Instr) (n : Nat) (s : State) :
    ∃ p, (s.abandonPorts i n).snk = s.ports.snk ++ p ∧
      (p = [] ∨ ∃ sa f, i = .serialize sa ∧ s.slot sa = some f ∧ p <+: pack f.m f.k f.bits) := by
  have kept {q : Ports} (h : q.snk = s.ports.snk) : q.snk = s.ports.snk ++ [] := by rw [h, List.append_nil]
  cases i with
  | serialize sa =>
    cases hf : s.slot sa with
    | none => exact ⟨[], kept (by rw [State.abandonPorts, hf]), .inl rfl⟩
    | some f =>
      obtain ⟨p, hp, hpre⟩ := s.ports.snkWrite_snk_prefix ((pack f.m f.k f.bits).take n)
      rw [State.abandonPorts, hf]
      exact ⟨p, hp, .inr ⟨sa, f, rfl, hf, hpre.trans (List.take_prefix _ _)⟩⟩
  | deserialize sa => exact ⟨[], kept (by rw [State.abandonPorts]; split <;> rfl), .inl rfl⟩
  | _ => exact ⟨[], kept rfl, .inl rfl⟩

theorem State.abandonPorts_src (i : Instr) (n : Nat) (s : State) :
    ∃ p, s.ports.src = p ++ (s.abandonPorts i n).src ∧
      (p = [] ∨ ∃ sa, i = .deserialize sa ∧ sa < s.nslots ∧ s.slot sa = none ∧
        p.length ≤ 8 + cdiv8 (headerM (s.ports.src.take 8))) := by
  cases i with
  | deserialize sa =>
    rw [State.abandonPorts]
    split
    · exact ⟨[], rfl, .inl rfl⟩
    · rename_i h
      obtain ⟨hl, hf⟩ := not_or.mp h
      have hnone : s.slot sa = none := Option.not_isSome_iff_eq_none.mp hf
      refine ⟨_, (List.take_append_drop _ _).symm, .inr ⟨sa, rfl, Nat.not_le.mp hl, hnone, ?_⟩⟩
      calc (s.ports.src.take (min n (s.ports.deserLength s.cfg))).length
          ≤ min n (s.ports.deserLength s.cfg) := List.length_take_le _ _
        _ ≤ s.ports.deserLength s.cfg := Nat.min_le_right _ _
        _ ≤ 8 + cdiv8 (headerM (s.ports.src.take 8)) := s.ports.deserLength_le s.cfg
  | serialize sa => exact ⟨[], by rw [State.abandonPorts]; split <;> rfl, .inl rfl⟩
  | _ => exact ⟨[], rfl, .inl rfl⟩

theorem State.abandonPorts_keys {i : Instr} (hi : takesKey i = true) (n : Nat) (s : State) :
    (s.abandonPorts i n).keys = s.ports.keys.tail := by
  cases i with
  | hfeed sa => rfl
  | add sa => rfl
  | contains sa => rfl
  | _ => cases hi

/-- What a legal command in flight leaves when it is abandoned. -/
theorem State.abandon_ports_of_decode {s : State} {i : Instr} (hd : decode s.regs.cmd = .ok i) :
    s.abandon.ports = s.abandonPorts i (Config.freeLength s.draws) := by rw [State.abandon, hd]

theorem State.abandon_of_illegal {s : State} {e : Illegal} (hd : decode s.regs.cmd = .error e) : s.abandon = s := by
  rw [State.abandon, hd]

/-- Settles O14: for a legal command in flight the ports are those of `State.abandonPorts_snk`, `State.abandonPorts_src`
and `State.abandonPorts_keys`; an illegal one has used no port. -/
theorem resetAbandonsACommand : Obligations.ResetAbandonsACommand := by
  intro s rest hb hh
  refine ⟨_, step_eq_reset_busy hh hb, State.hardReset_slot _, HostRegs.get_zero, ?_⟩
  rw [State.hardReset_ports]
  cases hd : decode s.regs.cmd with
  | error e =>
    rw [State.abandon_of_illegal (s := { s with host := rest }) hd]
    exact ⟨⟨[], (List.append_nil _).symm, .inl rfl⟩, ⟨[], rfl, .inl rfl⟩, fun _ hi => nomatch hi⟩
  | ok i =>
    rw [State.abandon_ports_of_decode (s := { s with host := rest }) hd]
    obtain ⟨p, hp, hsnk⟩ := State.abandonPorts_snk i (Config.freeLength s.draws) { s with host := rest }
    obtain ⟨q, hq, hsrc⟩ := State.abandonPorts_src i (Config.freeLength s.draws) { s with host := rest }
    refine ⟨⟨p, hp, hsnk.imp_right ?_⟩, ⟨q, hq, hsrc.imp_right ?_⟩, ?_⟩
    · rintro ⟨sa, f, rfl, h⟩
      exact ⟨sa, f, rfl, h⟩
    · rintro ⟨sa, rfl, h⟩
      exact ⟨sa, rfl, h⟩
    · rintro _ ⟨⟩ hi
      exact State.abandonPorts_keys hi _ _

/-! Truncated streams (R305). -/

/-- R221: the header of a filter that fits the core is accepted. -/
theorem Filter.wf.headerOk_eq {c : Config} {f : Filter} (h : f.wf c) : headerOk c f.m.toNat f.k.toNat = true :=
  (headerOk_iff _ _ _).mpr ⟨h.mPos.ne', h.kPos.ne', h.mMax, h.kMax⟩

theorem FailsReading.failsWith {i : Instr} {s : State} {st : Word} {n : Nat} {left : List Byte}
    (h : FailsReading i s st n left) : FailsWith i s st (BitVec.ofNat 32 n) := by
  obtain ⟨t, he, hr, hslots, -, -, hops, hout⟩ := h
  exact ⟨t, he, hr, hslots, hops, hout⟩

/-- R115: the first bytes of a stream, the whole header among them. -/
theorem pack_take_of_header (m k : Word) (bits : List Bool) (j : Nat) :
    (pack m k bits).take (8 + j) = headerBytes m k ++ (bodyBytes m bits).take j := by
  rw [pack, ← headerBytes_length m k, List.take_length_add_append]

/-- Settles O47: below 8 bytes there is no whole header (`deserialize_failsReading_of_short`); from 8 bytes on the
header is accepted and the body is too short (`deserialize_ends`). -/
theorem properPrefixesAreRejected : Obligations.ProperPrefixesAreRejected := by
  intro s sa n f hwf hl hf he hs hn
  have hlen : s.ports.src.length = n := by
    rw [hs, List.length_take, pack_length_eq, Nat.min_eq_left hn.le]
  split
  · next h8 => exact hlen ▸ (deserialize_failsReading_of_short hl hf he (hlen ▸ h8)).failsWith
  · next h8 =>
    obtain ⟨j, rfl⟩ := Nat.exists_eq_add_of_le (Nat.not_lt.mp h8)
    have hj : j < cdiv8 f.m := Nat.lt_of_add_lt_add_left hn
    have hbody : ((bodyBytes f.m f.bits).take j).length = j := by
      rw [List.length_take, bodyBytes_length, Nat.min_eq_left hj.le]
    obtain ⟨-, hgood⟩ := deserialize_ends hl hf (hs.trans (pack_take_of_header f.m f.k f.bits j))
    have hend := (hgood hwf.headerOk_eq).1 he (hbody.symm ▸ hj)
    rw [hbody] at hend
    exact (FailsReading.of_raise hend (by decide) rfl).failsWith

end Sys2Proof.Machine
end
